-- ==== Sys2Proof/Word.lean ====
section
/-! DEFINITION. The word types of VEB-CMD1: the 32-bit command word, the fixed-point phase, the binary64 datum
as its bit pattern, and an exact decimal for the spec's literals (00_scope.md R10, R11). -/

namespace Sys2Proof

/-- A word of the command port or of the status port (00_scope.md R10, 20_memory.md R100). -/
abbrev Word := BitVec 32

/-- A fixed-point oscillator phase: one cycle is `2^32`, and additions wrap (`u32` of 00_scope.md R10). -/
abbrev Phase := BitVec 32

/-- An IEEE 754 binary64 datum, held as its 64-bit pattern (00_scope.md R11). It is a type of its own so that the
integer operations of `BitVec` are never taken for arithmetic on it. -/
structure F64 where
  bits : BitVec 64
  deriving DecidableEq, Repr, Inhabited

/-- A decimal literal of the spec, `num / den` exactly. `F64.lit` gives the binary64 nearest to it. -/
structure Decimal where
  num : Int
  den : Nat
  deriving DecidableEq, Repr

end Sys2Proof
end

