-- ==== Sys2Proof/Syntax.lean ====
section
/-! DEFINITION. The commands of VEB-CMD1, one constructor per row of spec/opcode_table.json. An operand field is the
natural number its bits spell (30_encoding.md R134: every field is unsigned); `WellFormed` says which numbers a field
can hold. A binary64 operand is the datum of the two payload words. -/

namespace Sys2Proof

/-- A decoded command (30_encoding.md R131). -/
inductive Instr where
  /-- op 0x00, format F0 (40_system_commands.md R201). -/
  | nop
  /-- op 0x01, format FR: block size and sample rate (40_system_commands.md R202). -/
  | reset (bs : Nat) (sr : F64)
  /-- op 0x02, format FN (41_note_commands.md R220, R221). -/
  | noteOn (note vel : Nat)
  /-- op 0x03, format FN0 (41_note_commands.md R222). -/
  | noteOff (note : Nat)
  /-- op 0x04, format FN (41_note_commands.md R223). -/
  | cc (num val : Nat)
  /-- op 0x05, format FW (41_note_commands.md R224). -/
  | pitchBend (v14 : Nat)
  /-- op 0x06, format FV (41_note_commands.md R225). -/
  | programChange (b : Nat)
  /-- op 0x07, format FV (41_note_commands.md R226). -/
  | aftertouch (b : Nat)
  /-- op 0x10, format FP: parameter index and value (42_param_write.md R260). -/
  | paramWrite (idx : Nat) (x : F64)
  /-- op 0x11, format FM (41_note_commands.md R227). -/
  | setVoiceMode (mode : Nat)
  /-- op 0x20, format FB (43_render.md R290). -/
  | render (modin : Bool) (nf : Nat)
  /-- op 0x30, format F0 (40_system_commands.md R203). -/
  | clearStatus
  deriving DecidableEq, Repr

end Sys2Proof
end

