-- ==== Sys2Proof/WellFormed.lean ====
section
/-! DEFINITION. The operand numbers that the fields of 30_encoding.md R132 and R134 can hold. Value checks that a
command makes itself (RESET's block size, SET_VOICE_MODE's mode 3) are no part of this: such a command is well formed
and its meaning raises the error. -/

namespace Sys2Proof

/-- Every operand fits its field (30_encoding.md R132, R134). -/
def Instr.wellFormed : Instr → Bool
  | .nop => true
  | .reset bs _ => decide (bs < 2 ^ 16)
  | .noteOn note vel => decide (note < 2 ^ 7) && decide (vel < 2 ^ 7)
  | .noteOff note => decide (note < 2 ^ 7)
  | .cc num val => decide (num < 2 ^ 7) && decide (val < 2 ^ 7)
  | .pitchBend v14 => decide (v14 < 2 ^ 14)
  | .programChange b => decide (b < 2 ^ 7)
  | .aftertouch b => decide (b < 2 ^ 7)
  | .paramWrite idx _ => decide (idx < 2 ^ 8)
  | .setVoiceMode mode => decide (mode < 2 ^ 2)
  | .render _ nf => decide (nf < 2 ^ 16)
  | .clearStatus => true

/-- `Instr.wellFormed` as a proposition. -/
abbrev Instr.WellFormed (i : Instr) : Prop := i.wellFormed = true

end Sys2Proof
end

