-- ==== Sys2Proof/Decode.lean ====
section
/-! DEFINITION. From command words to commands and back (30_encoding.md). `decode` is total: it answers a command and
its length, or says by name why there is none. The opcode map is the table of R131 and R135; operand fields are cut out
here and nowhere else. -/

namespace Sys2Proof

/-- What the decoder reads at the head of the command stream. -/
inductive Decoded where
  /-- No header word has arrived. -/
  | noHeader
  /-- A three-word command whose payload has not all arrived (30_encoding.md R133). -/
  | noPayload
  /-- The opcode is not in R131 (R137): one word long. -/
  | illegalOpcode
  /-- A legal opcode with a reserved bit set (R136): `len` words long. -/
  | reservedBits (len : Nat)
  /-- A well-formed command of `len` words. -/
  | command (i : Instr) (len : Nat)
  deriving DecidableEq, Repr

/-- One row of the tables of R131 and R135. -/
structure OpRow where
  mnemonic : String
  pattern : Word
  mask : Word
  deriving DecidableEq, Repr

/-- The opcode map: `match` and `mask` of R135, in the order of R131. -/
def opTable : List OpRow :=
  [⟨"NOP", 0x00000000, 0xFFFFFFFF⟩, ⟨"RESET", 0x01000000, 0xFFFF0000⟩, ⟨"NOTE_ON", 0x02000000, 0xFFFF8080⟩,
   ⟨"NOTE_OFF", 0x03000000, 0xFFFF80FF⟩, ⟨"CC", 0x04000000, 0xFFFF8080⟩, ⟨"PITCH_BEND", 0x05000000, 0xFFFFC000⟩,
   ⟨"PROGRAM_CHANGE", 0x06000000, 0xFFFFFF80⟩, ⟨"AFTERTOUCH", 0x07000000, 0xFFFFFF80⟩,
   ⟨"PARAM_WRITE", 0x10000000, 0xFFFFFF00⟩, ⟨"SET_VOICE_MODE", 0x11000000, 0xFFFFFFFC⟩,
   ⟨"RENDER", 0x20000000, 0xFFFE0000⟩, ⟨"CLEAR_STATUS", 0x30000000, 0xFFFFFFFF⟩]

/-- `w[hi:lo]` as a number (00_scope.md R10). -/
def field (w : Word) (hi lo : Nat) : Nat := w.toNat / 2 ^ lo % 2 ^ (hi + 1 - lo)

/-- The opcode `w[31:24]` (R130). -/
def opcode (w : Word) : Nat := field w 31 24

/-- The row of an opcode, if it is assigned (R131). -/
def rowOf (op : Nat) : Option OpRow := opTable.find? (fun r => decide (opcode r.pattern = op))

/-- The length in words, by the opcode alone (R133). -/
def lengthOf (op : Nat) : Nat := if op = 0x01 ∨ op = 0x10 then 3 else 1

/-- `(w & mask) = match` (R135). -/
def OpRow.accepts (r : OpRow) (w : Word) : Bool := decide (w &&& r.mask = r.pattern)

/-- The binary64 operand `{W2, W1}`, low word first (R134). -/
def payload (w1 w2 : Word) : F64 := ⟨BitVec.ofNat 64 (w2.toNat * 2 ^ 32 + w1.toNat)⟩

/-- The command a well-formed header and its payload spell (R134). -/
def operands (w w1 w2 : Word) : Option Instr :=
  match opcode w with
  | 0x00 => some .nop
  | 0x01 => some (.reset (field w 15 0) (payload w1 w2))
  | 0x02 => some (.noteOn (field w 14 8) (field w 6 0))
  | 0x03 => some (.noteOff (field w 14 8))
  | 0x04 => some (.cc (field w 14 8) (field w 6 0))
  | 0x05 => some (.pitchBend (field w 13 0))
  | 0x06 => some (.programChange (field w 6 0))
  | 0x07 => some (.aftertouch (field w 6 0))
  | 0x10 => some (.paramWrite (field w 7 0) (payload w1 w2))
  | 0x11 => some (.setVoiceMode (field w 1 0))
  | 0x20 => some (.render (decide (field w 16 16 = 1)) (field w 15 0))
  | 0x30 => some .clearStatus
  | _ => none

/-- The head of the command stream, in the order of checks of 40_system_commands.md R200. -/
def decode (ws : List Word) : Decoded :=
  match ws with
  | [] => .noHeader
  | w :: rest =>
    match rowOf (opcode w) with
    | none => .illegalOpcode
    | some row =>
      let len := lengthOf (opcode w)
      if rest.length + 1 < len then .noPayload
      else if row.accepts w then
        match operands w (rest.getD 0 0) (rest.getD 1 0) with
        | some i => .command i len
        | none => .illegalOpcode
      else .reservedBits len

/-- The opcode of a command (R131). -/
def Instr.op : Instr → Nat
  | .nop => 0x00
  | .reset _ _ => 0x01
  | .noteOn _ _ => 0x02
  | .noteOff _ => 0x03
  | .cc _ _ => 0x04
  | .pitchBend _ => 0x05
  | .programChange _ => 0x06
  | .aftertouch _ => 0x07
  | .paramWrite _ _ => 0x10
  | .setVoiceMode _ => 0x11
  | .render _ _ => 0x20
  | .clearStatus => 0x30

/-- The length of a command in words (R133). -/
def Instr.words (i : Instr) : Nat := lengthOf i.op

/-- A header word: the opcode in `[31:24]` over the operand bits (R130). -/
def header (op operandBits : Nat) : Word := BitVec.ofNat 32 (op * 2 ^ 24 + operandBits)

/-- A header followed by a binary64 payload, low word first (R134). -/
def withPayload (w : Word) (x : F64) : List Word :=
  [w, BitVec.ofNat 32 x.bits.toNat, BitVec.ofNat 32 (x.bits.toNat / 2 ^ 32)]

/-- The words of a command, by the formats of R132. -/
def encode : Instr → List Word
  | .nop => [header 0x00 0]
  | .reset bs sr => withPayload (header 0x01 bs) sr
  | .noteOn note vel => [header 0x02 (note * 2 ^ 8 + vel)]
  | .noteOff note => [header 0x03 (note * 2 ^ 8)]
  | .cc num val => [header 0x04 (num * 2 ^ 8 + val)]
  | .pitchBend v14 => [header 0x05 v14]
  | .programChange b => [header 0x06 b]
  | .aftertouch b => [header 0x07 b]
  | .paramWrite idx x => withPayload (header 0x10 idx) x
  | .setVoiceMode mode => [header 0x11 mode]
  | .render modin nf => [header 0x20 ((if modin then 2 ^ 16 else 0) + nf)]
  | .clearStatus => [header 0x30 0]

/-- The words of a command word `w` of `nbits` bits, numbered from the header's bit 0: the header, then the payload
words (zeros above `nbits`). Every port carries whole words, so no byte order enters (20_memory.md R104). -/
def tableWords (nbits w : Nat) : List Word :=
  let b := w % 2 ^ nbits
  [BitVec.ofNat 32 b, BitVec.ofNat 32 (b / 2 ^ 32), BitVec.ofNat 32 (b / 2 ^ 64)]

/-- The command the decoder reads from a word of the opcode table. -/
def decodeTableWord (nbits w : Nat) : Option Instr :=
  match decode (tableWords nbits w) with
  | .command i _ => some i
  | _ => none

end Sys2Proof
end

