-- ==== Sys2Proof/Config.lean ====
section
/-! DEFINITION. What is fixed for one machine: the implementation parameters of 00_scope.md R8 at their stated
defaults, the configuration functions of R12, and the values the spec leaves open. The last two are constants
without a body: nothing can be proved of their values, so a claim holds whatever they are. -/

namespace Sys2Proof.Config

/-! ### Implementation parameters (00_scope.md R8) -/

/-- `HARD_CAP`: the concurrent-voice count above which releasing voices are faded. -/
def hardCap : Nat := 16
/-- `XF_RETRIG_S`: crossfade time of a mono or legato retrigger, in seconds. -/
def xfRetrigS : Decimal := ⟨5, 1000⟩
/-- `XF_STEAL_S`: crossfade time of a steal or of the reuse of a fading voice, in seconds. -/
def xfStealS : Decimal := ⟨1, 1000⟩
/-- `FADE_CAP_S`: length of a hard-cap fade, in seconds. -/
def fadeCapS : Decimal := ⟨1, 1000⟩
/-- `VEL_TAU_S`, which is `PW_TAU_S` too: both smoothers use the one coefficient `kS` (48_voice.md R451, R455). -/
def smoothTauS : Decimal := ⟨5, 1000⟩
/-- `WT_K0`: harmonics kept by mip level 0. -/
def wtK0 : Nat := 512
/-- `WT_LEN`: samples in a wavetable. -/
def wtLen : Nat := 2048
/-- `UNI_MAX_CENTS`: unison detune at 100 % spread. -/
def uniMaxCents : Decimal := ⟨50, 1⟩
/-- `FC_MIN`: lowest filter cutoff, in Hz. -/
def fcMin : Decimal := ⟨20, 1⟩
/-- `FC_MAX_RATIO`: highest filter cutoff as a fraction of the sample rate. -/
def fcMaxRatio : Decimal := ⟨45, 100⟩
/-- `SAT_T`: filter saturation threshold. -/
def satT : Decimal := ⟨2, 1⟩
/-- `FENV_OCT`: octaves of cutoff at full filter-envelope depth. -/
def fenvOct : Decimal := ⟨4, 1⟩
/-- `VEL_TIME_K`: the velocity share of the envelope-time scaling. -/
def velTimeK : Decimal := ⟨9, 10⟩
/-- `ENV_RATIO_A`: attack overshoot ratio. -/
def envRatioA : Decimal := ⟨3, 10⟩
/-- `ENV_RATIO_DR`: decay and release overshoot ratio. -/
def envRatioDR : Decimal := ⟨1, 10000⟩
/-- `ENV_IDLE`: the level at which a release ends. -/
def envIdle : Decimal := ⟨1, 10000⟩
/-- `DENORM_T`: filter states below this magnitude are cleared. -/
def denormT : Decimal := ⟨1, 1000000000000000000⟩
/-- `NSTACK`: capacity of the note stack. -/
def nStack : Nat := 16
/-- `FS_MIN`: lowest accepted sample rate, in Hz. -/
def fsMin : Decimal := ⟨8000, 1⟩
/-- `FS_MAX`: highest accepted sample rate, in Hz. -/
def fsMax : Decimal := ⟨384000, 1⟩
/-- `MAX_BLOCK`: largest accepted block size, in frames. -/
def maxBlock : Nat := 4096

/-! ### Configuration functions (00_scope.md R12): total functions of which nothing is assumed -/

/-- `Sin`. -/
opaque sin : F64 → F64
/-- `Cos`. -/
opaque cos : F64 → F64
/-- `Tan`. -/
opaque tan : F64 → F64
/-- `Tanh`. -/
opaque tanh : F64 → F64
/-- `Exp`. -/
opaque exp : F64 → F64
/-- `Ln`. -/
opaque ln : F64 → F64
/-- `Exp2`. -/
opaque exp2 : F64 → F64
/-- `Log2`, but for its value at 0, which R12 states (`F64.log2`). -/
opaque log2 : F64 → F64
/-- `Pow`. -/
opaque pow : F64 → F64 → F64

/-! ### Free values: results the spec does not state (notes/assumptions/3.md to 6.md) -/

/-- Sign and payload of the NaN an operation on these operands gives: R15 says only that it is a NaN. -/
opaque nanBits : F64 → F64 → BitVec 52
/-- `max` of two operands of which one is a NaN: R11 states no result. -/
opaque maxOfNaN : F64 → F64 → F64
/-- `min` of two operands of which one is a NaN: R11 states no result. -/
opaque minOfNaN : F64 → F64 → F64
/-- Whether `max` of two zeros of unlike sign is the first of them. -/
opaque pickMaxZero : F64 → F64 → Bool
/-- Whether `min` of two zeros of unlike sign is the first of them. -/
opaque pickMinZero : F64 → F64 → Bool
/-- The integer that `floor` of a NaN or an infinity gives where a rule goes on with an integer. -/
opaque intOfNonFinite : F64 → Int
/-- Whether a NaN level ranks before another level in a search for the lowest. -/
opaque nanRanksBefore : F64 → F64 → Bool

end Sys2Proof.Config
end

