-- ==== Sys2Proof/Machine/Float.lean ====
section
/-! DEFINITION. Binary64 arithmetic as 00_scope.md R11 and R15 give it: one correctly rounded operation at a time,
round to nearest even, with every subnormal operand and result taken as a zero of its sign. A finite value is
unpacked to an exact `m * 2^e`, the result is computed exactly, and `F64.round` rounds it once. -/

namespace Sys2Proof.F64

/-! ### Fields and classes -/

/-- The sign bit. -/
def sign (x : F64) : Bool := x.bits.msb

/-- The 63 bits below the sign: exponent field and fraction. -/
def magBits (x : F64) : Nat := x.bits.toNat % 2 ^ 63

/-- The biased exponent field, 0 to 2047. -/
def expField (x : F64) : Nat := x.magBits / 2 ^ 52

/-- The fraction field. -/
def fracField (x : F64) : Nat := x.magBits % 2 ^ 52

/-- The magnitude pattern of infinity; every finite magnitude pattern lies below it. -/
def infMag : Nat := 2047 * 2 ^ 52

/-- Exponent field all ones and a nonzero fraction. -/
def isNaN (x : F64) : Bool := decide (infMag < x.magBits)

/-- `isFinite` of 00_scope.md R13: neither NaN nor an infinity. -/
def isFinite (x : F64) : Bool := decide (x.magBits < infMag)

/-- An infinity of either sign. -/
def isInf (x : F64) : Bool := decide (x.magBits = infMag)

/-- A zero as an operation reads it: a zero, or a subnormal, which R15 reads as one. -/
def isZero (x : F64) : Bool := decide (x.magBits < 2 ^ 52)

/-- The datum with the given sign and magnitude pattern. -/
def ofMag (s : Bool) (mag : Nat) : F64 := ⟨BitVec.ofNat 64 ((if s then 2 ^ 63 else 0) + mag)⟩

/-- The zero of the given sign. -/
def zeroOf (s : Bool) : F64 := ofMag s 0

/-- `+0.0`. -/
def zero : F64 := ⟨0⟩

/-- The infinity of the given sign. -/
def infOf (s : Bool) : F64 := ofMag s infMag

/-- The NaN that an operation on `a` and `b` gives: quiet, its sign and payload free. -/
def nanOf (a b : F64) : F64 :=
  let free := (Config.nanBits a b).toNat
  ofMag (decide (2 ^ 51 ≤ free)) (infMag + 2 ^ 51 + free % 2 ^ 51)

/-- A subnormal read as a zero of its sign; every other datum as it is (00_scope.md R15). -/
def daz (x : F64) : F64 := if x.isZero then zeroOf x.sign else x

/-- Sign change. -/
def negate (x : F64) : F64 := if x.isZero then zeroOf (!x.sign) else ofMag (!x.sign) x.magBits

/-- `|x|`. -/
def abs (x : F64) : F64 := if x.isZero then zero else ofMag false x.magBits

/-! ### Rounding -/

/-- `num * 2^e / den` as a quotient of naturals. -/
def scaled (num den : Nat) (e : Int) : Nat × Nat :=
  if 0 ≤ e then (num * 2 ^ e.toNat, den) else (num, den * 2 ^ (-e).toNat)

/-- The exponent of the last place for a positive `num / den * 2^e` rounded to 53 bits, never below that of the
subnormal range. -/
def lastPlace (num den : Nat) (e : Int) : Int :=
  let l : Int := (Nat.log2 num : Int) - (Nat.log2 den : Int)
  let below := decide ((scaled num den (-l)).1 < (scaled num den (-l)).2)
  max (l + e - 52 - (if below then 1 else 0)) (-1074)

/-- The nearest natural to `num / den`, ties to even. -/
def nearestEven (num den : Nat) : Nat :=
  let q := num / den
  let r := num % den
  if den < 2 * r ∨ (2 * r = den ∧ q % 2 = 1) then q + 1 else q

/-- The binary64 nearest to `num / den * 2^e` with the given sign: overflow to infinity, a subnormal result
replaced by a zero (00_scope.md R11, R15). -/
def round (s : Bool) (num den : Nat) (e : Int) : F64 :=
  if num = 0 then zeroOf s else
  let p := lastPlace num den e
  let nd := scaled num den (e - p)
  let q := nearestEven nd.1 nd.2
  if q < 2 ^ 52 then zeroOf s else
  let mag := (p + 1074).toNat * 2 ^ 52 + q
  if infMag ≤ mag then infOf s else ofMag s mag

/-! ### Exact values -/

/-- The significand of a finite datum: 0 for a zero or a subnormal. -/
def sig (x : F64) : Nat := if x.isZero then 0 else 2 ^ 52 + x.fracField

/-- The exponent that goes with `sig`. -/
def expo (x : F64) : Int := if x.isZero then 0 else (x.expField : Int) - 1075

/-- The signed significand. -/
def sigInt (x : F64) : Int := if x.sign then -(x.sig : Int) else (x.sig : Int)

/-- The binary64 nearest to an integer; exact up to 53 bits (00_scope.md R11). -/
def int (n : Int) : F64 := round (decide (n < 0)) n.natAbs 1 0

/-- The binary64 nearest to a natural number. -/
def nat (n : Nat) : F64 := round false n 1 0

/-- The binary64 nearest to a decimal literal (00_scope.md R11). -/
def lit (d : Decimal) : F64 := round (decide (d.num < 0)) d.num.natAbs d.den 0

/-- `PI`, the binary64 value nearest to pi (00_scope.md R11). -/
def pi : F64 := ⟨0x400921FB54442D18⟩

/-- `2^n` for a normal exponent. -/
def pow2 (n : Int) : F64 := round false 1 1 n

/-! ### The operations of 00_scope.md R11 -/

/-- `a + b`. -/
def add (a b : F64) : F64 :=
  if a.isNaN || b.isNaN then nanOf a b
  else if a.isInf then (if b.isInf && (a.sign != b.sign) then nanOf a b else a)
  else if b.isInf then b
  else if a.isZero && b.isZero then zeroOf (a.sign && b.sign)
  else if a.isZero then b
  else if b.isZero then a
  else
    let e := min a.expo b.expo
    let n : Int := a.sigInt * 2 ^ (a.expo - e).toNat + b.sigInt * 2 ^ (b.expo - e).toNat
    round (decide (n < 0)) n.natAbs 1 e

/-- `a - b`. -/
def sub (a b : F64) : F64 := if a.isNaN || b.isNaN then nanOf a b else a.add b.negate

/-- `a * b`. -/
def mul (a b : F64) : F64 :=
  let s := a.sign != b.sign
  if a.isNaN || b.isNaN then nanOf a b
  else if a.isInf || b.isInf then (if a.isZero || b.isZero then nanOf a b else infOf s)
  else round s (a.sig * b.sig) 1 (a.expo + b.expo)

/-- `a / b`. -/
def div (a b : F64) : F64 :=
  let s := a.sign != b.sign
  if a.isNaN || b.isNaN then nanOf a b
  else if a.isInf then (if b.isInf then nanOf a b else infOf s)
  else if b.isInf then zeroOf s
  else if b.isZero then (if a.isZero then nanOf a b else infOf s)
  else round s a.sig b.sig (a.expo - b.expo)

/-- The integer square root, built bit by bit from bit `k` down. -/
def isqrt (n : Nat) : Nat → Nat → Nat
  | 0, r => r
  | k + 1, r => isqrt n k (if (r + 2 ^ k) * (r + 2 ^ k) ≤ n then r + 2 ^ k else r)

/-- `Sqrt a`, correctly rounded: the root of a significand widened to at least 108 bits, with one sticky bit. -/
def sqrt (a : F64) : F64 :=
  if a.isNaN then nanOf a a
  else if a.isZero then zeroOf a.sign
  else if a.sign then nanOf a a
  else if a.isInf then a
  else
    let w : Nat := if a.expo % 2 = 0 then 56 else 57
    let n := a.sig * 2 ^ w
    let r := isqrt n 56 0
    round false (2 * r + (if r * r = n then 0 else 1)) 1 ((a.expo - w) / 2 - 1)

/-! ### Comparisons -/

/-- The place of a datum that is not a NaN in the order of the reals; both zeros are 0. -/
def key (x : F64) : Int :=
  if x.isZero then 0 else if x.sign then -(x.magBits : Int) else (x.magBits : Int)

/-- `a < b`: false when either is a NaN. -/
def lt (a b : F64) : Bool := !a.isNaN && !b.isNaN && decide (a.key < b.key)

/-- `a ≤ b`: false when either is a NaN. -/
def le (a b : F64) : Bool := !a.isNaN && !b.isNaN && decide (a.key ≤ b.key)

/-- `a = b` as numbers: false when either is a NaN, true of two zeros. -/
def eq (a b : F64) : Bool := !a.isNaN && !b.isNaN && decide (a.key = b.key)

/-- `max(a, b)`. With a NaN the result is free; of two zeros of unlike sign the choice is. -/
def max (a b : F64) : F64 :=
  if a.isNaN || b.isNaN then (Config.maxOfNaN a b).daz
  else if a.lt b then b.daz
  else if b.lt a then a.daz
  else if a.daz = b.daz || Config.pickMaxZero a b then a.daz else b.daz

/-- `min(a, b)`. With a NaN the result is free; of two zeros of unlike sign the choice is. -/
def min (a b : F64) : F64 :=
  if a.isNaN || b.isNaN then (Config.minOfNaN a b).daz
  else if a.lt b then a.daz
  else if b.lt a then b.daz
  else if a.daz = b.daz || Config.pickMinZero a b then a.daz else b.daz

/-- `clamp(x, lo, hi)` of 00_scope.md R13. -/
def clamp (x lo hi : F64) : F64 := (x.max lo).min hi

/-! ### Integers -/

/-- The floor of a finite datum, an integer. -/
def floorFinite (x : F64) : Int :=
  if 0 ≤ x.expo then x.sigInt * 2 ^ x.expo.toNat else x.sigInt / 2 ^ (-x.expo).toNat

/-- `floor(x)` where a rule goes on with an integer. -/
def floorInt (x : F64) : Int := if x.isFinite then x.floorFinite else Config.intOfNonFinite x

/-- `floor(x)` as a natural number, for rules whose argument is never negative. -/
def floorNat (x : F64) : Nat := x.floorInt.toNat

/-- `floor(x)` as a binary64: exact (00_scope.md R11). -/
def floor (x : F64) : F64 :=
  if x.isNaN then nanOf x x
  else if x.isInf then x
  else if x.isZero then zeroOf x.sign
  else int x.floorFinite

/-- `frac(x) = x - floor(x)` (44_oscillator.md R324). -/
def frac (x : F64) : F64 := x.sub x.floor

/-- `rnd(x) = floor(x + 0.5)` (00_scope.md R13). -/
def rnd (x : F64) : Int := (x.add (lit ⟨1, 2⟩)).floorInt

/-! ### Configuration functions, as operations of the block: subnormals are flushed on both sides (R12, R15) -/

/-- `Sin x`. -/
def sin (x : F64) : F64 := (Config.sin x.daz).daz
/-- `Cos x`. -/
def cos (x : F64) : F64 := (Config.cos x.daz).daz
/-- `Tan x`. -/
def tan (x : F64) : F64 := (Config.tan x.daz).daz
/-- `Tanh x`. -/
def tanh (x : F64) : F64 := (Config.tanh x.daz).daz
/-- `Exp x`. -/
def exp (x : F64) : F64 := (Config.exp x.daz).daz
/-- `Ln x`. -/
def ln (x : F64) : F64 := (Config.ln x.daz).daz
/-- `Exp2 x`. -/
def exp2 (x : F64) : F64 := (Config.exp2 x.daz).daz
/-- `Log2 x`; `Log2(0)` is minus infinity (00_scope.md R12). -/
def log2 (x : F64) : F64 := if x.isZero then infOf true else (Config.log2 x.daz).daz
/-- `Pow(x, y)`. -/
def pow (x y : F64) : F64 := (Config.pow x.daz y.daz).daz
/-- `Pow10(x) = Pow(10, x)` (00_scope.md R12). -/
def pow10 (x : F64) : F64 := pow (int 10) x

/-- `TWO_PI`, which is exact. -/
def twoPi : F64 := (int 2).mul pi
/-- `FOUR_PI`, which is exact. -/
def fourPi : F64 := (int 4).mul pi
/-- `0.5`. -/
def half : F64 := lit ⟨1, 2⟩
/-- `1.0`. -/
def one : F64 := int 1

end Sys2Proof.F64
end

