-- ==== Sys2Proof/Machine/Types.lean ====
section
/-! DEFINITION. The records that the state is made of, with the field names of 10_state.md. -/

namespace Sys2Proof.Machine

/-- `G.voiceMode` (10_state.md R31). -/
inductive VoiceMode where
  | poly | mono | legato
  deriving DecidableEq, Repr

/-- The phases of an envelope (10_state.md R51). -/
inductive EnvPhase where
  | idle | attack | decay | sustain | release
  deriving DecidableEq, Repr

/-- The two main oscillators, o = 1 and o = 2 (10_state.md R40). -/
inductive OscId where
  | one | two
  deriving DecidableEq, Repr

/-- The two envelope instances (46_envelope.md R390). -/
inductive EnvId where
  | amp | filt
  deriving DecidableEq, Repr

/-- The registers of one oscillator (10_state.md R40, offsets 0x0 to 0xD). -/
inductive OscReg where
  | wave | oct | detune | level | pan | uniN | uniDetune | uniWidth | uniBlend | pw | fmCoarse | fmFine | fmDepth | wtMorph
  deriving DecidableEq, Repr

/-- The registers of one envelope: attack, decay, sustain, release and velocity sensitivity, under the names of
46_envelope.md R390 (10_state.md R40). -/
inductive EnvReg where
  | tA | tD | sdB | tR | sens
  deriving DecidableEq, Repr

/-- The 50 parameter registers by name (10_state.md R40). -/
inductive ParamReg where
  | osc (o : OscId) (r : OscReg)
  | subWave | subOct | subLevel | subPan | subDirect
  | filterEnable | filterType | cutoff | res | fenvDepth
  | env (e : EnvId) (r : EnvReg)
  | glide | sync
  deriving DecidableEq, Repr

/-- The kinds of conversion a register's write makes (10_state.md R40). -/
inductive ParamKind where
  | real | int | enum | bool
  deriving DecidableEq, Repr

/-- The seven waveforms (44_oscillator.md R322). -/
inductive Waveform where
  | sine | saw | square | triangle | pulse | fm | wavetable
  deriving DecidableEq, Repr

/-- The values of one oscillator's registers. -/
structure OscParams where
  wave : F64
  oct : F64
  detune : F64
  level : F64
  pan : F64
  uniN : F64
  uniDetune : F64
  uniWidth : F64
  uniBlend : F64
  pw : F64
  fmCoarse : F64
  fmFine : F64
  fmDepth : F64
  wtMorph : F64
  deriving DecidableEq, Repr

/-- The values of one envelope's registers. -/
structure EnvParams where
  tA : F64
  tD : F64
  sdB : F64
  tR : F64
  sens : F64
  deriving DecidableEq, Repr

/-- The parameter register file `P` (10_state.md R40). -/
structure Params where
  osc1 : OscParams
  osc2 : OscParams
  subWave : F64
  subOct : F64
  subLevel : F64
  subPan : F64
  subDirect : F64
  filterEnable : F64
  filterType : F64
  cutoff : F64
  res : F64
  fenvDepth : F64
  amp : EnvParams
  filt : EnvParams
  glide : F64
  sync : F64
  deriving DecidableEq, Repr

/-- An envelope record (10_state.md R51). -/
structure Env where
  phase : EnvPhase
  level : F64
  floor : F64
  floorRem : Nat
  floorStep : F64
  deriving DecidableEq, Repr

/-- The phases of one unison copy: `ph[u]`, `wt[u]` and `fm[u]` (10_state.md R50, 44_oscillator.md R320). -/
structure Copy where
  ph : Phase
  wt : F64
  fm : Phase
  deriving DecidableEq, Repr

/-- One oscillator of a voice: its 8 copies and its smoothed pulse width (10_state.md R50). -/
structure OscState where
  copies : Vector Copy 8
  pw : F64
  deriving DecidableEq, Repr

/-- The two integrator states of one filter (10_state.md R50). -/
structure Svf where
  ic1 : F64
  ic2 : F64
  deriving DecidableEq, Repr

/-- A voice slot (10_state.md R50). -/
structure Voice where
  note : Nat
  velRaw : Nat
  velT : F64
  vel : F64
  velTgt : F64
  pitch : F64
  pitchTgt : F64
  glideRem : Nat
  glideStep : F64
  amp : Env
  filt : Env
  osc1 : OscState
  osc2 : OscState
  subPh : Phase
  svfL : Svf
  svfR : Svf
  isReleasing : Bool
  forceRecycle : Bool
  fading : Bool
  fadeRem : Nat
  fadeLen : Nat
  deriving DecidableEq, Repr

/-- The global state `G` (10_state.md R31). -/
structure Global where
  configured : Bool
  fs : F64
  blockSize : Nat
  voiceMode : VoiceMode
  relMul : Nat
  /-- The note stack, oldest first. -/
  stack : List Nat
  deriving DecidableEq, Repr

/-- The status fields `S` (10_state.md R60). -/
structure Status where
  errCode : BitVec 4
  errCount : BitVec 8
  deriving DecidableEq, Repr

/-- A modulation frame (20_memory.md R100): pitch ratio, cutoff octaves, amplitude gain. -/
structure ModFrame where
  pitchRatio : F64
  cutoffOct : F64
  ampGain : F64
  deriving DecidableEq, Repr

/-- A stereo sample, and an output frame (43_render.md R307). -/
structure Frame where
  l : F64
  r : F64
  deriving DecidableEq, Repr

/-- A voice slot's number: 0 to 31 are the pool, 32 is the mono voice (00_scope.md R9). -/
abbrev Slot := Fin 33

end Sys2Proof.Machine
end

