-- ==== Sys2Proof/Machine/PowerOn.lean ====
section
/-! DEFINITION. The power-on and reset values of 10_state.md (70_reset_and_hazards.md R600). -/

namespace Sys2Proof.Machine

/-- The power-on defaults of one oscillator's registers; only the level differs between the two (10_state.md R40). -/
def OscParams.powerOn (level : F64) : OscParams :=
  { wave := F64.int 1, oct := F64.zero, detune := F64.zero, level := level, pan := F64.zero, uniN := F64.int 1, uniDetune := F64.int 25,
    uniWidth := F64.int 100, uniBlend := F64.int 50, pw := F64.half, fmCoarse := F64.one, fmFine := F64.zero, fmDepth := F64.zero,
    wtMorph := F64.zero }

/-- The power-on defaults of `P` (10_state.md R40). -/
def Params.powerOn : Params :=
  { osc1 := OscParams.powerOn F64.one, osc2 := OscParams.powerOn F64.zero,
    subWave := F64.zero, subOct := F64.int (-1), subLevel := F64.zero, subPan := F64.zero, subDirect := F64.zero,
    filterEnable := F64.one, filterType := F64.zero, cutoff := F64.int 10000, res := F64.zero, fenvDepth := F64.zero,
    amp := { tA := F64.int 10, tD := F64.int 100, sdB := F64.int (-6), tR := F64.int 200, sens := F64.zero },
    filt := { tA := F64.int 10, tD := F64.int 200, sdB := F64.int (-6), tR := F64.int 200, sens := F64.zero },
    glide := F64.zero, sync := F64.zero }

/-- The idle record (10_state.md R51). -/
def Env.idle : Env := { phase := .idle, level := F64.zero, floor := F64.zero, floorRem := 0, floorStep := F64.zero }

/-- The reset value of a copy's phases (10_state.md R50). -/
def Copy.reset : Copy := { ph := 0, wt := F64.zero, fm := 0 }

/-- The reset value of an oscillator of a voice (10_state.md R50). -/
def OscState.reset : OscState := { copies := Vector.replicate 8 Copy.reset, pw := F64.half }

/-- A filter at rest (10_state.md R50). -/
def Svf.reset : Svf := { ic1 := F64.zero, ic2 := F64.zero }

/-- A voice slot with every field at its reset value (10_state.md R50). -/
def Voice.reset : Voice :=
  { note := 0, velRaw := 0, velT := F64.zero, vel := F64.zero, velTgt := F64.zero,
    pitch := F64.zero, pitchTgt := F64.zero, glideRem := 0, glideStep := F64.zero, amp := Env.idle, filt := Env.idle,
    osc1 := OscState.reset, osc2 := OscState.reset, subPh := 0, svfL := Svf.reset, svfR := Svf.reset,
    isReleasing := false, forceRecycle := false, fading := false, fadeRem := 0, fadeLen := 0 }

/-- The global state at power-on (10_state.md R31). -/
def Global.powerOn : Global :=
  { configured := false, fs := F64.zero, blockSize := 0, voiceMode := .poly, relMul := 1, stack := [] }

/-- No error (10_state.md R60). -/
def Status.clear : Status := { errCode := 0, errCount := 0 }

end Sys2Proof.Machine
end

