-- ==== Sys2Proof/Machine/State.lean ====
section
/-! DEFINITION. The state of the block (10_state.md R30), the reasons a step can stop, and the state at power-on. The
wavetable ROM is constant and no field: it is the function `wavetable` (20_memory.md R103, 44_oscillator.md R339). -/

namespace Sys2Proof.Machine

/-- The whole state (10_state.md R30). -/
structure State where
  /-- The global state `G` (R31). -/
  g : Global
  /-- The parameter register file `P` (R40). -/
  p : Params
  /-- The voice slots `V[0..32]` (R50). -/
  v : Vector Voice 33
  /-- The status fields `S` (R60). -/
  s : Status
  /-- Command words that have arrived and are not yet consumed, oldest first (20_memory.md R100). -/
  cmd : List Word
  /-- Position in the command stream: words consumed since power-on, unbounded (R32). -/
  cmdPos : Nat
  /-- Modulation frames that have arrived and are not yet taken, oldest first (20_memory.md R100). -/
  modIn : List ModFrame
  /-- Position in the modulation stream: frames taken since power-on. -/
  modPos : Nat
  /-- Output frames emitted since power-on, oldest first; its length is the position in the output stream. -/
  out : List Frame
  deriving DecidableEq, Repr

/-- Why the block takes no step. Each is a wait of the spec, which ends when the host supplies the missing input: the
state is unchanged, and the same step succeeds once the input is there. None is an error of the block. -/
inductive Fault where
  /-- No command word has arrived: the block is idle between commands (60_exceptions.md R575). Raised by `step`.
  Safe: the block itself does nothing then. -/
  | idle
  /-- A three-word command whose payload has not all arrived (30_encoding.md R133, 70_reset_and_hazards.md R613).
  Raised by `step`. Safe: the spec's own wait. -/
  | awaitPayload
  /-- A RENDER with `modin = 1` and fewer than `nf` modulation frames present (43_render.md R294,
  70_reset_and_hazards.md R613). Raised by RENDER. Safe: the spec's own wait. -/
  | awaitModulation
  deriving DecidableEq, Repr

/-- Why the model gives a command no meaning. -/
inductive Refusal where
  /-- The command is not modelled. Raised by `exec` for an arm without a meaning; no arm is left so. Safe. -/
  | notModelled (mnemonic : String)
  deriving DecidableEq, Repr

/-- The answer of a step of this machine. -/
abbrev Result := Host.Outcome State Fault Refusal

/-- The state at power-on, before any command (70_reset_and_hazards.md R600). That nothing has arrived in the two input
streams is DESIGN CHOICE (log entry 1). -/
def State.reset : State :=
  { g := Global.powerOn, p := Params.powerOn, v := Vector.replicate 33 Voice.reset, s := Status.clear,
    cmd := [], cmdPos := 0, modIn := [], modPos := 0, out := [] }

end Sys2Proof.Machine
end

