-- ==== Sys2Proof/Machine/Operands.lean ====
section
/-! DEFINITION. The parameter register file: indices, kinds and ranges (10_state.md R40), the one read and the one
write of a register, and the conversion of a written value (42_param_write.md R262). -/

namespace Sys2Proof.Machine

/-- Offset of an oscillator register in its set (10_state.md R40). -/
def OscReg.offset : OscReg → Nat
  | .wave => 0x0 | .oct => 0x1 | .detune => 0x2 | .level => 0x3 | .pan => 0x4 | .uniN => 0x5 | .uniDetune => 0x6
  | .uniWidth => 0x7 | .uniBlend => 0x8 | .pw => 0x9 | .fmCoarse => 0xA | .fmFine => 0xB | .fmDepth => 0xC
  | .wtMorph => 0xD

/-- Offset of an envelope register in its set (10_state.md R40). -/
def EnvReg.offset : EnvReg → Nat
  | .tA => 0 | .tD => 1 | .sdB => 2 | .tR => 3 | .sens => 4

/-- The index of a register (10_state.md R40). -/
def ParamReg.index : ParamReg → Nat
  | .osc .one r => 0x00 + r.offset
  | .osc .two r => 0x10 + r.offset
  | .subWave => 0x20 | .subOct => 0x21 | .subLevel => 0x22 | .subPan => 0x23 | .subDirect => 0x24
  | .filterEnable => 0x30 | .filterType => 0x31 | .cutoff => 0x32 | .res => 0x33 | .fenvDepth => 0x34
  | .env .amp r => 0x40 + r.offset
  | .env .filt r => 0x48 + r.offset
  | .glide => 0x50 | .sync => 0x51

/-- The registers of one oscillator, by offset. -/
def OscReg.all : List OscReg :=
  [.wave, .oct, .detune, .level, .pan, .uniN, .uniDetune, .uniWidth, .uniBlend, .pw, .fmCoarse, .fmFine, .fmDepth,
   .wtMorph]

/-- The registers of one envelope, by offset. -/
def EnvReg.all : List EnvReg := [.tA, .tD, .sdB, .tR, .sens]

/-- All 50 registers (10_state.md R40). -/
def ParamReg.all : List ParamReg :=
  OscReg.all.map (.osc .one) ++ OscReg.all.map (.osc .two) ++
  [.subWave, .subOct, .subLevel, .subPan, .subDirect, .filterEnable, .filterType, .cutoff, .res, .fenvDepth] ++
  EnvReg.all.map (.env .amp) ++ EnvReg.all.map (.env .filt) ++ [.glide, .sync]

/-- The register of an index, none where the index is not implemented (42_param_write.md R261). -/
def ParamReg.ofIndex (idx : Nat) : Option ParamReg := ParamReg.all.find? (fun r => decide (r.index = idx))

/-- The kind of an oscillator register (10_state.md R40). -/
def OscReg.kind : OscReg → ParamKind
  | .wave => .enum
  | .oct | .uniN => .int
  | _ => .real

/-- The kind of a register (10_state.md R40). -/
def ParamReg.kind : ParamReg → ParamKind
  | .osc _ r => r.kind
  | .subWave | .filterType => .enum
  | .subOct => .int
  | .subDirect | .filterEnable | .sync => .bool
  | _ => .real

/-- The range of an oscillator register (10_state.md R40). -/
def OscReg.range : OscReg → F64 × F64
  | .wave => (F64.zero, F64.int 6)
  | .oct => (F64.int (-3), F64.int 3)
  | .detune => (F64.int (-100), F64.int 100)
  | .level => (F64.zero, F64.one)
  | .pan => (F64.int (-1), F64.one)
  | .uniN => (F64.one, F64.int 8)
  | .uniDetune | .uniWidth | .uniBlend => (F64.zero, F64.int 100)
  | .pw => (F64.lit ⟨5, 100⟩, F64.lit ⟨95, 100⟩)
  | .fmCoarse => (F64.half, F64.int 16)
  | .fmFine | .fmDepth | .wtMorph => (F64.zero, F64.one)

/-- The range of an envelope register (10_state.md R40, R41). -/
def EnvReg.range : EnvReg → F64 × F64
  | .tA | .tD | .tR => (F64.zero, F64.int 10000)
  | .sdB => (F64.int (-80), F64.zero)
  | .sens => (F64.zero, F64.one)

/-- The range of a register, lowest and highest value (10_state.md R40). -/
def ParamReg.range : ParamReg → F64 × F64
  | .osc _ r => r.range
  | .subWave | .filterType => (F64.zero, F64.int 3)
  | .subOct => (F64.int (-2), F64.zero)
  | .subLevel | .subDirect | .filterEnable | .res | .sync => (F64.zero, F64.one)
  | .subPan | .fenvDepth => (F64.int (-1), F64.one)
  | .cutoff => (F64.int 20, F64.int 20000)
  | .env _ r => r.range
  | .glide => (F64.zero, F64.int 5000)

/-! ### Reading and writing a register -/

/-- The set of oscillator `o`. -/
def Params.osc (p : Params) : OscId → OscParams
  | .one => p.osc1
  | .two => p.osc2

/-- The set of envelope `e`. -/
def Params.env (p : Params) : EnvId → EnvParams
  | .amp => p.amp
  | .filt => p.filt

/-- Read of an oscillator register. -/
def OscParams.get (q : OscParams) : OscReg → F64
  | .wave => q.wave | .oct => q.oct | .detune => q.detune | .level => q.level | .pan => q.pan | .uniN => q.uniN
  | .uniDetune => q.uniDetune | .uniWidth => q.uniWidth | .uniBlend => q.uniBlend | .pw => q.pw
  | .fmCoarse => q.fmCoarse | .fmFine => q.fmFine | .fmDepth => q.fmDepth | .wtMorph => q.wtMorph

/-- Write of an oscillator register. -/
def OscParams.set (q : OscParams) (r : OscReg) (x : F64) : OscParams :=
  match r with
  | .wave => { q with wave := x } | .oct => { q with oct := x } | .detune => { q with detune := x }
  | .level => { q with level := x } | .pan => { q with pan := x } | .uniN => { q with uniN := x }
  | .uniDetune => { q with uniDetune := x } | .uniWidth => { q with uniWidth := x }
  | .uniBlend => { q with uniBlend := x } | .pw => { q with pw := x } | .fmCoarse => { q with fmCoarse := x }
  | .fmFine => { q with fmFine := x } | .fmDepth => { q with fmDepth := x } | .wtMorph => { q with wtMorph := x }

/-- Read of an envelope register. -/
def EnvParams.get (q : EnvParams) : EnvReg → F64
  | .tA => q.tA | .tD => q.tD | .sdB => q.sdB | .tR => q.tR | .sens => q.sens

/-- Write of an envelope register. -/
def EnvParams.set (q : EnvParams) (r : EnvReg) (x : F64) : EnvParams :=
  match r with
  | .tA => { q with tA := x } | .tD => { q with tD := x } | .sdB => { q with sdB := x } | .tR => { q with tR := x }
  | .sens => { q with sens := x }

/-- `P.name` (00_scope.md R13). -/
def Params.get (p : Params) : ParamReg → F64
  | .osc .one r => p.osc1.get r
  | .osc .two r => p.osc2.get r
  | .subWave => p.subWave | .subOct => p.subOct | .subLevel => p.subLevel | .subPan => p.subPan
  | .subDirect => p.subDirect | .filterEnable => p.filterEnable | .filterType => p.filterType
  | .cutoff => p.cutoff | .res => p.res | .fenvDepth => p.fenvDepth
  | .env .amp r => p.amp.get r
  | .env .filt r => p.filt.get r
  | .glide => p.glide | .sync => p.sync

/-- `P.name <- x` (00_scope.md R13): one register, no other. -/
def Params.set (p : Params) (r : ParamReg) (x : F64) : Params :=
  match r with
  | .osc .one r => { p with osc1 := p.osc1.set r x }
  | .osc .two r => { p with osc2 := p.osc2.set r x }
  | .subWave => { p with subWave := x } | .subOct => { p with subOct := x } | .subLevel => { p with subLevel := x }
  | .subPan => { p with subPan := x } | .subDirect => { p with subDirect := x }
  | .filterEnable => { p with filterEnable := x } | .filterType => { p with filterType := x }
  | .cutoff => { p with cutoff := x } | .res => { p with res := x } | .fenvDepth => { p with fenvDepth := x }
  | .env .amp r => { p with amp := p.amp.set r x }
  | .env .filt r => { p with filt := p.filt.set r x }
  | .glide => { p with glide := x } | .sync => { p with sync := x }

/-! ### Conversion of a written value -/

/-- A zero of either sign becomes `+0.0` (the last line of 42_param_write.md R262). -/
def plusZero (y : F64) : F64 := if y.isZero then F64.zero else y

/-- `Convert(kind, x, lo, hi)` (42_param_write.md R262). -/
def convert (kind : ParamKind) (x lo hi : F64) : F64 :=
  plusZero (match kind with
    | .real => (x.max lo).min hi
    | .int | .enum => ((x.add F64.half).floor.max lo).min hi
    | .bool => if F64.half.le x then F64.one else F64.zero)

/-- What a write of `x` stores in register `r` (42_param_write.md R260, R262). -/
def ParamReg.stored (r : ParamReg) (x : F64) : F64 := convert r.kind x.daz r.range.1 r.range.2

/-! ### Registers as the datapath uses them -/

/-- The waveform that `P.wave[o]` selects (44_oscillator.md R322). -/
def waveformOf (x : F64) : Waveform :=
  match x.floorNat with
  | 0 => .sine | 1 => .saw | 2 => .square | 3 => .triangle | 4 => .pulse | 5 => .fm
  | _ => .wavetable

/-- The waveform that `P.subWave` selects (44_oscillator.md R340). -/
def subWaveformOf (x : F64) : Waveform :=
  match x.floorNat with
  | 0 => .sine | 1 => .saw | 2 => .square
  | _ => .triangle

/-- Whether a bool register holds 1 (10_state.md R40). -/
def isOn (x : F64) : Bool := x.eq F64.one

/-- Whether a bool register holds 0 (10_state.md R40). -/
def isOff (x : F64) : Bool := x.eq F64.zero

/-- The number of unison copies, `P.uniN[o]` (45_unison.md R371). -/
def OscParams.copies (q : OscParams) : Nat := q.uniN.floorNat

end Sys2Proof.Machine
end

