-- ==== Sys2Proof/Machine/Flags.lean ====
section
/-! DEFINITION. The predicates on a voice, the active count and the status words: all functions of the state
(10_state.md R55 to R62). -/

namespace Sys2Proof.Machine

/-- Sounding: the amplitude envelope is not Idle (10_state.md R55). -/
def Voice.sounding (w : Voice) : Bool := decide (w.amp.phase ≠ .idle)

/-- Releasing (10_state.md R55). -/
def Voice.releasing (w : Voice) : Bool := w.sounding && w.isReleasing

/-- Busy: sounding and not marked for recycling (10_state.md R56). -/
def Voice.busy (w : Voice) : Bool := w.sounding && !w.forceRecycle

/-- The lifecycle states (10_state.md R58). -/
inductive Lifecycle where
  | free | active | releasing | fading
  deriving DecidableEq, Repr

/-- The lifecycle state of a voice, a function of its fields (10_state.md R58). -/
def Voice.lifecycle (w : Voice) : Lifecycle :=
  if !w.sounding then .free else if w.fading then .fading else if w.isReleasing then .releasing else .active

/-- The effective level `max(level, floor)` (46_envelope.md R400). -/
def Env.eff (e : Env) : F64 := e.level.max e.floor

/-- The pool slots, ascending (00_scope.md R9). -/
def poolSlots : List Slot :=
  [0, 1, 2, 3, 4, 5, 6, 7, 8, 9, 10, 11, 12, 13, 14, 15, 16, 17, 18, 19, 20, 21, 22, 23, 24, 25, 26, 27, 28, 29, 30,
   31]

/-- The mono voice's slot (00_scope.md R9). -/
def monoSlot : Slot := 32

/-- All slots, ascending (43_render.md R297). -/
def allSlots : List Slot := poolSlots ++ [monoSlot]

/-- A voice slot's record. -/
def State.voice (s : State) (i : Slot) : Voice := s.v[i]

/-- `activeCount`: the slots that are sounding, of all 33 (10_state.md R57). -/
def activeCount (v : Vector Voice 33) : Nat := allSlots.countP (fun i => v[i].sounding)

/-- The slots that are fading (49_voice_pool.md R501). -/
def fadingCount (v : Vector Voice 33) : Nat := allSlots.countP (fun i => v[i].fading)

/-- The code of a voice mode (10_state.md R31). -/
def VoiceMode.code : VoiceMode → Nat
  | .poly => 0 | .mono => 1 | .legato => 2

/-- The voice mode of a code (30_encoding.md R138, 41_note_commands.md R227). -/
def VoiceMode.ofCode : Nat → Option VoiceMode
  | 0 => some .poly | 1 => some .mono | 2 => some .legato | _ => none

/-- A flag as a status bit. -/
def bit (b : Bool) : Nat := if b then 1 else 0

/-- STATUS0 (10_state.md R61). Bits [3] and [31:27] read 0. -/
def State.status0 (s : State) : Word :=
  BitVec.ofNat 32 (bit s.g.configured + 2 ^ 1 * bit (decide (s.s.errCode ≠ 0)) + 2 ^ 2 * bit (s.voice monoSlot).busy
    + 2 ^ 4 * s.s.errCode.toNat + 2 ^ 8 * activeCount s.v + 2 ^ 14 * s.g.voiceMode.code
    + 2 ^ 16 * s.s.errCount.toNat + 2 ^ 24 * Nat.log2 s.g.relMul)

/-- A mask of the pool voices: bit `i` is `f` of voice `i`. -/
def poolMask (s : State) (f : Voice → Bool) : Word :=
  BitVec.ofNat 32 (poolSlots.foldr (fun i acc => 2 ^ i.val * bit (f (s.voice i)) + acc) 0)

/-- STATUS1: the busy pool voices (10_state.md R61). -/
def State.status1 (s : State) : Word := poolMask s Voice.busy

/-- STATUS2: the fading pool voices (10_state.md R61). -/
def State.status2 (s : State) : Word := poolMask s Voice.fading

/-- The status port: addresses 3 and above read 0, and a read changes nothing (10_state.md R62). -/
def State.status (s : State) : Nat → Word
  | 0 => s.status0
  | 1 => s.status1
  | 2 => s.status2
  | _ => 0

end Sys2Proof.Machine
end

