-- ==== Sys2Proof/Machine/Ops.lean ====
section
/-! DEFINITION. The operations that the commands share: raising a command error (60_exceptions.md R562), which is the
block's only exception, and the times in samples (00_scope.md R13). There is no memory, no trap entry and no return. -/

namespace Sys2Proof.Machine

/-- The command errors (60_exceptions.md R561). -/
inductive CmdError where
  | illegalOpcode | reservedBits | notConfigured | badOperand | badParamIndex | badValue
  deriving DecidableEq, Repr

/-- The code of a command error (60_exceptions.md R561). -/
def CmdError.code : CmdError → BitVec 4
  | .illegalOpcode => 1 | .reservedBits => 2 | .notConfigured => 3 | .badOperand => 4 | .badParamIndex => 5
  | .badValue => 6

/-- `raise CmdError(code)` on the status fields: the first code is kept, the count saturates (60_exceptions.md
R562). -/
def Status.record (t : Status) (e : CmdError) : Status :=
  { errCode := if t.errCode = 0 then e.code else t.errCode
    errCount := if t.errCount.toNat + 1 ≤ 255 then t.errCount + 1 else 255 }

/-- `raise CmdError(code)`: nothing but the status fields changes (60_exceptions.md R560, R562). -/
def State.raise (s : State) (e : CmdError) : State := { s with s := s.s.record e }

/-- A rejected command: the error is recorded and the block goes on (60_exceptions.md R560). -/
def reject (s : State) (e : CmdError) : Result := .next (s.raise e)

/-- `n` words of the command stream consumed (30_encoding.md R133, 10_state.md R32). -/
def State.consume (s : State) (n : Nat) : State := { s with cmd := s.cmd.drop n, cmdPos := s.cmdPos + n }

/-- A voice slot written. -/
def State.setVoice (s : State) (i : Slot) (w : Voice) : State := { s with v := s.v.set i w }

/-- All voice slots written. -/
def State.setVoices (s : State) (v : Vector Voice 33) : State := { s with v := v }

/-- Every voice slot changed by a function of its record. -/
def mapVoices (f : Voice → Voice) (v : Vector Voice 33) : Vector Voice 33 := Vector.ofFn (fun i => f v[i])

/-- `max(1, n)` as a sample count. -/
def atLeastOne (n : Int) : Nat := (max 1 n).toNat

/-- `nS(t_s)`: a time in seconds as a sample count (00_scope.md R13). -/
def nS (fs t : F64) : Nat := atLeastOne (t.mul fs).rnd

/-- `nSms(t_ms)`: a time in milliseconds as a sample count (00_scope.md R13). -/
def nSms (fs t : F64) : Nat := atLeastOne ((t.mul fs).div (F64.int 1000)).rnd

end Sys2Proof.Machine
end

