-- ==== Sys2Proof/Machine/Envelope.lean ====
section
/-! DEFINITION. The ADSR envelope generator (46_envelope.md). -/

namespace Sys2Proof.Machine

/-- `coef(n, r)`: the coefficient of a segment of `n` samples with overshoot ratio `r` (46_envelope.md R392). -/
def coef (n : Nat) (r : F64) : F64 := ((((F64.one.add r).div r).ln.div (F64.nat n)).negate).exp

/-- `scale(t)`: a segment time shortened by velocity (46_envelope.md R393). -/
def scaleTime (sens velT t : F64) : F64 := t.mul (F64.one.sub ((sens.mul velT).mul (F64.lit Config.velTimeK)))

/-- `nA` (46_envelope.md R393). -/
def attackLen (fs velT : F64) (q : EnvParams) : Nat := nSms fs (scaleTime q.sens velT q.tA)

/-- `nD` (46_envelope.md R393). -/
def decayLen (fs velT : F64) (q : EnvParams) : Nat := nSms fs (scaleTime q.sens velT q.tD)

/-- `nR`: the release multiplier divides the release time (46_envelope.md R393). -/
def releaseLen (fs velT : F64) (relMul : Nat) (q : EnvParams) : Nat :=
  nSms fs ((scaleTime q.sens velT q.tR).div (F64.nat relMul))

/-- The sustain level `S` (46_envelope.md R402). -/
def sustainLevel (q : EnvParams) : F64 := (q.sdB.div (F64.int 20)).pow10

/-- One step toward `target` with coefficient `c`. -/
def approach (target level c : F64) : F64 := (target.mul (F64.one.sub c)).add (level.mul c)

/-- The attack step (46_envelope.md R403). -/
def attackStep (fs velT : F64) (q : EnvParams) (e : Env) : Env :=
  let r := F64.lit Config.envRatioA
  let level := approach (F64.one.add r) e.level (coef (attackLen fs velT q) r)
  if F64.one.le level then { e with level := F64.one, phase := .decay } else { e with level := level }

/-- The decay step (46_envelope.md R404). -/
def decayStep (fs velT : F64) (q : EnvParams) (e : Env) : Env :=
  let r := F64.lit Config.envRatioDR
  let sus := sustainLevel q
  let level := approach (sus.sub r) e.level (coef (decayLen fs velT q) r)
  if level.le sus then { e with level := sus, phase := .sustain } else { e with level := level }

/-- The release step (46_envelope.md R406). -/
def releaseStep (fs velT : F64) (relMul : Nat) (q : EnvParams) (e : Env) : Env :=
  let r := F64.lit Config.envRatioDR
  let level := approach r.negate e.level (coef (releaseLen fs velT relMul q) r)
  if level.le (F64.lit Config.envIdle) then { e with level := F64.zero, phase := .idle } else { e with level := level }

/-- The segment step of the current phase (46_envelope.md R403 to R407). -/
def segmentStep (fs velT : F64) (relMul : Nat) (q : EnvParams) (e : Env) : Env :=
  match e.phase with
  | .idle => e
  | .attack => attackStep fs velT q e
  | .decay => decayStep fs velT q e
  | .sustain => { e with level := sustainLevel q }
  | .release => releaseStep fs velT relMul q e

/-- The floor step (46_envelope.md R408). -/
def floorStep (e : Env) : Env :=
  if 0 < e.floorRem then
    { e with floor := if e.floorRem = 1 then F64.zero else e.floor.sub e.floorStep, floorRem := e.floorRem - 1 }
  else e

/-- `EnvStep` without its answer, which is `Env.eff` of the record after it (48_voice.md R450). -/
def envStep (fs velT : F64) (relMul : Nat) (q : EnvParams) (e : Env) : Env :=
  floorStep (segmentStep fs velT relMul q e)

/-- `EnvTrigger(env, cap, nX)` (46_envelope.md R409). -/
def envTrigger (cap : F64) (nX : Nat) : Env :=
  if F64.zero.lt cap then
    { phase := .attack, level := F64.zero, floor := cap, floorRem := nX, floorStep := cap.div (F64.nat nX) }
  else { phase := .attack, level := F64.zero, floor := F64.zero, floorRem := 0, floorStep := F64.zero }

/-- `EnvRelease(env)` (46_envelope.md R410). -/
def envRelease (e : Env) : Env :=
  if e.phase = .idle then e
  else { phase := .release, level := e.eff, floor := F64.zero, floorRem := 0, floorStep := F64.zero }

end Sys2Proof.Machine
end

