-- ==== Sys2Proof/Machine/Filter.lean ====
section
/-! DEFINITION. The state-variable resonant filter (47_filter.md). -/

namespace Sys2Proof.Machine

/-- The coefficients of a frame, used by both channels (47_filter.md R430, R433). -/
structure FilterCoefs where
  k : F64
  a1 : F64
  a2 : F64
  a3 : F64
  deriving DecidableEq, Repr

/-- The cutoff `fc` (47_filter.md R431). -/
def cutoffHz (fs : F64) (p : Params) (fEff co : F64) : F64 :=
  let oct := ((p.fenvDepth.mul (F64.lit Config.fenvOct)).mul fEff).add co
  ((p.cutoff.mul oct.exp2).max (F64.lit Config.fcMin)).min ((F64.lit Config.fcMaxRatio).mul fs)

/-- `Q` (47_filter.md R432). -/
def resonanceQ (p : Params) : F64 := F64.half.mul (F64.pow (F64.int 50) p.res)

/-- The coefficients (47_filter.md R433). -/
def filterCoefs (fs : F64) (p : Params) (fEff co : F64) : FilterCoefs :=
  let g := ((F64.pi.mul (cutoffHz fs p fEff co)).div fs).tan
  let k := F64.one.div (resonanceQ p)
  let a1 := F64.one.div (F64.one.add (g.mul (g.add k)))
  let a2 := g.mul a1
  { k := k, a1 := a1, a2 := a2, a3 := g.mul a2 }

/-- The tap weights `(mL, mB, mH)` of a filter type (47_filter.md R434). -/
def tapWeights (filterType : F64) : F64 × F64 × F64 :=
  match filterType.floorNat with
  | 0 => (F64.one, F64.zero, F64.zero)
  | 1 => (F64.zero, F64.zero, F64.one)
  | 2 => (F64.zero, F64.one, F64.zero)
  | _ => (F64.one, F64.zero, F64.one)

/-- The mix of the taps (47_filter.md R434). -/
def tapMix (filterType low band high : F64) : F64 :=
  let m := tapWeights filterType
  ((m.1.mul low).add (m.2.1.mul band)).add (m.2.2.mul high)

/-- Output saturation (47_filter.md R437). -/
def saturate (y0 : F64) : F64 :=
  let t := F64.lit Config.satT
  if t.lt y0.abs then
    (F64.int (if F64.zero.lt y0 then 1 else -1)).mul (t.add (y0.abs.sub t).tanh)
  else y0

/-- A state below the flush threshold is cleared (47_filter.md R438). -/
def flushState (x : F64) : F64 := if x.abs.lt (F64.lit Config.denormT) then F64.zero else x

/-- State sanitising (47_filter.md R438). -/
def Svf.sanitise (c : Svf) : Svf :=
  if c.ic1.isFinite && c.ic2.isFinite then { ic1 := flushState c.ic1, ic2 := flushState c.ic2 }
  else { ic1 := F64.zero, ic2 := F64.zero }

/-- One channel on one frame: tick, taps, mix, saturation, state sanitising (47_filter.md R434 to R438). -/
def svfTick (k : FilterCoefs) (filterType : F64) (c : Svf) (x : F64) : Svf × F64 :=
  let v3 := x.sub c.ic2
  let v1 := (k.a1.mul c.ic1).add (k.a2.mul v3)
  let v2 := (c.ic2.add (k.a2.mul c.ic1)).add (k.a3.mul v3)
  let high := (x.sub (k.k.mul v1)).sub v2
  (Svf.sanitise { ic1 := ((F64.int 2).mul v1).sub c.ic1, ic2 := ((F64.int 2).mul v2).sub c.ic2 },
   saturate (tapMix filterType v2 v1 high))

/-- Both channels on one frame (48_voice.md R454); disabled, the filter passes its input and holds its states
(47_filter.md R440). -/
def filterStage (fs : F64) (p : Params) (fEff co : F64) (l r : Svf) (x : Frame) : Svf × Svf × Frame :=
  if isOff p.filterEnable then (l, r, x)
  else
    let k := filterCoefs fs p fEff co
    let outL := svfTick k p.filterType l x.l
    let outR := svfTick k p.filterType r x.r
    (outL.1, outR.1, ⟨outL.2, outR.2⟩)

end Sys2Proof.Machine
end

