-- ==== Sys2Proof/Machine/Wavetable.lean ====
section
/-! DEFINITION. The wavetable ROM: constant contents fixed by the generation rules 44_oscillator.md R331 to R333, as a
function of frame, mip level and sample index (R339 lets a model compute an entry when it is needed). -/

namespace Sys2Proof.Machine

/-- `A_0` to `A_3`: the sine, triangle, square and sawtooth amplitudes of harmonic `k` (44_oscillator.md R331). -/
def basisAmp (basis k : Nat) : F64 :=
  let kk := F64.nat k
  match basis with
  | 0 => if k = 1 then F64.one else F64.zero
  | 1 =>
    if k % 2 = 0 then F64.zero
    else (F64.int (if (k - 1) / 2 % 2 = 0 then 1 else -1)).mul
      (((F64.int 8).div (F64.pi.mul F64.pi)).div (kk.mul kk))
  | 2 => if k % 2 = 0 then F64.zero else ((F64.int 4).div F64.pi).div kk
  | _ => (F64.int (if k % 2 = 1 then 1 else -1)).mul (((F64.int 2).div F64.pi).div kk)

/-- `a_f[k]`: the amplitude of harmonic `k` in morph frame `f` (44_oscillator.md R332). -/
def frameAmp (f k : Nat) : F64 :=
  let uf := (F64.nat f).div (F64.int 5)
  let sb := min uf.floorNat 2
  let wf := uf.sub (F64.nat sb)
  ((F64.one.sub wf).mul (basisAmp sb k)).add (wf.mul (basisAmp (sb + 1) k))

/-- `SIN2048[j]` (44_oscillator.md R333). -/
def sinTable (j : Nat) : F64 := (F64.twoPi.mul ((F64.nat j).div (F64.nat Config.wtLen))).sin

/-- `K_m = 512 >> m`: the harmonics that mip level `m` keeps (44_oscillator.md R333). -/
def mipHarmonics (m : Nat) : Nat := Config.wtK0 / 2 ^ m

/-- `raw[f][m][i]`: the sum over the kept harmonics, from `+0.0`, ascending (44_oscillator.md R333). -/
def wtRaw (f m i : Nat) : F64 :=
  (List.range' 1 (mipHarmonics m)).foldl
    (fun acc k => acc.add ((frameAmp f k).mul (sinTable (k * i % Config.wtLen)))) F64.zero

/-- `peak[f]`: the largest magnitude of the frame's mip-0 table (44_oscillator.md R333). -/
def wtPeak (f : Nat) : F64 :=
  (List.range' 1 (Config.wtLen - 1)).foldl (fun acc i => acc.max (wtRaw f 0 i).abs) (wtRaw f 0 0).abs

/-- `WT[f][m][i]` (44_oscillator.md R333, 20_memory.md R103). -/
def wavetable (f m i : Nat) : F64 := (wtRaw f m i).div (wtPeak f)

end Sys2Proof.Machine
end

