-- ==== Sys2Proof/Machine/Oscillator.lean ====
section
/-! DEFINITION. The oscillator bank: one sample of one copy, and how its phases advance (44_oscillator.md). -/

namespace Sys2Proof.Machine

/-! ### Frequency and step -/

/-- `440 * Exp2(e / 12) * pr`: the frequency of a pitch of `e` semitones above note 69 (44_oscillator.md R321, R340). -/
def tuned (e pr : F64) : F64 := ((F64.int 440).mul (e.div (F64.int 12)).exp2).mul pr

/-- The frequency of a copy with unison detune `cents` (44_oscillator.md R321). -/
def copyFreq (q : OscParams) (pitch pr cents : F64) : F64 :=
  tuned ((((pitch.sub (F64.int 69)).add ((F64.int 12).mul q.oct)).add (q.detune.div (F64.int 100))).add
    (cents.div (F64.int 100))) pr

/-- `dt`: the phase increment in cycles per sample, at most one half (44_oscillator.md R321). -/
def phaseInc (fs f : F64) : F64 := ((f.div fs).max F64.zero).min F64.half

/-- `step`: the fixed-point increment, an integer 0 to `2^31` (44_oscillator.md R323). For a `dt` in [0, 0.5] the bound
takes nothing away; it keeps the free integer of an unordered `dt` in the range the rule states. -/
def phaseStep (dt : F64) : Nat := min (dt.mul (F64.pow2 32)).floorNat (2 ^ 31)

/-- A fixed-point phase or step in cycles: exact (44_oscillator.md R323). -/
def cycles (n : Nat) : F64 := (F64.nat n).mul (F64.pow2 (-32))

/-- `old +u32 step` (44_oscillator.md R323). -/
def advance (ph : Phase) (step : Nat) : Phase := ph + BitVec.ofNat 32 step

/-! ### Step correction -/

/-- The band-limited step residual (44_oscillator.md R324). -/
def blep (t d : F64) : F64 :=
  if d.le F64.zero then F64.zero
  else if t.lt d then
    let x := t.div d
    ((x.add x).sub (x.mul x)).sub F64.one
  else if (F64.one.sub d).lt t then
    let x := (t.sub F64.one).div d
    (((x.mul x).add x).add x).add F64.one
  else F64.zero

/-- The band-limited ramp residual (44_oscillator.md R325). -/
def blamp (t d : F64) : F64 :=
  if d.le F64.zero then F64.zero
  else if t.lt d then
    let y := F64.one.sub (t.div d)
    ((y.mul y).mul y).div (F64.int 6)
  else if (F64.one.sub d).lt t then
    let y := ((t.sub F64.one).div d).add F64.one
    ((y.mul y).mul y).div (F64.int 6)
  else F64.zero

/-! ### Waveforms -/

/-- Sine (44_oscillator.md R329). -/
def sineSample (t : F64) : F64 := (F64.twoPi.mul t).sin

/-- Sawtooth (44_oscillator.md R326). -/
def sawSample (t dq : F64) : F64 := (((F64.int 2).mul t).sub F64.one).sub (blep t dq)

/-- A two-level wave with its falling edge at `w`, corrected at both edges; `t2` is the phase from that edge
(44_oscillator.md R326, R327). -/
def twoLevel (t w t2 dq : F64) : F64 :=
  ((if t.lt w then F64.one else F64.int (-1)).add (blep t dq)).sub (blep t2 dq)

/-- Square (44_oscillator.md R326). -/
def squareSample (t dq : F64) : F64 := twoLevel t F64.half (t.add F64.half).frac dq

/-- Pulse of width `w` (44_oscillator.md R327). -/
def pulseSample (t dq w : F64) : F64 := twoLevel t w (t.add (F64.one.sub w)).frac dq

/-- Triangle (44_oscillator.md R328). -/
def triangleSample (t dq : F64) : F64 :=
  let n := F64.one.sub ((F64.int 4).mul (t.sub F64.half).abs)
  let k := (F64.int 8).mul dq
  (n.add (k.mul (blamp t dq))).sub (k.mul (blamp (t.add F64.half).frac dq))

/-- FM, from the carrier phase `t` and the modulator phase `tm` (44_oscillator.md R330). -/
def fmSample (q : OscParams) (vel t tm : F64) : F64 :=
  ((F64.twoPi.mul t).add (((q.fmDepth.mul vel).mul F64.fourPi).mul (F64.twoPi.mul tm).sin)).sin

/-- `mstep` before its reduction modulo `2^32` (44_oscillator.md R330). -/
def fmStep (q : OscParams) (dq : F64) : Nat :=
  ((dq.mul (q.fmCoarse.mul (F64.one.add q.fmFine))).mul (F64.pow2 32)).floorNat

/-! ### Wavetable read -/

/-- `lerp(a, b, w)` (44_oscillator.md R335). -/
def lerp (a b w : F64) : F64 := a.add ((b.sub a).mul w)

/-- `mipPos` (44_oscillator.md R334). -/
def mipPosition (fs f : F64) : F64 :=
  (((f.mul (F64.int 1024)).div fs).log2.max F64.zero).min (F64.int 7)

/-- The wavetable sample at phase `p` (44_oscillator.md R334, R335). -/
def wtSample (fs f morph p : F64) : F64 :=
  let mipPos := mipPosition fs f
  let m0 := min mipPos.floorNat 7
  let m1 := min (m0 + 1) 7
  let wm := mipPos.sub (F64.nat m0)
  let fp := morph.mul (F64.int 15)
  let f0 := min fp.floorNat 15
  let f1 := min (f0 + 1) 15
  let wfr := fp.sub (F64.nat f0)
  let x := p.mul (F64.nat Config.wtLen)
  let i0 := x.floorNat % Config.wtLen
  let i1 := (i0 + 1) % Config.wtLen
  let wi := x.sub x.floor
  let smp := fun fr m => lerp (wavetable fr m i0) (wavetable fr m i1) wi
  lerp (lerp (smp f0 m0) (smp f1 m0) wfr) (lerp (smp f0 m1) (smp f1 m1) wfr) wm

/-! ### One copy, one frame -/

/-- What one copy gives on one frame: its phases after it, its sample, and whether it finished a cycle. -/
structure CopyFrame where
  copy : Copy
  sample : F64
  wrapped : Bool
  deriving DecidableEq, Repr

/-- A frame of a copy in the fixed-point representation: the sample is computed before the phase advances
(44_oscillator.md R323). -/
def fixedFrame (fs f : F64) (c : Copy) (shape : F64 → F64 → F64) : CopyFrame :=
  let step := phaseStep (phaseInc fs f)
  let new := advance c.ph step
  { copy := { c with ph := new }, sample := shape (cycles c.ph.toNat) (cycles step), wrapped := decide (new < c.ph) }

/-- A frame of an FM copy: carrier and modulator advance (44_oscillator.md R330). -/
def fmFrame (fs f vel : F64) (q : OscParams) (c : Copy) : CopyFrame :=
  let o := fixedFrame fs f c (fun t _ => fmSample q vel t (cycles c.fm.toNat))
  { o with copy := { o.copy with fm := advance c.fm (fmStep q (cycles (phaseStep (phaseInc fs f)))) } }

/-- A frame of a wavetable copy (44_oscillator.md R335). -/
def wtFrame (fs f : F64) (q : OscParams) (c : Copy) : CopyFrame :=
  let next := c.wt.add (phaseInc fs f)
  let wrapped := F64.one.le next
  { copy := { c with wt := if wrapped then next.sub F64.one else next }, sample := wtSample fs f q.wtMorph c.wt,
    wrapped := wrapped }

/-- One frame of one copy at frequency `f`: only the registers of the current waveform advance (44_oscillator.md R320,
R322). `pw` is the voice's smoothed pulse width. -/
def copyFrame (fs f vel pw : F64) (q : OscParams) (c : Copy) : CopyFrame :=
  match waveformOf q.wave with
  | .sine => fixedFrame fs f c (fun t _ => sineSample t)
  | .saw => fixedFrame fs f c sawSample
  | .square => fixedFrame fs f c squareSample
  | .triangle => fixedFrame fs f c triangleSample
  | .pulse => fixedFrame fs f c (fun t dq => pulseSample t dq pw)
  | .fm => fmFrame fs f vel q c
  | .wavetable => wtFrame fs f q c

/-- Oscillator sync: every `ph` and `wt` cleared, the FM phases kept (44_oscillator.md R336). -/
def OscState.synced (o : OscState) : OscState :=
  { o with copies := Vector.ofFn (fun u => { o.copies[u] with ph := 0, wt := F64.zero }) }

/-! ### Sub-oscillator -/

/-- The sample of the sub-oscillator's waveform (44_oscillator.md R340). -/
def subShape (x t dq : F64) : F64 :=
  match subWaveformOf x with
  | .saw => sawSample t dq
  | .square => squareSample t dq
  | .triangle => triangleSample t dq
  | _ => sineSample t

/-- One frame of the sub-oscillator: its sample and its next phase (44_oscillator.md R340). -/
def subFrame (fs pitch pr : F64) (p : Params) (ph : Phase) : F64 × Phase :=
  let f := tuned ((pitch.sub (F64.int 69)).add ((F64.int 12).mul p.subOct)) pr
  let step := phaseStep (phaseInc fs f)
  (subShape p.subWave (cycles ph.toNat) (cycles step), advance ph step)

end Sys2Proof.Machine
end

