-- ==== Sys2Proof/Machine/Unison.lean ====
section
/-! DEFINITION. The unison engine: detune and stereo gains of every copy, a function of the registers alone
(45_unison.md). -/

namespace Sys2Proof.Machine

/-- What the unison engine gives for a copy: its detune in cents and its gains (45_unison.md R370). -/
structure UnisonCopy where
  cents : F64
  gainL : F64
  gainR : F64
  deriving DecidableEq, Repr

/-- The angle of a pan position (45_unison.md R376). -/
def panAngle (pan : F64) : F64 := (pan.add F64.one).mul (F64.pi.div (F64.int 4))

/-- `PanL` (45_unison.md R376). -/
def panL (pan : F64) : F64 := (panAngle pan).cos

/-- `PanR` (45_unison.md R376). -/
def panR (pan : F64) : F64 := (panAngle pan).sin

/-- A copy of weight `wt` at `pan` (45_unison.md R373, R375). -/
def pannedCopy (cents wt pan : F64) : UnisonCopy :=
  { cents := cents, gainL := wt.mul (panL pan), gainR := wt.mul (panR pan) }

/-- A register in percent as a fraction (45_unison.md R371). -/
def percent (x : F64) : F64 := x.div (F64.int 100)

/-- N = 2: copy 0 left and flat, copy 1 right and sharp (45_unison.md R373). -/
def unisonPair (q : OscParams) (u : Nat) : UnisonCopy :=
  let bl := percent q.uniBlend
  let cents := (bl.mul (percent q.uniDetune)).mul (F64.lit Config.uniMaxCents)
  let wt := F64.one.div (F64.int 2).sqrt
  if u = 0 then pannedCopy cents.negate wt bl.negate else pannedCopy cents wt bl

/-- Weight of the centre copy for N of 3 or more, before compensation (45_unison.md R375). -/
def centreWeight (q : OscParams) : F64 := F64.one.sub (percent q.uniBlend)

/-- Weight of each other copy for N of 3 or more, before compensation (45_unison.md R375). -/
def spreadWeight (q : OscParams) (n : Nat) : F64 := (percent q.uniBlend).div (F64.nat (n - 1))

/-- The power compensation `gc` (45_unison.md R375). -/
def powerComp (q : OscParams) (n : Nat) : F64 :=
  let wc := centreWeight q
  let ws := spreadWeight q n
  F64.one.div ((wc.mul wc).add ((F64.nat (n - 1)).mul (ws.mul ws))).sqrt

/-- N of 3 or more: copy 0 in the centre, the others alternate in sign with growing magnitude (45_unison.md R374,
R375). -/
def unisonSpread (q : OscParams) (n u : Nat) : UnisonCopy :=
  let gc := powerComp q n
  if u = 0 then pannedCopy F64.zero ((centreWeight q).mul gc) F64.zero
  else
    let sg := F64.int (if u % 2 = 1 then 1 else -1)
    let r := (F64.nat ((u + 1) / 2)).div (F64.nat (n / 2))
    pannedCopy (sg.mul ((r.mul (percent q.uniDetune)).mul (F64.lit Config.uniMaxCents)))
      ((spreadWeight q n).mul gc) (sg.mul (r.mul (percent q.uniWidth)))

/-- The unison values of copy `u` of `n` (45_unison.md R372 to R375). -/
def unison (q : OscParams) (n u : Nat) : UnisonCopy :=
  if n ≤ 1 then { cents := F64.zero, gainL := F64.one, gainR := F64.one }
  else if n = 2 then unisonPair q u
  else unisonSpread q n u

end Sys2Proof.Machine
end

