-- ==== Sys2Proof/Machine/Voice.lean ====
section
/-! DEFINITION. The voice signal chain: one frame of one voice, pitch and glide, and the operations the allocator calls
on a voice (48_voice.md). Each is a function of the voice, the registers and the globals it reads. -/

namespace Sys2Proof.Machine

/-! ### Pitch, glide and smoothing -/

/-- `GlideStep` (48_voice.md R460). -/
def Voice.glideFrame (w : Voice) : Voice :=
  if 0 < w.glideRem then
    { w with pitch := if w.glideRem = 1 then w.pitchTgt else w.pitch.add w.glideStep, glideRem := w.glideRem - 1 }
  else w

/-- `SetPitch(v, target, mayGlide)` (48_voice.md R461). -/
def Voice.setPitch (fs : F64) (p : Params) (target : F64) (mayGlide : Bool) (w : Voice) : Voice :=
  if mayGlide && F64.zero.lt p.glide then
    let n := nSms fs p.glide
    { w with pitchTgt := target, glideStep := (target.sub w.pitch).div (F64.nat n), glideRem := n }
  else { w with pitch := target, pitchTgt := target, glideRem := 0, glideStep := F64.zero }

/-- `kS`: the one-pole coefficient of both smoothers (48_voice.md R451, R455). -/
def smoothCoef (fs : F64) : F64 :=
  F64.one.sub ((F64.int (-1)).div ((F64.lit Config.smoothTauS).mul fs)).exp

/-- One step of a smoother. -/
def smooth (kS x target : F64) : F64 := x.add ((target.sub x).mul kS)

/-- `SmoothStep`: velocity, then both pulse widths (48_voice.md R451, R455). -/
def Voice.smoothFrame (fs : F64) (p : Params) (w : Voice) : Voice :=
  let kS := smoothCoef fs
  { w with
    vel := smooth kS w.vel w.velTgt
    osc1 := { w.osc1 with pw := smooth kS w.osc1.pw p.osc1.pw }
    osc2 := { w.osc2 with pw := smooth kS w.osc2.pw p.osc2.pw } }

/-! ### Oscillators and mix -/

/-- The numbers of the copies, ascending. -/
def copySlots : List (Fin 8) := [0, 1, 2, 3, 4, 5, 6, 7]

/-- What one oscillator gives on one frame: its state after it, its two channel sums, and whether copy 0 finished a
cycle. -/
structure OscFrame where
  osc : OscState
  accL : F64
  accR : F64
  wrapped : Bool
  deriving DecidableEq, Repr

/-- One frame of every copy: those below `uniN` run, the others hold (44_oscillator.md R320). -/
def copyFrames (fs pitch pr vel : F64) (q : OscParams) (o : OscState) : Vector CopyFrame 8 :=
  Vector.ofFn (fun u =>
    if u.val < q.copies then
      copyFrame fs (copyFreq q pitch pr (unison q q.copies u).cents) vel o.pw q o.copies[u]
    else { copy := o.copies[u], sample := F64.zero, wrapped := false })

/-- The sum over the running copies of gain times sample, ascending from `+0.0` (48_voice.md R452, R453). -/
def sumCopies (q : OscParams) (fr : Vector CopyFrame 8) (gain : UnisonCopy → F64) : F64 :=
  copySlots.foldl
    (fun acc (u : Fin 8) => if u.val < q.copies then acc.add ((gain (unison q q.copies u)).mul fr[u].sample) else acc) F64.zero

/-- One frame of one oscillator (48_voice.md R452). -/
def oscFrame (fs pitch pr vel : F64) (q : OscParams) (o : OscState) : OscFrame :=
  let fr := copyFrames fs pitch pr vel q o
  { osc := { o with copies := Vector.ofFn (fun u => fr[u].copy) },
    accL := sumCopies q fr UnisonCopy.gainL, accR := sumCopies q fr UnisonCopy.gainR, wrapped := fr[0].wrapped }

/-- `min(1, 1 - pan)`: the left side of a balance (48_voice.md R452). -/
def balanceL (pan : F64) : F64 := F64.one.min (F64.one.sub pan)

/-- `min(1, 1 + pan)`: the right side of a balance (48_voice.md R452). -/
def balanceR (pan : F64) : F64 := F64.one.min (F64.one.add pan)

/-- What `OscMix` gives: the voice after it, the filter's input and what bypasses the filter (48_voice.md R452). -/
structure MixOut where
  voice : Voice
  x : Frame
  direct : Frame
  deriving DecidableEq, Repr

/-- `OscMix`: oscillator 1, the sync check, oscillator 2, the sub-oscillator (48_voice.md R452, 44_oscillator.md R336,
R337). -/
def oscMix (fs : F64) (p : Params) (pr : F64) (w : Voice) : MixOut :=
  let o1 := oscFrame fs w.pitch pr w.vel p.osc1 w.osc1
  let start2 := if isOn p.sync && o1.wrapped then w.osc2.synced else w.osc2
  let o2 := oscFrame fs w.pitch pr w.vel p.osc2 start2
  let sub := subFrame fs w.pitch pr p w.subPh
  let oscL := ((p.osc1.level.mul (balanceL p.osc1.pan)).mul o1.accL).add
    ((p.osc2.level.mul (balanceL p.osc2.pan)).mul o2.accL)
  let oscR := ((p.osc1.level.mul (balanceR p.osc1.pan)).mul o1.accR).add
    ((p.osc2.level.mul (balanceR p.osc2.pan)).mul o2.accR)
  let subL := (p.subLevel.mul (balanceL p.subPan)).mul sub.1
  let subR := (p.subLevel.mul (balanceR p.subPan)).mul sub.1
  let w' := { w with osc1 := o1.osc, osc2 := o2.osc, subPh := sub.2 }
  if isOff p.subDirect then
    { voice := w', x := ⟨oscL.add subL, oscR.add subR⟩, direct := ⟨F64.zero, F64.zero⟩ }
  else { voice := w', x := ⟨oscL, oscR⟩, direct := ⟨subL, subR⟩ }

/-! ### Amplitude, sanitising, end of the frame -/

/-- The hard-cap fade gain, 1 for a voice that is not fading (48_voice.md R457, R470). -/
def Voice.fadeGain (w : Voice) : F64 := if w.fading then (F64.nat w.fadeRem).div (F64.nat w.fadeLen) else F64.one

/-- `AmpStage` (48_voice.md R457). -/
def ampStage (w : Voice) (x : Frame) (aEff ag : F64) : Frame :=
  let a := ((aEff.mul w.vel).mul ag).mul w.fadeGain
  ⟨x.l.mul a, x.r.mul a⟩

/-- A channel that is not finite is silenced (48_voice.md R456). -/
def silenceBad (x : F64) : F64 := if x.isFinite then x else F64.zero

/-- `Sanitise` (48_voice.md R456). -/
def sanitise (x : Frame) : Frame := ⟨silenceBad x.l, silenceBad x.r⟩

/-- `FreeVoice`: the other fields keep their values (48_voice.md R472). -/
def Voice.freed (w : Voice) : Voice :=
  { w with amp := Env.idle, filt := Env.idle, isReleasing := false, forceRecycle := false, fading := false,
           fadeRem := 0, fadeLen := 0 }

/-- `EndOfFrame` (48_voice.md R458). -/
def Voice.endOfFrame (w : Voice) : Voice :=
  if w.fading then
    let w' := { w with fadeRem := w.fadeRem - 1 }
    if w'.fadeRem = 0 then w'.freed else if w'.amp.phase = .idle then w'.freed else w'
  else if w.amp.phase = .idle then w.freed else w

/-- Both envelopes step, amplitude first (48_voice.md R450, 46_envelope.md R390). -/
def Voice.envFrame (g : Global) (p : Params) (w : Voice) : Voice :=
  { w with amp := envStep g.fs w.velT g.relMul p.amp w.amp, filt := envStep g.fs w.velT g.relMul p.filt w.filt }

/-- `VoiceSample` of a sounding voice (48_voice.md R450). -/
def soundingFrame (g : Global) (p : Params) (m : ModFrame) (w : Voice) : Voice × Frame :=
  let w1 := ((w.glideFrame).smoothFrame g.fs p).envFrame g p
  let mix := oscMix g.fs p m.pitchRatio w1
  let flt := filterStage g.fs p w1.filt.eff m.cutoffOct mix.voice.svfL mix.voice.svfR mix.x
  let w2 := { mix.voice with svfL := flt.1, svfR := flt.2.1 }
  let y := flt.2.2
  let o : Frame := ⟨y.l.add mix.direct.l, y.r.add mix.direct.r⟩
  (w2.endOfFrame, sanitise (ampStage w2 o w1.amp.eff m.ampGain))

/-- `VoiceSample`: a FREE voice gives silence and changes nothing (48_voice.md R450). -/
def voiceSample (g : Global) (p : Params) (m : ModFrame) (w : Voice) : Voice × Frame :=
  if w.sounding then soundingFrame g p m w else (w, ⟨F64.zero, F64.zero⟩)

/-! ### Operations of the allocator -/

/-- The phases, pulse width and filter states that a trigger from free reloads (48_voice.md R470). -/
def Voice.freshStart (p : Params) (velT : F64) (w : Voice) : Voice :=
  { w with
    vel := velT
    osc1 := { copies := Vector.replicate 8 Copy.reset, pw := p.osc1.pw }
    osc2 := { copies := Vector.replicate 8 Copy.reset, pw := p.osc2.pw }
    subPh := 0, svfL := Svf.reset, svfR := Svf.reset }

/-- `Trigger(v, note, velRaw, xS)` (48_voice.md R470). -/
def Voice.trigger (fs : F64) (p : Params) (note velRaw : Nat) (xS : F64) (w : Voice) : Voice :=
  let was := w.sounding
  let capA := if was then w.amp.eff.mul w.fadeGain else F64.zero
  let capF := if was then w.filt.eff else F64.zero
  let nX := nS fs xS
  let velT := (F64.nat velRaw).div (F64.int 127)
  let w' := if was then w else w.freshStart p velT
  { w' with
    note := note, velRaw := velRaw, velT := velT, velTgt := velT
    amp := envTrigger capA nX, filt := envTrigger capF nX
    isReleasing := false, forceRecycle := false, fading := false, fadeRem := 0, fadeLen := 0 }

/-- `Release(v)` (48_voice.md R471). -/
def Voice.release (w : Voice) : Voice :=
  if w.sounding then { w with amp := envRelease w.amp, filt := envRelease w.filt, isReleasing := true } else w

end Sys2Proof.Machine
end

