-- ==== Sys2Proof/Machine/Pool.lean ====
section
/-! DEFINITION. The voice pool and its allocation state machine, the mono and legato modes, and the block housekeeping
(49_voice_pool.md). -/

namespace Sys2Proof.Machine

/-! ### Poly mode -/

/-- How the allocator found a voice (49_voice_pool.md R491). -/
inductive AllocHow where
  | free | recycle | steal
  deriving DecidableEq, Repr

/-- `effA(v)` (49_voice_pool.md R492). -/
def Voice.effA (w : Voice) : F64 := w.amp.eff

/-- Whether level `a` ranks before level `b`: the lower one does. The spec gives a NaN level no rank. -/
def ranksBefore (a b : F64) : Bool := if a.isNaN || b.isNaN then Config.nanRanksBefore a b else a.lt b

/-- The slot with the lowest `effA`, the earliest of equals (49_voice_pool.md R492). -/
def quietest (v : Vector Voice 33) : List Slot → Option Slot
  | [] => none
  | i :: is => some (is.foldl (fun best j => if ranksBefore v[j].effA v[best].effA then j else best) i)

/-- `StealCandidate()`: the quietest releasing pool voice, else the quietest pool voice (49_voice_pool.md R492). -/
def stealCandidate (v : Vector Voice 33) : Slot :=
  match quietest v (poolSlots.filter (fun i => v[i].releasing)) with
  | some i => i
  | none => (quietest v poolSlots).getD 0

/-- `AllocatePool()` (49_voice_pool.md R491). -/
def allocatePool (v : Vector Voice 33) : Slot × AllocHow :=
  match poolSlots.find? (fun i => !v[i].sounding) with
  | some i => (i, .free)
  | none =>
    match poolSlots.find? (fun i => v[i].forceRecycle) with
    | some i => (i, .recycle)
    | none => (stealCandidate v, .steal)

/-- A voice slot changed by a function of its record. -/
def State.onVoice (s : State) (i : Slot) (f : Voice → Voice) : State := s.setVoice i (f (s.voice i))

/-- `Trigger` on a slot (48_voice.md R470). -/
def State.trigger (s : State) (i : Slot) (note velRaw : Nat) (xS : Decimal) : State :=
  s.onVoice i (Voice.trigger s.g.fs s.p note velRaw (F64.lit xS))

/-- `SetPitch` on a slot (48_voice.md R461). -/
def State.setPitch (s : State) (i : Slot) (note : Nat) (mayGlide : Bool) : State :=
  s.onVoice i (Voice.setPitch s.g.fs s.p (F64.nat note) mayGlide)

/-- `Release` on a slot (48_voice.md R471). -/
def State.release (s : State) (i : Slot) : State := s.onVoice i Voice.release

/-- `StealVoice`: marked, and at once retriggered, which clears the mark (49_voice_pool.md R493). -/
def State.stealVoice (s : State) (i : Slot) (note vel : Nat) : State :=
  (s.onVoice i (fun w => { w with forceRecycle := true })).trigger i note vel Config.xfStealS

/-- `PolyNoteOn(note, vel)` (49_voice_pool.md R490). -/
def State.polyNoteOn (s : State) (note vel : Nat) : State :=
  let a := allocatePool s.v
  let s' := match a.2 with
    | .steal => s.stealVoice a.1 note vel
    | .free | .recycle => s.trigger a.1 note vel Config.xfStealS
  s'.setPitch a.1 note false

/-- `PolyNoteOff(note)`: every held pool voice with that note is released (49_voice_pool.md R494). -/
def State.polyNoteOff (s : State) (note : Nat) : State :=
  s.setVoices (Vector.ofFn (fun i : Slot =>
    if i.val < 32 ∧ (s.voice i).sounding = true ∧ (s.voice i).note = note ∧ (s.voice i).isReleasing = false
    then (s.voice i).release else s.voice i))

/-! ### Block housekeeping -/

/-- The release multiplier for `a` active voices (49_voice_pool.md R500). -/
def relMulFor (a : Nat) : Nat := if 20 < a then 16 else if 16 < a then 8 else if 12 < a then 4 else if 8 < a then 2 else 1

/-- A slot put into a list sorted by `effA`, before those of equal level. -/
def insertByLevel (v : Vector Voice 33) (i : Slot) : List Slot → List Slot
  | [] => [i]
  | j :: js => if ranksBefore v[j].effA v[i].effA then j :: insertByLevel v i js else i :: j :: js

/-- Slots sorted by `effA` ascending, ties in their first order (49_voice_pool.md R501). -/
def sortByLevel (v : Vector Voice 33) (is : List Slot) : List Slot := is.foldr (insertByLevel v) []

/-- The voices the hard cap may fade, quietest first (49_voice_pool.md R501). -/
def capCandidates (v : Vector Voice 33) : List Slot :=
  sortByLevel v (poolSlots.filter (fun i => v[i].releasing && !v[i].fading))

/-- The slots that the hard cap fades, with `a` active voices: the `a - F - HARD_CAP` quietest (49_voice_pool.md
R501). -/
def hardCapSlots (v : Vector Voice 33) (a : Nat) : List Slot :=
  (capCandidates v).take (a - fadingCount v - Config.hardCap)

/-- `FadeStart` (49_voice_pool.md R502). -/
def Voice.fadeStart (fs : F64) (w : Voice) : Voice :=
  let n := nS fs (F64.lit Config.fadeCapS)
  { w with fading := true, forceRecycle := true, fadeLen := n, fadeRem := n }

/-- `HardCap(A)` (49_voice_pool.md R501). -/
def State.hardCap (s : State) (a : Nat) : State :=
  let fade := hardCapSlots s.v a
  s.setVoices (Vector.ofFn (fun i : Slot => if i ∈ fade then (s.voice i).fadeStart s.g.fs else s.voice i))

/-- `Housekeeping()` (49_voice_pool.md R500). -/
def State.housekeeping (s : State) : State :=
  let a := activeCount s.v
  ({ s with g := { s.g with relMul := relMulFor a } }).hardCap a

/-! ### Mono and legato modes -/

/-- `StackPush(n)` (49_voice_pool.md R510). -/
def stackPush (st : List Nat) (n : Nat) : List Nat :=
  let st1 := st.erase n
  let st2 := if st1.length = Config.nStack then st1.drop 1 else st1
  st2 ++ [n]

/-- `StackRemove(n)` (49_voice_pool.md R510). -/
def stackRemove (st : List Nat) (n : Nat) : List Nat := st.erase n

/-- `Top()`, none of an empty stack (49_voice_pool.md R510). -/
def stackTop (st : List Nat) : Option Nat := st.getLast?

/-- The state with another note stack. -/
def State.setStack (s : State) (st : List Nat) : State := { s with g := { s.g with stack := st } }

/-- `MonoNoteOn(note, vel)` in MONO mode (49_voice_pool.md R512). -/
def State.monoNoteOn (s : State) (note vel : Nat) : State :=
  let was := (s.voice monoSlot).sounding
  ((s.setStack (stackPush s.g.stack note)).trigger monoSlot note vel Config.xfRetrigS).setPitch monoSlot note was

/-- `MonoNoteOn(note, vel)` in LEGATO mode (49_voice_pool.md R513). -/
def State.legatoNoteOn (s : State) (note vel : Nat) : State :=
  let was := (s.voice monoSlot).sounding
  let pushed := s.setStack (stackPush s.g.stack note)
  if s.g.stack = [] then (pushed.trigger monoSlot note vel Config.xfRetrigS).setPitch monoSlot note was
  else pushed.setPitch monoSlot note true

/-- `MonoNoteOff(note)` in MONO and LEGATO mode (49_voice_pool.md R514). -/
def State.monoNoteOff (s : State) (note : Nat) : State :=
  if note ∉ s.g.stack then s
  else
    let popped := s.setStack (stackRemove s.g.stack note)
    if stackTop s.g.stack ≠ some note then popped
    else
      match stackTop popped.g.stack with
      | some prev =>
        let again := if s.g.voiceMode = .mono
          then popped.trigger monoSlot prev (s.voice monoSlot).velRaw Config.xfRetrigS else popped
        again.setPitch monoSlot prev true
      | none => popped.release monoSlot

/-- `SwitchVoiceMode(mode)` (49_voice_pool.md R516). -/
def State.switchVoiceMode (s : State) (mode : VoiceMode) : State :=
  if mode = s.g.voiceMode then s
  else { s.setVoices (mapVoices Voice.release s.v) with g := { s.g with stack := [], voiceMode := mode } }

end Sys2Proof.Machine
end

