-- ==== Sys2Proof/Machine/Notes.lean ====
section
/-! DEFINITION. The note, controller and voice-mode commands (41_note_commands.md). -/

namespace Sys2Proof.Machine

/-- What NOTE_OFF does (41_note_commands.md R222). -/
def State.noteOff (s : State) (note : Nat) : State :=
  match s.g.voiceMode with
  | .poly => s.polyNoteOff note
  | .mono | .legato => s.monoNoteOff note

/-- What NOTE_ON with a nonzero velocity does once its checks pass (41_note_commands.md R220). -/
def State.noteOn (s : State) (note vel : Nat) : State :=
  match s.g.voiceMode with
  | .poly => s.polyNoteOn note vel
  | .mono => s.monoNoteOn note vel
  | .legato => s.legatoNoteOn note vel

/-- NOTE_OFF (41_note_commands.md R222). -/
def execNoteOff (note : Nat) (s : State) : Result := .next (s.noteOff note)

/-- NOTE_ON (41_note_commands.md R220); with velocity 0 it is NOTE_OFF, its checks included (R221). -/
def execNoteOn (note vel : Nat) (s : State) : Result :=
  if vel = 0 then .next (s.noteOff note)
  else if !s.g.configured then reject s .notConfigured
  else .next (s.noteOn note vel)

/-- CC: consumed, without an effect (41_note_commands.md R223). -/
def execCc (_num _val : Nat) (s : State) : Result := .next s

/-- PITCH_BEND: consumed, without an effect (41_note_commands.md R224). -/
def execPitchBend (_v14 : Nat) (s : State) : Result := .next s

/-- PROGRAM_CHANGE: consumed, without an effect (41_note_commands.md R225). -/
def execProgramChange (_b : Nat) (s : State) : Result := .next s

/-- AFTERTOUCH: consumed, without an effect (41_note_commands.md R226). -/
def execAftertouch (_b : Nat) (s : State) : Result := .next s

/-- SET_VOICE_MODE (41_note_commands.md R227). -/
def execSetVoiceMode (mode : Nat) (s : State) : Result :=
  match VoiceMode.ofCode mode with
  | some m => .next (s.switchVoiceMode m)
  | none => reject s .badOperand

end Sys2Proof.Machine
end

