-- ==== Sys2Proof/Machine/ParamWrite.lean ====
section
/-! DEFINITION. PARAM_WRITE (42_param_write.md). -/

namespace Sys2Proof.Machine

/-- The effect of an accepted PARAM_WRITE: one register written (42_param_write.md R260, R265). -/
def State.writeParam (s : State) (r : ParamReg) (x : F64) : State := { s with p := s.p.set r (r.stored x) }

/-- PARAM_WRITE (42_param_write.md R260). -/
def execParamWrite (idx : Nat) (x : F64) (s : State) : Result :=
  match ParamReg.ofIndex idx with
  | none => reject s .badParamIndex
  | some r => if x.isNaN then reject s .badValue else .next (s.writeParam r x)

end Sys2Proof.Machine
end

