-- ==== Sys2Proof/Machine/Render.lean ====
section
/-! DEFINITION. RENDER and the voice mixer (43_render.md). -/

namespace Sys2Proof.Machine

/-- `SanitiseMod` (43_render.md R295). -/
def sanitiseMod (m : ModFrame) : ModFrame :=
  { pitchRatio :=
      if !m.pitchRatio.isFinite || m.pitchRatio.le F64.zero then F64.one
      else (m.pitchRatio.max (F64.lit ⟨625, 10000⟩)).min (F64.int 16)
    cutoffOct :=
      if !m.cutoffOct.isFinite then F64.zero else (m.cutoffOct.max (F64.int (-10))).min (F64.int 10)
    ampGain :=
      if m.ampGain.isNaN then F64.one else (m.ampGain.max F64.zero).min F64.one }

/-- The neutral frame of a RENDER without modulation (43_render.md R295). -/
def neutralMod : ModFrame := { pitchRatio := F64.one, cutoffOct := F64.zero, ampGain := F64.one }

/-- Every slot's sample on one frame, with the slot's record after it. -/
def voiceFrames (g : Global) (p : Params) (m : ModFrame) (v : Vector Voice 33) : Vector (Voice × Frame) 33 :=
  Vector.ofFn (fun i => voiceSample g p m v[i])

/-- The sum of the slots' samples, ascending from `(+0.0, +0.0)` (43_render.md R297, R298). -/
def sumFrames (fr : Vector (Voice × Frame) 33) : Frame :=
  allSlots.foldl (fun acc i => ⟨acc.l.add fr[i].2.l, acc.r.add fr[i].2.r⟩) ⟨F64.zero, F64.zero⟩

/-- `MixFrame`: the voice slots after one frame, and the frame (43_render.md R297). -/
def mixFrame (g : Global) (p : Params) (m : ModFrame) (v : Vector Voice 33) : Vector Voice 33 × Frame :=
  let fr := voiceFrames g p m v
  (Vector.ofFn (fun i => fr[i].1), sumFrames fr)

/-- The voice slots after a block, and its output frames in order (43_render.md R290). -/
def renderFrames (g : Global) (p : Params) : List ModFrame → Vector Voice 33 → Vector Voice 33 × List Frame
  | [], v => (v, [])
  | m :: ms, v =>
    let one := mixFrame g p m v
    let rest := renderFrames g p ms one.1
    (rest.1, one.2 :: rest.2)

/-- The modulation of a block of `nf` frames, sanitised, frame by frame (43_render.md R294, R295). -/
def blockMods (s : State) (modin : Bool) (nf : Nat) : List ModFrame :=
  if modin then (s.modIn.take nf).map sanitiseMod else List.replicate nf neutralMod

/-- A RENDER of `nf ≥ 1` frames whose modulation is present: housekeeping, then every frame (43_render.md R290). -/
def State.renderBlock (s : State) (modin : Bool) (nf : Nat) : State :=
  let h := s.housekeeping
  let r := renderFrames h.g h.p (blockMods s modin nf) h.v
  let taken := if modin then nf else 0
  { h with v := r.1, out := h.out ++ r.2, modIn := h.modIn.drop taken, modPos := h.modPos + taken }

/-- RENDER (43_render.md R290, R291, R294). -/
def execRender (modin : Bool) (nf : Nat) (s : State) : Result :=
  if !s.g.configured then reject s .notConfigured
  else if s.g.blockSize < nf then reject s .badOperand
  else if nf = 0 then .next s
  else if modin && decide (s.modIn.length < nf) then .fault .awaitModulation
  else .next (s.renderBlock modin nf)

end Sys2Proof.Machine
end

