-- ==== Sys2Proof/Machine/System.lean ====
section
/-! DEFINITION. NOP, RESET and CLEAR_STATUS (40_system_commands.md). A meaning is what a command with a well-formed
header does; the words are consumed and the header is checked by the step (R200). -/

namespace Sys2Proof.Machine

/-- NOP (40_system_commands.md R201). -/
def execNop (s : State) : Result := .next s

/-- Whether RESET takes a sample rate: `isFinite(sr)` and `FS_MIN ≤ sr ≤ FS_MAX` (40_system_commands.md R202). -/
def rateOk (sr : F64) : Bool := sr.isFinite && (F64.lit Config.fsMin).le sr && sr.le (F64.lit Config.fsMax)

/-- The effect of an accepted RESET (40_system_commands.md R202, 70_reset_and_hazards.md R601). -/
def State.afterReset (s : State) (bs : Nat) (sr : F64) : State :=
  { s with
    g := { s.g with configured := true, fs := sr, blockSize := bs, relMul := 1, stack := [] }
    v := Vector.replicate 33 Voice.reset }

/-- RESET (40_system_commands.md R202). -/
def execReset (bs : Nat) (sr : F64) (s : State) : Result :=
  if ¬(1 ≤ bs ∧ bs ≤ Config.maxBlock) then reject s .badOperand
  else if !rateOk sr then reject s .badValue
  else .next (s.afterReset bs sr)

/-- CLEAR_STATUS (40_system_commands.md R203). -/
def execClearStatus (s : State) : Result := .next { s with s := Status.clear }

end Sys2Proof.Machine
end

