-- ==== Sys2Proof/Machine/Dispatch.lean ====
section
/-! DEFINITION. The meaning of every command, one arm each (30_encoding.md R131). -/

namespace Sys2Proof.Machine

def exec (i : Instr) (s : State) : Host.Outcome State Fault Refusal :=
  match i with
  -- 40_system_commands.md
  | .nop => Sys2Proof.Machine.execNop s
  | .reset bs sr => Sys2Proof.Machine.execReset bs sr s
  | .clearStatus => Sys2Proof.Machine.execClearStatus s
  -- 41_note_commands.md
  | .noteOn note vel => Sys2Proof.Machine.execNoteOn note vel s
  | .noteOff note => Sys2Proof.Machine.execNoteOff note s
  | .cc num val => Sys2Proof.Machine.execCc num val s
  | .pitchBend v14 => Sys2Proof.Machine.execPitchBend v14 s
  | .programChange b => Sys2Proof.Machine.execProgramChange b s
  | .aftertouch b => Sys2Proof.Machine.execAftertouch b s
  | .setVoiceMode mode => Sys2Proof.Machine.execSetVoiceMode mode s
  -- 42_param_write.md
  | .paramWrite idx x => Sys2Proof.Machine.execParamWrite idx x s
  -- 43_render.md
  | .render modin nf => Sys2Proof.Machine.execRender modin nf s

end Sys2Proof.Machine
end

