-- ==== Sys2Proof/Machine/Fetch.lean ====
section
/-! DEFINITION. Taking the next command from the command stream and executing it (40_system_commands.md R200). The
step of `Step.lean` calls nothing else. -/

namespace Sys2Proof.Machine

/-- One command: decode the head of the stream, consume its words, then record the error of a rejected header or run the
command (40_system_commands.md R200, 30_encoding.md R133, R136, R137). A command that has to wait for its words, or for
modulation frames, consumes nothing: the step leaves no new state. -/
def runCommand (s : State) : Result :=
  match decode s.cmd with
  | .noHeader => .fault .idle
  | .noPayload => .fault .awaitPayload
  | .illegalOpcode => reject (s.consume 1) .illegalOpcode
  | .reservedBits len => reject (s.consume len) .reservedBits
  | .command i len => exec i (s.consume len)

/-- The words of an instruction put at the head of the command stream, over the next three words. -/
def State.placeWords (s : State) (ws : List Word) : State := { s with cmd := ws ++ s.cmd.drop ws.length }

end Sys2Proof.Machine
end

