-- ==== Sys2Proof/Machine/Step.lean ====
section
/-! DEFINITION. The step: one command (00_scope.md R7). -/

namespace Sys2Proof.Machine

/-- One step of the block: the next command of the command stream (40_system_commands.md R200). -/
def step (s : State) : Host.Outcome State Fault Refusal := runCommand s

/-- `s` with a word of the opcode table as the next command of its command stream: the header, then two payload words
(zeros above `nbits`). -/
def State.withFetchWord (s : State) (nbits w : Nat) : State := s.placeWords (tableWords nbits w)

end Sys2Proof.Machine
end

