-- ==== Sys2Proof/Safety.lean ====
section
/-! DEFINITION. What a safe run is, in the terms the claims use: the invariant that every step keeps, in parts that
each follow a rule of the spec, and the lifecycle changes that a command may make. -/

namespace Sys2Proof.Machine

/-- A parameter register holds a value in its range, every zero is `+0.0`, an int or enum register an integer, a bool
register 0 or 1 (10_state.md R40, 42_param_write.md R262). -/
def RegHolds (r : ParamReg) (y : F64) : Prop :=
  r.range.1.le y = true ∧ y.le r.range.2 = true ∧ (y.isZero = true → y = F64.zero) ∧
  (r.kind = .int ∨ r.kind = .enum → ∃ n : Int, y = F64.int n) ∧
  (r.kind = .bool → y = F64.zero ∨ y = F64.one)

/-- Every register holds a value of its range. -/
def ParamInv (p : Params) : Prop := ∀ r : ParamReg, RegHolds r (p.get r)

/-- Error codes run from 0 to 6, and a code is recorded exactly when errors are counted (60_exceptions.md R561,
R562). -/
def StatusInv (t : Status) : Prop := t.errCode.toNat ≤ 6 ∧ (t.errCode = 0 ↔ t.errCount = 0)

/-- Once configured, the sample rate and the block size are ones RESET accepts (40_system_commands.md R202); the release
multiplier is 1, 2, 4, 8 or 16 (10_state.md R31). -/
def ConfigInv (g : Global) : Prop :=
  (g.configured = true → rateOk g.fs = true ∧ 1 ≤ g.blockSize ∧ g.blockSize ≤ Config.maxBlock) ∧
  (g.relMul = 1 ∨ g.relMul = 2 ∨ g.relMul = 4 ∨ g.relMul = 8 ∨ g.relMul = 16)

/-- The note stack: at most 16 distinct notes, none in POLY mode (49_voice_pool.md R515). -/
def StackInv (g : Global) : Prop :=
  g.stack.length ≤ 16 ∧ g.stack.Nodup ∧ (∀ n ∈ g.stack, n < 128) ∧ (g.voiceMode = .poly → g.stack = [])

/-- A floor is exactly 0 once its frames have run (46_envelope.md R408). -/
def EnvInv (e : Env) : Prop := e.floorRem = 0 → e.floor = F64.zero

/-- A filter's states are finite (47_filter.md R438, R441). -/
def SvfInv (c : Svf) : Prop := c.ic1.isFinite = true ∧ c.ic2.isFinite = true

/-- What a voice slot keeps between commands: a free voice has both envelopes idle and no flag set (10_state.md R55,
48_voice.md R475); a sounding voice is releasing exactly in the Release phase; the recycling mark stands exactly on a
fading voice (R57, R59), and a fading voice is releasing, with its counter running (49_voice_pool.md R501, R502). -/
structure VoiceInv (w : Voice) : Prop where
  free : w.amp.phase = .idle → w.amp = Env.idle ∧ w.filt = Env.idle ∧ w.isReleasing = false ∧ w.fading = false
  held : w.amp.phase ≠ .idle → (w.isReleasing = true ↔ w.amp.phase = .release)
  recycle : w.forceRecycle = w.fading
  fade : w.fading = true → w.isReleasing = true ∧ 1 ≤ w.fadeRem ∧ w.fadeRem ≤ w.fadeLen
  noFade : w.fading = false → w.fadeRem = 0 ∧ w.fadeLen = 0
  note : w.note < 128
  velocity : w.velRaw < 128 ∧ (w.amp.phase ≠ .idle → 1 ≤ w.velRaw)
  ampFloor : EnvInv w.amp
  filtFloor : EnvInv w.filt
  filters : SvfInv w.svfL ∧ SvfInv w.svfR

/-- The mono voice is never faded, and is held while the note stack is not empty (00_scope.md R9, 49_voice_pool.md
R511, R515). -/
def MonoInv (s : State) : Prop :=
  (s.voice monoSlot).fading = false ∧
  (s.g.stack ≠ [] → (s.voice monoSlot).sounding = true ∧ (s.voice monoSlot).isReleasing = false)

/-- Nothing sounds before the first RESET, and the note stack is empty (41_note_commands.md R222). -/
def UnconfiguredInv (s : State) : Prop :=
  s.g.configured = false → s.g.stack = [] ∧ ∀ i : Slot, (s.voice i).sounding = false

/-- A pool voice never glides (48_voice.md R461). -/
def PoolGlideInv (s : State) : Prop := ∀ i ∈ poolSlots, (s.voice i).glideRem = 0

/-- The invariant of the block. -/
structure Inv (s : State) : Prop where
  params : ParamInv s.p
  status : StatusInv s.s
  config : ConfigInv s.g
  stack : StackInv s.g
  voices : ∀ i : Slot, VoiceInv (s.voice i)
  mono : MonoInv s
  unconfigured : UnconfiguredInv s
  poolGlide : PoolGlideInv s

/-- The phase changes that an envelope step may make (46_envelope.md R391). -/
def phaseMay : EnvPhase → EnvPhase → Bool
  | .idle, .idle | .attack, .attack | .attack, .decay | .decay, .decay | .decay, .sustain => true
  | .sustain, .sustain | .release, .release | .release, .idle => true
  | _, _ => false

/-- The lifecycle changes of the table of 49_voice_pool.md R520, its RESET row apart; a state may always stay. -/
def lifecycleMay : Lifecycle → Lifecycle → Bool
  | .free, .free | .free, .active => true
  | .active, .active | .active, .releasing => true
  | .releasing, _ => true
  | .fading, .fading | .fading, .active | .fading, .free => true
  | _, _ => false

/-! ### Terms of the claims -/

/-- The error codes that a command with a well-formed header can raise: the last column of 60_exceptions.md R561 without
ILLEGAL_OPCODE and RESERVED_BITS, which the header raises. -/
def mayRaise : Instr → CmdError → Bool
  | .reset _ _, .badOperand | .reset _ _, .badValue => true
  | .noteOn _ vel, .notConfigured => decide (vel ≠ 0)
  | .paramWrite _ _, .badParamIndex | .paramWrite _ _, .badValue => true
  | .setVoiceMode _, .badOperand => true
  | .render _ _, .notConfigured | .render _ _, .badOperand => true
  | _, _ => false

/-- The commands of a list executed in order, as long as each gives a next state. -/
def execAll : List Instr → State → Result
  | [], s => .next s
  | i :: is, s =>
    match exec i s with
    | .next t => execAll is t
    | .fault r => .fault r
    | .refused r => .refused r

/-- A NOTE_ON with nonzero velocity, or a RENDER: the commands of 49_voice_pool.md R495. -/
def playsOn : Instr → Bool
  | .noteOn _ vel => decide (vel ≠ 0)
  | .render _ _ => true
  | _ => false

/-- The notes that the NOTE_ONs of a command list start, in order. -/
def notesStarted (is : List Instr) : List Nat :=
  is.filterMap (fun i => match i with | .noteOn note _ => some note | _ => none)

/-- A voice after the frames of a modulation list. -/
def voiceAfter (g : Global) (p : Params) (ms : List ModFrame) (w : Voice) : Voice :=
  ms.foldl (fun w m => (voiceSample g p m w).1) w

/-- `i` is the quietest of the pool voices that satisfy `P`, the earliest of equals (49_voice_pool.md R492). The level
comparisons are those of binary64, so no voice compared has a NaN level. -/
def IsQuietest (v : Vector Voice 33) (P : Voice → Prop) (i : Slot) : Prop :=
  i ∈ poolSlots ∧ P v[i] ∧
  ∀ j ∈ poolSlots, P v[j] → v[i].effA.lt v[j].effA = true ∨ (v[i].effA.eq v[j].effA = true ∧ i ≤ j)

/-- `Trigger` and the `SetPitch` right after it, as one change of a voice (48_voice.md R470). -/
def Voice.started (w : Voice) (s : State) (note vel : Nat) (xS : Decimal) (mayGlide : Bool) : Voice :=
  (w.trigger s.g.fs s.p note vel (F64.lit xS)).setPitch s.g.fs s.p (F64.nat note) mayGlide

/-- Whether the head of the command stream is a RESET command. -/
def nextIsReset (s : State) : Bool :=
  match decode s.cmd with
  | .command (.reset _ _) _ => true
  | _ => false

end Sys2Proof.Machine
end

