-- ==== Sys2Proof/Certificates/Slice0/Obligations.lean ====
section
/-! DEFINITION. The statements for the provers, in the order of OBLIGATIONS.json. Each docstring names the rule of spec/
that the statement follows. A value that the spec leaves open (a NaN's bits, `max` of a NaN) is an uninterpreted constant
of Config, so a statement holds for every choice of it. -/

section

open Sys2Proof Sys2Proof.Machine

/-! ### Encoding -/

/-- The table of 30_encoding.md R135 with the lengths of R133, written out for the statements: match, mask, words. -/
def Sys2Proof.headerForms : List (Word × Word × Nat) :=
  [(0x00000000, 0xFFFFFFFF, 1), (0x01000000, 0xFFFF0000, 3), (0x02000000, 0xFFFF8080, 1), (0x03000000, 0xFFFF80FF, 1),
   (0x04000000, 0xFFFF8080, 1), (0x05000000, 0xFFFFC000, 1), (0x06000000, 0xFFFFFF80, 1), (0x07000000, 0xFFFFFF80, 1),
   (0x10000000, 0xFFFFFF00, 3), (0x11000000, 0xFFFFFFFC, 1), (0x20000000, 0xFFFE0000, 1), (0x30000000, 0xFFFFFFFF, 1)]

/-- 30_encoding.md R132 to R134: the words of a command decode to it, with every operand at every value its field admits,
whatever follows in the stream. -/
def Obligations.EncodedCommandDecodesToItself : Prop :=
  ∀ (i : Instr) (rest : List Word), i.WellFormed → decode (encode i ++ rest) = .command i i.words

/-- 30_encoding.md R132 to R134, the other direction: what the decoder takes for a command is a well-formed one, and the
words it took are that command's only encoding. -/
def Obligations.DecodedWordsAreTheEncoding : Prop :=
  ∀ (ws : List Word) (i : Instr) (len : Nat), decode ws = .command i len →
    i.WellFormed ∧ len = i.words ∧ ws.take len = encode i

/-- 30_encoding.md R135: with the payload present, a header is taken for a command exactly when it matches a row of the
table, whatever the payload words are. -/
def Obligations.HeaderIsLegalExactlyByItsRow : Prop :=
  ∀ (w w1 w2 : Word) (rest : List Word),
    (∃ i len, decode (w :: w1 :: w2 :: rest) = .command i len) ↔ ∃ f ∈ headerForms, w &&& f.2.1 = f.1

/-- 30_encoding.md R137: a header with an unassigned opcode records ILLEGAL_OPCODE, is one word long and has no other
effect. R136: a header with a legal opcode and a reserved bit set records RESERVED_BITS, and the command's whole length is
consumed. -/
def Obligations.BadHeaderIsRejected : Prop :=
  ∀ (s : State) (w : Word) (rest : List Word), s.cmd = w :: rest →
    ((∀ f ∈ headerForms, w &&& 0xFF000000 ≠ f.1) →
      step s = .next (({ s with cmd := rest, cmdPos := s.cmdPos + 1 } : State).raise .illegalOpcode)) ∧
    ∀ f ∈ headerForms, w &&& 0xFF000000 = f.1 → w &&& f.2.1 ≠ f.1 → f.2.2 ≤ s.cmd.length →
      step s = .next (({ s with cmd := s.cmd.drop f.2.2, cmdPos := s.cmdPos + f.2.2 } : State).raise .reservedBits)

/-- 30_encoding.md R141: the four worked encodings, both ways. -/
def Obligations.WorkedEncodings : Prop :=
  encode (.noteOn 60 100) = [0x02003C64] ∧ decode [0x02003C64] = .command (.noteOn 60 100) 1 ∧
  encode (.paramWrite 0x32 ⟨0x408F400000000000⟩) = [0x10000032, 0x00000000, 0x408F4000] ∧
  decode [0x10000032, 0x00000000, 0x408F4000] = .command (.paramWrite 0x32 (F64.int 1000)) 3 ∧
  encode (.reset 512 (F64.int 48000)) = [0x01000200, 0x00000000, 0x40E77000] ∧
  decode [0x01000200, 0x00000000, 0x40E77000] = .command (.reset 512 (F64.int 48000)) 3 ∧
  encode (.render true 256) = [0x20010100] ∧ decode [0x20010100] = .command (.render true 256) 1

/-! ### The step -/

/-- 40_system_commands.md R200: a step whose stream begins with a command is that command's meaning, at the state in which
its words are consumed and its length is added to the position. -/
def Obligations.StepRunsTheDecodedCommand : Prop :=
  ∀ (s : State) (i : Instr) (rest : List Word), i.WellFormed → s.cmd = encode i ++ rest →
    step s = exec i { s with cmd := rest, cmdPos := s.cmdPos + i.words }

/-- 70_reset_and_hazards.md R613, 40_system_commands.md R200, 43_render.md R290, R294, 60_exceptions.md R575: the block
stalls only for missing words or modulation frames; with no word at all it is idle, and it never refuses a command. That a
wait is a fault of the step, of an empty stream and of a reserved-bit header too, is the model's reading (log entry 10). -/
def Obligations.BlockWaitsOnlyForInput : Prop :=
  ∀ s : State,
    (step s = .fault .idle ↔ s.cmd = []) ∧
    (step s = .fault .awaitPayload ↔
      ∃ w rest, s.cmd = w :: rest ∧ (w.toNat / 2 ^ 24 = 0x01 ∨ w.toNat / 2 ^ 24 = 0x10) ∧ rest.length < 2) ∧
    (step s = .fault .awaitModulation ↔
      ∃ w rest, s.cmd = w :: rest ∧ w &&& 0xFFFF0000 = 0x20010000 ∧ s.g.configured = true ∧
        w.toNat % 2 ^ 16 ≤ s.g.blockSize ∧ s.modIn.length < w.toNat % 2 ^ 16) ∧
    ∀ r, step s ≠ .refused r

/-- 10_state.md R32: every step takes one or three words, by the opcode, from the head of the command stream. -/
def Obligations.StepAdvancesThroughTheStream : Prop :=
  ∀ (s t : State), step s = .next t →
    ∃ w rest len, s.cmd = w :: rest ∧
      len = (if w.toNat / 2 ^ 24 = 0x01 ∨ w.toNat / 2 ^ 24 = 0x10 then 3 else 1) ∧ len ≤ s.cmd.length ∧
      t.cmd = s.cmd.drop len ∧ t.cmdPos = s.cmdPos + len

/-- 20_memory.md R100: only RENDER emits, and it appends as many frames as it was asked for; what was emitted before
stays. -/
def Obligations.OutputGrowsOnlyByRender : Prop :=
  ∀ (s t : State), step s = .next t →
    ∃ frames : List Frame, t.out = s.out ++ frames ∧
      (frames ≠ [] → ∃ modin nf, decode s.cmd = .command (.render modin nf) 1 ∧ frames.length = nf)

/-! ### Errors and status -/

/-- 60_exceptions.md R562: the first code is kept, the count saturates at 255, and nothing else changes. -/
def Obligations.ErrorIsRecorded : Prop :=
  ∀ (s : State) (e : CmdError),
    s.raise e = { s with s := (s.raise e).s } ∧
    (s.raise e).s.errCode = (if s.s.errCode = 0 then e.code else s.s.errCode) ∧
    (s.raise e).s.errCount.toNat = min (s.s.errCount.toNat + 1) 255

/-- 60_exceptions.md R560 and R561: a command that changes the status fields is CLEAR_STATUS, or it was rejected with an
error that it may raise and had no other effect. -/
def Obligations.RejectedCommandHasNoOtherEffect : Prop :=
  ∀ (i : Instr) (s t : State), exec i s = .next t → t.s ≠ s.s → i ≠ .clearStatus →
    ∃ e, mayRaise i e = true ∧ t = s.raise e

/-- 40_system_commands.md R203: CLEAR_STATUS clears both error fields and nothing else; no other command lowers the count
or replaces a recorded code. -/
def Obligations.OnlyClearStatusClearsErrors : Prop :=
  (∀ s : State, exec .clearStatus s = .next { s with s := { errCode := 0, errCount := 0 } }) ∧
  ∀ (s t : State), step s = .next t → decode s.cmd ≠ .command .clearStatus 1 →
    s.s.errCount.toNat ≤ t.s.errCount.toNat ∧ (s.s.errCode ≠ 0 → t.s.errCode = s.s.errCode)

/-- 10_state.md R61: every field of the three status words, and its reserved bits; R62: addresses 3 and above read 0. -/
def Obligations.StatusWordsShowTheState : Prop :=
  ∀ s : State, ConfigInv s.g →
    field s.status0 0 0 = bit s.g.configured ∧ field s.status0 1 1 = bit (decide (s.s.errCode ≠ 0)) ∧
    field s.status0 2 2 = bit (s.voice monoSlot).busy ∧ field s.status0 3 3 = 0 ∧
    field s.status0 7 4 = s.s.errCode.toNat ∧ field s.status0 13 8 = activeCount s.v ∧
    field s.status0 15 14 = s.g.voiceMode.code ∧ field s.status0 23 16 = s.s.errCount.toNat ∧
    2 ^ field s.status0 26 24 = s.g.relMul ∧ field s.status0 31 27 = 0 ∧
    (∀ i ∈ poolSlots, s.status1.getLsbD i.val = (s.voice i).busy ∧ s.status2.getLsbD i.val = (s.voice i).fading) ∧
    s.status 0 = s.status0 ∧ s.status 1 = s.status1 ∧ s.status 2 = s.status2 ∧ ∀ a, 3 ≤ a → s.status a = 0

/-! ### System commands -/

/-- 40_system_commands.md R201, 41_note_commands.md R223 to R226: NOP and the four controller events complete and change
nothing, whatever their operands. -/
def Obligations.EventsWithoutEffect : Prop :=
  ∀ (s : State) (a b : Nat),
    exec .nop s = .next s ∧ exec (.cc a b) s = .next s ∧ exec (.pitchBend a) s = .next s ∧
    exec (.programChange a) s = .next s ∧ exec (.aftertouch a) s = .next s

/-- The reset value of every field of a voice slot, written out from 10_state.md R50 and R51. -/
def Sys2Proof.voiceAtReset : Voice :=
  let idle : Env := { phase := .idle, level := F64.zero, floor := F64.zero, floorRem := 0, floorStep := F64.zero }
  let osc : OscState := { copies := Vector.replicate 8 { ph := 0, wt := F64.zero, fm := 0 }, pw := F64.lit ⟨1, 2⟩ }
  let svf : Svf := { ic1 := F64.zero, ic2 := F64.zero }
  { note := 0, velRaw := 0, velT := F64.zero, vel := F64.zero, velTgt := F64.zero, pitch := F64.zero,
    pitchTgt := F64.zero, glideRem := 0, glideStep := F64.zero, amp := idle, filt := idle, osc1 := osc, osc2 := osc,
    subPh := 0, svfL := svf, svfR := svf, isReleasing := false, forceRecycle := false, fading := false, fadeRem := 0,
    fadeLen := 0 }

/-- 70_reset_and_hazards.md R601: what an accepted RESET changes, and what it leaves. -/
def Obligations.ResetSilencesAndConfigures : Prop :=
  ∀ (s : State) (bs : Nat) (sr : F64), 1 ≤ bs → bs ≤ 4096 → sr.isFinite = true →
    (F64.int 8000).le sr = true → sr.le (F64.int 384000) = true →
    ∃ t, exec (.reset bs sr) s = .next t ∧
      t.g = { configured := true, fs := sr, blockSize := bs, voiceMode := s.g.voiceMode, relMul := 1, stack := [] } ∧
      (∀ i : Slot, t.voice i = voiceAtReset ∧ (t.voice i).lifecycle = .free) ∧ activeCount t.v = 0 ∧
      t.p = s.p ∧ t.s = s.s ∧ t.cmd = s.cmd ∧ t.cmdPos = s.cmdPos ∧ t.modIn = s.modIn ∧ t.modPos = s.modPos ∧
      t.out = s.out

/-- 40_system_commands.md R202: a RESET with a block size of 0 or above 4096 is BAD_OPERAND, whatever its rate; with a
good block size, a rate that is a zero, a subnormal, a NaN, an infinity or out of range is BAD_VALUE. Nothing else
changes. -/
def Obligations.ResetRejectsBadOperands : Prop :=
  ∀ (s : State) (bs : Nat) (sr : F64),
    (bs = 0 ∨ 4096 < bs → exec (.reset bs sr) s = .next (s.raise .badOperand)) ∧
    (1 ≤ bs → bs ≤ 4096 →
      sr.isZero = true ∨ sr.isNaN = true ∨ sr.isInf = true ∨ sr.lt (F64.int 8000) = true ∨
        (F64.int 384000).lt sr = true →
      exec (.reset bs sr) s = .next (s.raise .badValue))

/-- 70_reset_and_hazards.md R600: the power-on state. The registers not named hold 0; the voices hold the values of
10_state.md R50 and R51. That no command word and no modulation frame has arrived yet (`cmd`, `modIn`) is the model's
choice (log entry 1): R600 says only that the streams are at their start. -/
def Obligations.PowerOnState : Prop :=
  State.reset.g = { configured := false, fs := F64.zero, blockSize := 0, voiceMode := .poly, relMul := 1, stack := [] } ∧
  (∀ r : ParamReg, State.reset.p.get r =
    match r with
    | .osc .one .level | .osc _ .wave | .osc _ .uniN | .osc _ .fmCoarse | .filterEnable => F64.one
    | .osc _ .uniDetune => F64.int 25
    | .osc _ .uniWidth | .env .amp .tD => F64.int 100
    | .osc _ .uniBlend => F64.int 50
    | .osc _ .pw => F64.half
    | .subOct => F64.int (-1)
    | .cutoff => F64.int 10000
    | .env _ .tA => F64.int 10
    | .env .filt .tD | .env _ .tR => F64.int 200
    | .env _ .sdB => F64.int (-6)
    | _ => F64.zero) ∧
  (∀ i : Slot, State.reset.voice i = voiceAtReset ∧ (State.reset.voice i).lifecycle = .free) ∧
  State.reset.s = { errCode := 0, errCount := 0 } ∧ (∀ a, State.reset.status a = 0) ∧
  State.reset.cmd = [] ∧ State.reset.cmdPos = 0 ∧ State.reset.modIn = [] ∧ State.reset.modPos = 0 ∧ State.reset.out = []

/-- 41_note_commands.md R227, 49_voice_pool.md R516: a switch to another mode releases every voice, empties the note stack
and sets the mode; a switch to the current mode does nothing; mode 3 is BAD_OPERAND. -/
def Obligations.VoiceModeSwitchReleasesEveryVoice : Prop :=
  ∀ (s : State) (m : VoiceMode),
    (m = s.g.voiceMode → exec (.setVoiceMode m.code) s = .next s) ∧
    (m ≠ s.g.voiceMode →
      ∃ t, exec (.setVoiceMode m.code) s = .next t ∧ t.g = { s.g with stack := [], voiceMode := m } ∧
        (∀ i : Slot, t.voice i = (s.voice i).release) ∧ t.p = s.p ∧ t.s = s.s ∧ t.cmd = s.cmd ∧ t.cmdPos = s.cmdPos ∧
        t.modIn = s.modIn ∧ t.modPos = s.modPos ∧ t.out = s.out) ∧
    exec (.setVoiceMode 3) s = .next (s.raise .badOperand)

/-! ### Notes -/

/-- 41_note_commands.md R221: a NOTE_ON of velocity 0 is a NOTE_OFF, its checks included. -/
def Obligations.VelocityZeroIsNoteOff : Prop :=
  ∀ (s : State) (note : Nat), exec (.noteOn note 0) s = exec (.noteOff note) s ∧
    ∃ t, exec (.noteOn note 0) s = .next t ∧ t.s = s.s

/-- 70_reset_and_hazards.md R603: before the first RESET, a NOTE_ON with nonzero velocity and a RENDER are
NOT_CONFIGURED. -/
def Obligations.UnconfiguredBlockRejectsSound : Prop :=
  ∀ (s : State), s.g.configured = false →
    (∀ note vel, vel ≠ 0 → exec (.noteOn note vel) s = .next (s.raise .notConfigured)) ∧
    ∀ modin nf, exec (.render modin nf) s = .next (s.raise .notConfigured)

/-- 49_voice_pool.md R490: every POLY note sounds. Whatever the voices' levels, one pool voice is started with it: a FREE one
while there is one, else one marked for recycling while there is one; it is ACTIVE with the note, no other slot changes,
and nothing else does. -/
def Obligations.EveryPolyNoteSounds : Prop :=
  ∀ (s : State) (note vel : Nat), s.g.configured = true → s.g.voiceMode = .poly → vel ≠ 0 →
    ∃ i ∈ poolSlots, ∃ t, exec (.noteOn note vel) s = .next t ∧
      t = s.setVoice i ((s.voice i).started s note vel ⟨1, 1000⟩ false) ∧
      (t.voice i).lifecycle = .active ∧ (t.voice i).note = note ∧
      ((s.voice i).sounding = true → ∀ j ∈ poolSlots, (s.voice j).sounding = true) ∧
      ((s.voice i).busy = true → ∀ j ∈ poolSlots, (s.voice j).busy = true)

/-- 49_voice_pool.md R490, R491: a POLY note takes the lowest FREE pool voice (step 1), and with none FREE the lowest one
marked for recycling (step 2). It starts at the note's pitch without a glide; no other slot changes and nothing else
does. -/
def Obligations.PolyNoteTakesTheLowestIdleVoice : Prop :=
  ∀ (s : State) (note vel : Nat) (i : Slot), s.g.configured = true → s.g.voiceMode = .poly → vel ≠ 0 → i ∈ poolSlots →
    ((s.voice i).sounding = false ∧ (∀ j : Slot, j < i → (s.voice j).sounding = true) ∨
      (∀ j ∈ poolSlots, (s.voice j).sounding = true) ∧ (s.voice i).forceRecycle = true ∧
        ∀ j : Slot, j < i → (s.voice j).forceRecycle = false) →
    exec (.noteOn note vel) s = .next (s.setVoice i ((s.voice i).started s note vel ⟨1, 1000⟩ false))

/-- 49_voice_pool.md R492, R493: with every pool voice busy, a POLY note steals the quietest releasing pool voice, or the
quietest pool voice when all are held; it sounds, and the active count stays. -/
def Obligations.PolyNoteStealsTheQuietestVoice : Prop :=
  ∀ (s : State) (note vel : Nat) (i : Slot), s.g.configured = true → s.g.voiceMode = .poly → vel ≠ 0 →
    (∀ j ∈ poolSlots, (s.voice j).busy = true) →
    (IsQuietest s.v (fun w => w.releasing = true) i ∨
      ((∀ j ∈ poolSlots, (s.voice j).releasing = false) ∧ IsQuietest s.v (fun _ => True) i)) →
    ∃ t, exec (.noteOn note vel) s = .next t ∧
      t = s.setVoice i ((s.voice i).started s note vel ⟨1, 1000⟩ false) ∧
      activeCount t.v = activeCount s.v ∧ (t.voice i).lifecycle = .active ∧ (t.voice i).note = note

/-- 48_voice.md R470, 46_envelope.md R409: what a trigger sets, from free and from sounding. A retrigger keeps phases,
filters and velocity, and holds each envelope's effective level, the fade gain included, as a floor. -/
def Obligations.TriggerStartsANote : Prop :=
  ∀ (fs : F64) (p : Params) (note vel : Nat) (xS : F64) (w : Voice),
    let t := w.trigger fs p note vel xS
    let capA := w.effA.mul (if w.fading then (F64.nat w.fadeRem).div (F64.nat w.fadeLen) else F64.one)
    let capF := w.filt.eff
    let fresh : Env := ⟨.attack, F64.zero, F64.zero, 0, F64.zero⟩
    t.note = note ∧ t.velRaw = vel ∧ t.velT = (F64.nat vel).div (F64.int 127) ∧ t.velTgt = t.velT ∧
    t.lifecycle = .active ∧ t.forceRecycle = false ∧ t.fadeRem = 0 ∧ t.fadeLen = 0 ∧
    t.pitch = w.pitch ∧ t.pitchTgt = w.pitchTgt ∧ t.glideRem = w.glideRem ∧ t.glideStep = w.glideStep ∧
    (w.sounding = false →
      t.vel = t.velT ∧ (∀ u : Fin 8, t.osc1.copies[u] = ⟨0, F64.zero, 0⟩ ∧ t.osc2.copies[u] = ⟨0, F64.zero, 0⟩) ∧
      t.osc1.pw = p.osc1.pw ∧ t.osc2.pw = p.osc2.pw ∧ t.subPh = 0 ∧
      t.svfL = ⟨F64.zero, F64.zero⟩ ∧ t.svfR = ⟨F64.zero, F64.zero⟩ ∧ t.amp = fresh ∧ t.filt = fresh) ∧
    (w.sounding = true →
      t.vel = w.vel ∧ t.osc1 = w.osc1 ∧ t.osc2 = w.osc2 ∧ t.subPh = w.subPh ∧ t.svfL = w.svfL ∧ t.svfR = w.svfR ∧
      (F64.zero.lt capA = true → t.amp = ⟨.attack, F64.zero, capA, nS fs xS, capA.div (F64.nat (nS fs xS))⟩) ∧
      (F64.zero.lt capA = false → t.amp = fresh) ∧
      (F64.zero.lt capF = true → t.filt = ⟨.attack, F64.zero, capF, nS fs xS, capF.div (F64.nat (nS fs xS))⟩) ∧
      (F64.zero.lt capF = false → t.filt = fresh))

/-- 48_voice.md R471, 46_envelope.md R410: a release starts both envelopes' Release from their effective levels; a free
voice is untouched, and pitch, fade and every other field stay. -/
def Obligations.ReleaseStartsFromTheEffectiveLevel : Prop :=
  ∀ w : Voice,
    (w.sounding = false → w.release = w) ∧
    (w.sounding = true →
      ∃ a f, w.release = { w with amp := a, filt := f, isReleasing := true } ∧
        a = ⟨.release, w.amp.level.max w.amp.floor, F64.zero, 0, F64.zero⟩ ∧
        f = (if w.filt.phase = .idle then w.filt
          else ⟨.release, w.filt.level.max w.filt.floor, F64.zero, 0, F64.zero⟩))

/-- 49_voice_pool.md R494: a POLY NOTE_OFF releases every held pool voice with the note; every other slot, the mono voice
among them, and everything else stay. -/
def Obligations.PolyNoteOffReleasesEveryHeldVoice : Prop :=
  ∀ (s : State) (note : Nat), s.g.voiceMode = .poly →
    ∃ t, exec (.noteOff note) s = .next t ∧
      (∀ i : Slot, t.voice i =
        if i ∈ poolSlots ∧ (s.voice i).sounding = true ∧ (s.voice i).note = note ∧ (s.voice i).isReleasing = false
        then (s.voice i).release else s.voice i) ∧
      t.g = s.g ∧ t.p = s.p ∧ t.s = s.s ∧ t.cmd = s.cmd ∧ t.cmdPos = s.cmdPos ∧ t.modIn = s.modIn ∧
      t.modPos = s.modPos ∧ t.out = s.out

/-- 49_voice_pool.md R510: a push puts the note on top once, keeps at most 16 distinct notes in order, and drops the
oldest of 16 for a new one. -/
def Obligations.StackPushKeepsTheNewestNotes : Prop :=
  ∀ (st : List Nat) (n : Nat), st.Nodup → st.length ≤ 16 →
    (stackPush st n).Nodup ∧ (stackPush st n).length ≤ 16 ∧ stackTop (stackPush st n) = some n ∧
    (n ∉ st → st.length < 16 → stackPush st n = st ++ [n]) ∧
    (n ∉ st → st.length = 16 → stackPush st n = st.tail ++ [n]) ∧
    (∀ a b, st = a ++ n :: b → stackPush st n = a ++ b ++ [n])

/-- 49_voice_pool.md R512: a MONO note is pushed and retriggers voice 32 with a 5 ms crossfade; it may glide exactly when
voice 32 was sounding. Nothing else changes. -/
def Obligations.MonoNoteRetriggersTheMonoVoice : Prop :=
  ∀ (s : State) (note vel : Nat), s.g.configured = true → s.g.voiceMode = .mono → vel ≠ 0 →
    ∃ t, exec (.noteOn note vel) s = .next t ∧
      t = ({ s with g := { s.g with stack := stackPush s.g.stack note } } : State).setVoice monoSlot
        ((s.voice monoSlot).started s note vel ⟨5, 1000⟩ (s.voice monoSlot).sounding) ∧
      (t.voice monoSlot).lifecycle = .active

/-- 49_voice_pool.md R513: a LEGATO note with no note held triggers voice 32; with a note held it only moves the pitch,
and note, velocities, envelopes and flags stay. -/
def Obligations.LegatoNoteOnlyMovesThePitch : Prop :=
  ∀ (s : State) (note vel : Nat), s.g.configured = true → s.g.voiceMode = .legato → vel ≠ 0 →
    let w := s.voice monoSlot
    let pushed : State := { s with g := { s.g with stack := stackPush s.g.stack note } }
    (s.g.stack = [] →
      exec (.noteOn note vel) s =
        .next (pushed.setVoice monoSlot (w.started s note vel ⟨5, 1000⟩ w.sounding))) ∧
    (s.g.stack ≠ [] →
      ∃ w', exec (.noteOn note vel) s = .next (pushed.setVoice monoSlot w') ∧
        w' = { w with pitch := w'.pitch, pitchTgt := F64.nat note, glideRem := w'.glideRem, glideStep := w'.glideStep } ∧
        (F64.zero.lt s.p.glide = true →
          w'.pitch = w.pitch ∧ w'.glideRem = nSms s.g.fs s.p.glide ∧
          w'.glideStep = ((F64.nat note).sub w.pitch).div (F64.nat (nSms s.g.fs s.p.glide))) ∧
        (F64.zero.lt s.p.glide = false →
          w'.pitch = F64.nat note ∧ w'.glideRem = 0 ∧ w'.glideStep = F64.zero))

/-- 49_voice_pool.md R514: a MONO or LEGATO NOTE_OFF. A note that is not held does nothing; one below the top is only
removed; the top note gives way to the note before it, which MONO retriggers; the last note is released. -/
def Obligations.MonoNoteOffReturnsToThePreviousNote : Prop :=
  ∀ (s : State) (note : Nat), s.g.voiceMode = .mono ∨ s.g.voiceMode = .legato →
    let w := s.voice monoSlot
    let popped : State := { s with g := { s.g with stack := s.g.stack.erase note } }
    (note ∉ s.g.stack → exec (.noteOff note) s = .next s) ∧
    (∀ top below, s.g.stack = below ++ [top] → note ∈ s.g.stack → note ≠ top → exec (.noteOff note) s = .next popped) ∧
    (∀ prev below, s.g.stack = below ++ [prev, note] → note ∉ below ++ [prev] →
      exec (.noteOff note) s = .next (popped.setVoice monoSlot
        (if s.g.voiceMode = .mono then w.started s prev w.velRaw ⟨5, 1000⟩ true
         else w.setPitch s.g.fs s.p (F64.nat prev) true))) ∧
    (s.g.stack = [note] → exec (.noteOff note) s = .next (popped.setVoice monoSlot w.release))

/-- 49_voice_pool.md R495: from a pool with every voice FREE, N ≤ 32 POLY notes with RENDERs anywhere between them hold
voices 0 to N - 1 in order, and the other pool voices stay FREE. -/
def Obligations.HeldNotesKeepTheirVoices : Prop :=
  ∀ (is : List Instr) (s t : State), s.g.configured = true → s.g.voiceMode = .poly →
    (∀ i ∈ poolSlots, (s.voice i).sounding = false) → (∀ i ∈ is, playsOn i = true) →
    (notesStarted is).length ≤ 32 → execAll is s = .next t →
    ∀ i ∈ poolSlots,
      (∀ note, (notesStarted is)[i.val]? = some note → (t.voice i).busy = true ∧ (t.voice i).note = note) ∧
      ((notesStarted is).length ≤ i.val → (t.voice i).sounding = false)

/-! ### Parameter registers -/

/-- 42_param_write.md R260, R265: a PARAM_WRITE of a number stores the converted value in its register; every other
register and everything else stay. -/
def Obligations.ParamWriteStoresOneRegister : Prop :=
  ∀ (s : State) (r : ParamReg) (x : F64), x.isNaN = false →
    ∃ t, exec (.paramWrite r.index x) s = .next t ∧
      t.p.get r = convert r.kind x.daz r.range.1 r.range.2 ∧ (∀ r' : ParamReg, r' ≠ r → t.p.get r' = s.p.get r') ∧
      t.g = s.g ∧ t.v = s.v ∧ t.s = s.s ∧ t.cmd = s.cmd ∧ t.cmdPos = s.cmdPos ∧ t.modIn = s.modIn ∧
      t.modPos = s.modPos ∧ t.out = s.out

/-- 42_param_write.md R261: an index is implemented exactly in the listed ranges; a write to any other is BAD_PARAM_INDEX,
a NaN's too, and a NaN to an implemented one is BAD_VALUE (60_exceptions.md R563). -/
def Obligations.ParamWriteChecksIndexThenValue : Prop :=
  ∀ (s : State) (idx : Nat) (x : F64),
    let implemented := idx ≤ 0x0D ∨ (0x10 ≤ idx ∧ idx ≤ 0x1D) ∨ (0x20 ≤ idx ∧ idx ≤ 0x24) ∨ (0x30 ≤ idx ∧ idx ≤ 0x34) ∨
      (0x40 ≤ idx ∧ idx ≤ 0x44) ∨ (0x48 ≤ idx ∧ idx ≤ 0x4C) ∨ (0x50 ≤ idx ∧ idx ≤ 0x51)
    (implemented ↔ ∃ r : ParamReg, r.index = idx) ∧
    (¬implemented → exec (.paramWrite idx x) s = .next (s.raise .badParamIndex)) ∧
    (implemented → x.isNaN = true → exec (.paramWrite idx x) s = .next (s.raise .badValue))

/-- 42_param_write.md R262, 10_state.md R40: whatever number is written, the register holds a value of its range, an
integer where its kind is int or enum, 0 or 1 where it is bool, and never -0.0. -/
def Obligations.StoredValueIsInRange : Prop :=
  ∀ (r : ParamReg) (x : F64), x.isNaN = false → RegHolds r (r.stored x)

/-- 42_param_write.md R267: the worked conversions. -/
def Obligations.WorkedConversions : Prop :=
  (ParamReg.osc .one .uniN).stored (F64.lit ⟨34, 10⟩) = F64.int 3 ∧
  (ParamReg.osc .one .uniN).stored (F64.lit ⟨35, 10⟩) = F64.int 4 ∧
  (ParamReg.osc .one .uniN).stored F64.zero = F64.int 1 ∧
  (ParamReg.osc .one .uniN).stored (F64.int 100) = F64.int 8 ∧
  (ParamReg.osc .one .oct).stored (F64.lit ⟨-25, 10⟩) = F64.int (-2) ∧
  (ParamReg.osc .one .wave).stored (F64.lit ⟨66, 10⟩) = F64.int 6 ∧
  (ParamReg.osc .one .pw).stored F64.zero = F64.lit ⟨5, 100⟩ ∧
  (ParamReg.osc .one .pan).stored (F64.infOf true) = F64.int (-1) ∧
  (ParamReg.env .amp .sdB).stored (F64.int (-200)) = F64.int (-80) ∧
  (ParamReg.env .amp .sdB).stored (F64.zeroOf true) = F64.zero ∧
  ParamReg.sync.stored F64.half = F64.one ∧ ParamReg.sync.stored (F64.lit ⟨4999, 10000⟩) = F64.zero ∧
  ∀ s : State, exec (.paramWrite 0x32 ⟨0x7FF8000000000000⟩) s = .next (s.raise .badValue) ∧
    exec (.paramWrite 0x0E F64.one) s = .next (s.raise .badParamIndex)

/-- 10_state.md R33, 42_param_write.md R265: only a PARAM_WRITE command writes a parameter register, and then it changes
nothing but the registers and the command stream. -/
def Obligations.OnlyParamWriteWritesRegisters : Prop :=
  ∀ (s t : State), step s = .next t → t.p ≠ s.p →
    (∃ idx x, decode s.cmd = .command (.paramWrite idx x) 3) ∧
    t = { s with p := t.p, cmd := s.cmd.drop 3, cmdPos := s.cmdPos + 3 }

/-! ### RENDER and the mixer -/

/-- 43_render.md R290, R294: with its modulation present, a RENDER of 1 to blockSize frames does the housekeeping once,
then renders every frame in order under its own sanitised modulation frame; it takes `nf` modulation frames or none. The
release multiplier after it is the housekeeping's (49_voice_pool.md R500). -/
def Obligations.RenderEmitsItsFrames : Prop :=
  ∀ (s : State) (modin : Bool) (nf : Nat), s.g.configured = true → 1 ≤ nf → nf ≤ s.g.blockSize →
    (modin = true → nf ≤ s.modIn.length) →
    ∃ t, exec (.render modin nf) s = .next t ∧
      let h := s.housekeeping
      let mods := if modin then (s.modIn.take nf).map sanitiseMod else List.replicate nf ⟨F64.one, F64.zero, F64.one⟩
      let taken := if modin then nf else 0
      (t.v, t.out.drop s.out.length) = renderFrames h.g h.p mods h.v ∧
      t.out.take s.out.length = s.out ∧ t.out.length = s.out.length + nf ∧
      t.modIn = s.modIn.drop taken ∧ t.modPos = s.modPos + taken ∧
      t.g = h.g ∧ t.g = { s.g with relMul := t.g.relMul } ∧ t.p = s.p ∧ t.s = s.s ∧ t.cmd = s.cmd ∧ t.cmdPos = s.cmdPos

/-- 43_render.md R291: a RENDER of no frames has no effect. R290, R294: one above the block size is BAD_OPERAND; one whose
modulation frames are not all present does not start, which the model shows as a fault of the step (log entry 10). -/
def Obligations.RenderOfNoneTooManyOrTooFew : Prop :=
  ∀ (s : State) (modin : Bool) (nf : Nat), s.g.configured = true →
    exec (.render modin 0) s = .next s ∧
    (s.g.blockSize < nf → exec (.render modin nf) s = .next (s.raise .badOperand)) ∧
    (nf ≤ s.g.blockSize → s.modIn.length < nf → exec (.render true nf) s = .fault .awaitModulation)

/-- 43_render.md R290: a RENDER with no sounding voice emits frames of +0.0 in both channels, still takes its modulation
frames, and changes no voice. -/
def Obligations.SilentRenderEmitsZeros : Prop :=
  ∀ (s : State) (modin : Bool) (nf : Nat), s.g.configured = true → 1 ≤ nf → nf ≤ s.g.blockSize →
    (modin = true → nf ≤ s.modIn.length) → (∀ i : Slot, (s.voice i).sounding = false) →
    ∃ t, exec (.render modin nf) s = .next t ∧ t.out = s.out ++ List.replicate nf ⟨F64.zero, F64.zero⟩ ∧
      t.v = s.v ∧ t.g = { s.g with relMul := 1 } ∧ t.modIn = (if modin then s.modIn.drop nf else s.modIn)

/-- 43_render.md R297, R298: a frame is the sum of the 33 slots' samples, slot 0 first, from +0.0, and every slot advances
under that frame's modulation by its own sample. -/
def Obligations.FrameIsTheOrderedSum : Prop :=
  ∀ (g : Global) (p : Params) (m : ModFrame) (v : Vector Voice 33),
    (mixFrame g p m v).2 = (List.finRange 33).foldl
      (fun acc i => ⟨acc.l.add (voiceSample g p m v[i]).2.l, acc.r.add (voiceSample g p m v[i]).2.r⟩)
      ⟨F64.zero, F64.zero⟩ ∧
    ∀ i : Slot, (mixFrame g p m v).1[i] = (voiceSample g p m v[i]).1

/-- 43_render.md R292, R294, R297: over a block, a voice advances by its own record, the registers and the modulation
alone, and no voice reaches another; a span rendered in two parts gives the frames of the whole, but for what the
housekeeping between them does. -/
def Obligations.BlockIsRenderedFrameByFrame : Prop :=
  ∀ (g : Global) (p : Params) (ms ns : List ModFrame) (v : Vector Voice 33),
    (∀ i : Slot, (renderFrames g p ms v).1[i] = voiceAfter g p ms v[i]) ∧
    renderFrames g p (ms ++ ns) v =
      ((renderFrames g p ns (renderFrames g p ms v).1).1,
       (renderFrames g p ms v).2 ++ (renderFrames g p ns (renderFrames g p ms v).1).2)

/-- 43_render.md R295: a sanitised modulation frame lies in its bounds whatever came in; a value outside them becomes the
bound, a NaN becomes neutral, and a value already in its bounds is kept. A RENDER without modulation has the neutral frame
throughout. That a subnormal offset is kept as a zero is the model's reading of R15 for `min` and `max` (log entry 9). -/
def Obligations.ModulationIsBounded : Prop :=
  ∀ m : ModFrame,
    (F64.lit ⟨625, 10000⟩).le (sanitiseMod m).pitchRatio = true ∧ (sanitiseMod m).pitchRatio.le (F64.int 16) = true ∧
    (F64.int (-10)).le (sanitiseMod m).cutoffOct = true ∧ (sanitiseMod m).cutoffOct.le (F64.int 10) = true ∧
    F64.zero.le (sanitiseMod m).ampGain = true ∧ (sanitiseMod m).ampGain.le F64.one = true ∧
    (m.pitchRatio.isFinite = false ∨ m.pitchRatio.le F64.zero = true → (sanitiseMod m).pitchRatio = F64.one) ∧
    (m.cutoffOct.isFinite = false → (sanitiseMod m).cutoffOct = F64.zero) ∧
    (m.ampGain.isNaN = true → (sanitiseMod m).ampGain = F64.one) ∧
    (m.pitchRatio.isFinite = true → (F64.int 16).lt m.pitchRatio = true → (sanitiseMod m).pitchRatio = F64.int 16) ∧
    (F64.zero.lt m.pitchRatio = true → m.pitchRatio.lt (F64.lit ⟨625, 10000⟩) = true →
      (sanitiseMod m).pitchRatio = F64.lit ⟨625, 10000⟩) ∧
    (m.cutoffOct.isFinite = true → (F64.int 10).lt m.cutoffOct = true → (sanitiseMod m).cutoffOct = F64.int 10) ∧
    (m.cutoffOct.isFinite = true → m.cutoffOct.lt (F64.int (-10)) = true →
      (sanitiseMod m).cutoffOct = F64.int (-10)) ∧
    (F64.one.lt m.ampGain = true → (sanitiseMod m).ampGain = F64.one) ∧
    (m.ampGain.lt F64.zero = true → (sanitiseMod m).ampGain = F64.zero) ∧
    ((F64.lit ⟨625, 10000⟩).le m.pitchRatio = true → m.pitchRatio.le (F64.int 16) = true →
      (sanitiseMod m).pitchRatio = m.pitchRatio) ∧
    ((F64.int (-10)).le m.cutoffOct = true → m.cutoffOct.le (F64.int 10) = true →
      (sanitiseMod m).cutoffOct = m.cutoffOct.daz) ∧
    (F64.zero.le m.ampGain = true → m.ampGain.le F64.one = true → (sanitiseMod m).ampGain.eq m.ampGain = true) ∧
    ∀ (s : State) (nf : Nat), blockMods s false nf = List.replicate nf ⟨F64.one, F64.zero, F64.one⟩

/-- 43_render.md R296: the pitch ratio and the gain of a frame leave no trace in pitch, glide, velocity, envelopes or
the flags of 10_state.md R59: two modulation frames give the same. -/
def Obligations.ModulationLeavesPitchAndEnvelopes : Prop :=
  ∀ (g : Global) (p : Params) (m m' : ModFrame) (w : Voice),
    let a := (voiceSample g p m w).1
    let b := (voiceSample g p m' w).1
    a.pitch = b.pitch ∧ a.pitchTgt = b.pitchTgt ∧ a.glideRem = b.glideRem ∧ a.glideStep = b.glideStep ∧
    a.vel = b.vel ∧ a.velTgt = b.velTgt ∧ a.amp = b.amp ∧ a.filt = b.filt ∧ a.lifecycle = b.lifecycle ∧
    a.isReleasing = b.isReleasing ∧ a.forceRecycle = b.forceRecycle ∧ a.fading = b.fading ∧
    a.fadeRem = b.fadeRem ∧ a.fadeLen = b.fadeLen ∧ a.osc1.pw = b.osc1.pw ∧ a.osc2.pw = b.osc2.pw

/-! ### One voice -/

/-- 48_voice.md R456: whatever the oscillators, the filter and the configuration functions give, a voice's sample is
finite in both channels. -/
def Obligations.VoiceSampleIsFinite : Prop :=
  ∀ (g : Global) (p : Params) (m : ModFrame) (w : Voice),
    (voiceSample g p m w).2.l.isFinite = true ∧ (voiceSample g p m w).2.r.isFinite = true

/-- 47_filter.md R438, R441: after a tick, each state is finite and either 0 or of magnitude 1e-18 or more, for every
input, every coefficient and every state before. -/
def Obligations.FilterStatesStayFinite : Prop :=
  ∀ (k : FilterCoefs) (ty x : F64) (c : Svf),
    let d := (svfTick k ty c x).1
    d.ic1.isFinite = true ∧ d.ic2.isFinite = true ∧
    (d.ic1 = F64.zero ∨ (F64.lit ⟨1, 10 ^ 18⟩).le d.ic1.abs = true) ∧
    (d.ic2 = F64.zero ∨ (F64.lit ⟨1, 10 ^ 18⟩).le d.ic2.abs = true)

/-- 47_filter.md R440: a filter switched off passes its input, and its states hold over a frame. -/
def Obligations.DisabledFilterPassesAndHolds : Prop :=
  ∀ (g : Global) (p : Params) (m : ModFrame) (w : Voice) (x : Frame) (fEff : F64), p.filterEnable = F64.zero →
    filterStage g.fs p fEff m.cutoffOct w.svfL w.svfR x = (w.svfL, w.svfR, x) ∧
    (voiceSample g p m w).1.svfL = w.svfL ∧ (voiceSample g p m w).1.svfR = w.svfR

/-- 46_envelope.md R403 to R407: what the segment step of each phase does, with the end of a segment exact: 1 into Decay,
the sustain level into and in Sustain, 0 into Idle. R391: the phases go Attack, Decay, Sustain and Release, Idle, and nowhere
else by a step. -/
def Obligations.EnvelopeSegmentsEndInOrder : Prop :=
  ∀ (fs velT : F64) (relMul : Nat) (q : EnvParams) (e : Env),
    let e' := envStep fs velT relMul q e
    let toward := fun (target : F64) (n : Nat) (r : F64) =>
      (target.mul (F64.one.sub (coef n r))).add (e.level.mul (coef n r))
    let sus := (q.sdB.div (F64.int 20)).pow10
    let ra := F64.lit ⟨3, 10⟩
    let rd := F64.lit ⟨1, 10000⟩
    let up := toward (F64.one.add ra) (attackLen fs velT q) ra
    let down := toward (sus.sub rd) (decayLen fs velT q) rd
    let out := toward (F64.lit ⟨-1, 10000⟩) (releaseLen fs velT relMul q) rd
    phaseMay e.phase e'.phase = true ∧
    (e.phase = .attack → (e'.phase, e'.level) = if F64.one.le up then (.decay, F64.one) else (.attack, up)) ∧
    (e.phase = .decay → (e'.phase, e'.level) = if down.le sus then (.sustain, sus) else (.decay, down)) ∧
    (e.phase = .sustain → (e'.phase, e'.level) = (.sustain, sus)) ∧
    (e.phase = .release → (e'.phase, e'.level) = if out.le rd then (.idle, F64.zero) else (.release, out)) ∧
    (e.phase = .idle → (e'.phase, e'.level) = (.idle, e.level))

/-- 46_envelope.md R408, R409: the floor captured by a retrigger counts down once per frame and is exactly 0 after its
`nX` frames. -/
def Obligations.FloorEndsAtExactlyZero : Prop :=
  ∀ (cap : F64) (nX : Nat) (steps : List (F64 × F64 × Nat × EnvParams)), 1 ≤ nX → F64.zero.lt cap = true →
    let e := steps.foldl (fun e k => envStep k.1 k.2.1 k.2.2.1 k.2.2.2 e) (envTrigger cap nX)
    e.floorRem = nX - steps.length ∧ (nX ≤ steps.length → e.floor = F64.zero)

/-- 48_voice.md R460, R461: a glide counts down once per frame and lands exactly on its target after `nSms(P.glide)`
frames; without a glide the pitch is there at once. -/
def Obligations.GlideLandsOnItsTarget : Prop :=
  ∀ (fs : F64) (p : Params) (target : F64) (w : Voice),
    (F64.zero.lt p.glide = true → ∀ n,
      (Voice.glideFrame^[n] (w.setPitch fs p target true)).glideRem = nSms fs p.glide - n ∧
      (nSms fs p.glide ≤ n → (Voice.glideFrame^[n] (w.setPitch fs p target true)).pitch = target)) ∧
    (w.setPitch fs p target false).pitch = target ∧ (w.setPitch fs p target false).glideRem = 0 ∧
    (F64.zero.lt p.glide = false → (w.setPitch fs p target true).pitch = target)

/-- 48_voice.md R458, 49_voice_pool.md R502: a voice whose fade has just started is FREE after `nS(FADE_CAP_S)` frames,
whatever the modulation; no frame before it lets it go back to being held. -/
def Obligations.FadedVoiceIsFreedInTime : Prop :=
  ∀ (g : Global) (p : Params) (ms : List ModFrame) (w : Voice), w.releasing = true →
    let w' := voiceAfter g p ms (w.fadeStart g.fs)
    (nS g.fs (F64.lit ⟨1, 1000⟩) ≤ ms.length → w'.lifecycle = .free) ∧
    (w'.lifecycle = .fading ∨ w'.lifecycle = .free) ∧
    (w'.lifecycle = .fading → w'.fadeRem = nS g.fs (F64.lit ⟨1, 1000⟩) - ms.length)

/-- 44_oscillator.md R320: on a frame of a copy only the phases of its waveform's representation advance; copies at or
above `uniN` hold all three. -/
def Obligations.OnlyTheCurrentPhasesAdvance : Prop :=
  (∀ (fs f vel pw : F64) (q : OscParams) (c : Copy),
    let c' := (copyFrame fs f vel pw q c).copy
    ((waveformOf q.wave = .sine ∨ waveformOf q.wave = .saw ∨ waveformOf q.wave = .square ∨
      waveformOf q.wave = .triangle ∨ waveformOf q.wave = .pulse) → c'.wt = c.wt ∧ c'.fm = c.fm) ∧
    (waveformOf q.wave = .fm → c'.wt = c.wt) ∧
    (waveformOf q.wave = .wavetable → c'.ph = c.ph ∧ c'.fm = c.fm)) ∧
  ∀ (fs pitch pr vel : F64) (q : OscParams) (o : OscState) (u : Fin 8), q.uniN.floorNat ≤ u.val →
    (oscFrame fs pitch pr vel q o).osc.copies[u] = o.copies[u]

/-- 44_oscillator.md R323: a fixed-point copy advances by its step modulo 2^32, and it reports a finished cycle exactly
when the sum passes 2^32; a step of 0 never does. For a phase increment that is a NaN the bound of the step is the
model's choice (log entry 5), not the rule's. -/
def Obligations.FixedPhaseWrapsOncePerCycle : Prop :=
  ∀ (fs f vel pw : F64) (q : OscParams) (c : Copy), waveformOf q.wave ≠ .wavetable →
    let o := copyFrame fs f vel pw q c
    let n := phaseStep (phaseInc fs f)
    n ≤ 2 ^ 31 ∧ c.ph.toNat + n = o.copy.ph.toNat + (if o.wrapped then 2 ^ 32 else 0)

/-- 44_oscillator.md R336: with sync on, a finished cycle of oscillator 1's copy 0 clears every `ph` and `wt` of oscillator
2, and no `fm`, before it is computed; otherwise oscillator 2 runs on. Oscillator 1 and the sub-oscillator run as ever.
48_voice.md R452: the samples mixed are those of oscillator 1, of oscillator 2 so started, and of the sub-oscillator. -/
def Obligations.SyncRestartsOscillatorTwo : Prop :=
  ∀ (fs pr : F64) (p : Params) (w : Voice), p.sync = F64.zero ∨ p.sync = F64.one →
    let master := (copyFrames fs w.pitch pr w.vel p.osc1 w.osc1)[0].wrapped
    let cleared : OscState :=
      { w.osc2 with copies := Vector.ofFn (fun u => { ph := 0, wt := F64.zero, fm := w.osc2.copies[u].fm }) }
    let start := if p.sync = F64.one ∧ master = true then cleared else w.osc2
    let o1 := oscFrame fs w.pitch pr w.vel p.osc1 w.osc1
    let o2 := oscFrame fs w.pitch pr w.vel p.osc2 start
    let sub := subFrame fs w.pitch pr p w.subPh
    let bL := fun pan : F64 => F64.one.min (F64.one.sub pan)
    let bR := fun pan : F64 => F64.one.min (F64.one.add pan)
    let oscL := ((p.osc1.level.mul (bL p.osc1.pan)).mul o1.accL).add ((p.osc2.level.mul (bL p.osc2.pan)).mul o2.accL)
    let oscR := ((p.osc1.level.mul (bR p.osc1.pan)).mul o1.accR).add ((p.osc2.level.mul (bR p.osc2.pan)).mul o2.accR)
    let subL := (p.subLevel.mul (bL p.subPan)).mul sub.1
    let subR := (p.subLevel.mul (bR p.subPan)).mul sub.1
    let mix := oscMix fs p pr w
    mix.voice = { w with osc1 := o1.osc, osc2 := o2.osc, subPh := sub.2 } ∧
    (p.subDirect = F64.zero → mix.x = ⟨oscL.add subL, oscR.add subR⟩ ∧ mix.direct = ⟨F64.zero, F64.zero⟩) ∧
    (p.subDirect = F64.one → mix.x = ⟨oscL, oscR⟩ ∧ mix.direct = ⟨subL, subR⟩)

/-- 45_unison.md R372: one copy has no detune and full gain in both channels; R374, R377: of three or more, the centre copy
is not detuned, and the copies of a pair have opposite detunes and, R375 and R376, the one weight at opposite pans. -/
def Obligations.UnisonDetunesInOppositePairs : Prop :=
  ∀ q : OscParams,
    unison q 1 0 = { cents := F64.zero, gainL := F64.one, gainR := F64.one } ∧
    (∀ n, 3 ≤ n → (unison q n 0).cents = F64.zero ∧
      ∀ j, 1 ≤ j → 2 * j ≤ n - 1 →
        (unison q n (2 * j)).cents.isNaN = false → (unison q n (2 * j - 1)).cents.isNaN = false →
        (unison q n (2 * j)).cents = (unison q n (2 * j - 1)).cents.negate) ∧
    ∀ n j, 3 ≤ n → 1 ≤ j → 2 * j ≤ n - 1 →
      let bl := q.uniBlend.div (F64.int 100)
      let wc := F64.one.sub bl
      let ws := bl.div (F64.nat (n - 1))
      let weight := ws.mul (F64.one.div ((wc.mul wc).add ((F64.nat (n - 1)).mul (ws.mul ws))).sqrt)
      let pan := F64.one.mul (((F64.nat j).div (F64.nat (n / 2))).mul (q.uniWidth.div (F64.int 100)))
      let angle := fun x : F64 => (x.add F64.one).mul (F64.pi.div (F64.int 4))
      pan.isNaN = false →
        (unison q n (2 * j - 1)).gainL = weight.mul (angle pan).cos ∧
        (unison q n (2 * j - 1)).gainR = weight.mul (angle pan).sin ∧
        (unison q n (2 * j)).gainL = weight.mul (angle pan.negate).cos ∧
        (unison q n (2 * j)).gainR = weight.mul (angle pan.negate).sin

/-! ### Voices over time -/

/-- 49_voice_pool.md R500 to R503: the housekeeping sets the release multiplier by the count of active voices, then fades
the `min(A - F - 16, |C|)` quietest of the pool voices that are releasing and not fading, and changes nothing else. -/
def Obligations.HousekeepingFadesTheQuietest : Prop :=
  ∀ s : State,
    let a := activeCount s.v
    let k := a - fadingCount s.v - 16
    let cands := poolSlots.filter (fun i => (s.voice i).releasing && !(s.voice i).fading)
    let t := s.housekeeping
    t.g = { s.g with relMul := if a ≤ 8 then 1 else if a ≤ 12 then 2 else if a ≤ 16 then 4 else if a ≤ 20 then 8 else 16 } ∧
    t.p = s.p ∧ t.s = s.s ∧ t.cmd = s.cmd ∧ t.cmdPos = s.cmdPos ∧ t.modIn = s.modIn ∧ t.modPos = s.modPos ∧
    t.out = s.out ∧
    (∀ i : Slot, t.voice i = s.voice i ∨ (i ∈ cands ∧ t.voice i =
      { s.voice i with fading := true, forceRecycle := true, fadeLen := nS s.g.fs (F64.lit ⟨1, 1000⟩),
                       fadeRem := nS s.g.fs (F64.lit ⟨1, 1000⟩) })) ∧
    cands.countP (fun i => (t.voice i).fading) = min k cands.length ∧
    ((∀ i ∈ poolSlots, (s.voice i).effA.isNaN = false) →
      ∀ i ∈ cands, ∀ j ∈ cands, (t.voice i).fading = true → (t.voice j).fading = false →
        (s.voice i).effA.lt (s.voice j).effA = true ∨ ((s.voice i).effA.eq (s.voice j).effA = true ∧ i < j))

/-- 49_voice_pool.md R520: from a state that meets the invariant, no step but a RESET moves a voice's lifecycle state
outside the table; a RESET that is accepted frees every voice. -/
def Obligations.LifecycleFollowsTheTable : Prop :=
  ∀ (s t : State), Inv s → step s = .next t →
    (nextIsReset s = false → ∀ i : Slot, lifecycleMay (s.voice i).lifecycle (t.voice i).lifecycle = true) ∧
    (nextIsReset s = true → t.v = s.v ∨ ∀ i : Slot, (t.voice i).lifecycle = .free)

/-- 10_state.md R30 to R60: the power-on state meets the invariant. -/
def Obligations.PowerOnMeetsTheInvariant : Prop := Inv State.reset

/-- The invariant of the block is kept by every step: registers in range (10_state.md R40), error codes (60_exceptions.md
R561), a distinct note stack of at most 16 that is empty in POLY mode and held by the mono voice (49_voice_pool.md R515),
flags that agree with the envelopes (10_state.md R55, R57), finite filter states (47_filter.md R441), pool voices that
never glide (48_voice.md R461), and silence before the first RESET (41_note_commands.md R222). -/
def Obligations.EveryStepKeepsTheInvariant : Prop :=
  ∀ (s t : State), Inv s → step s = .next t → Inv t

end
end

