-- ==== Sys2Proof/Laws/Decode.lean ====
section
/-! SUPPORT. Laws of the decoder: a masked header as arithmetic on its number, what a decoded command says of its words, and
the words of a command (30_encoding.md). -/

namespace Sys2Proof

/-! ### Masks as arithmetic -/

/-- `&&&` works on the digits of a number apart. -/
theorem and_split (k a b c d : Nat) (hb : b < 2 ^ k) (hd : d < 2 ^ k) :
    (2 ^ k * a + b) &&& (2 ^ k * c + d) = 2 ^ k * (a &&& c) + (b &&& d) := by
  apply Nat.eq_of_testBit_eq
  intro j
  rw [Nat.testBit_and, Nat.testBit_two_pow_mul_add _ hb, Nat.testBit_two_pow_mul_add _ hd,
    Nat.testBit_two_pow_mul_add _ (lt_of_le_of_lt Nat.and_le_left hb)]
  split <;> simp

/-- A mask of the bits from `k` up keeps a number's part above them. -/
theorem and_high (x k n : Nat) (hx : x < 2 ^ (k + n)) : x &&& (2 ^ k * (2 ^ n - 1)) = 2 ^ k * (x / 2 ^ k) := by
  have h := and_split k (x / 2 ^ k) (x % 2 ^ k) (2 ^ n - 1) 0 (Nat.mod_lt _ (by positivity)) (by positivity)
  rw [Nat.div_add_mod, Nat.add_zero, Nat.and_two_pow_sub_one_eq_mod, Nat.and_zero, Nat.add_zero] at h
  rw [h, Nat.mod_eq_of_lt]
  rw [Nat.div_lt_iff_lt_mul (by positivity), ← pow_add, Nat.add_comm n k]
  exact hx

theorem and_eq_iff (w m p : Word) : w &&& m = p ↔ w.toNat &&& m.toNat = p.toNat := by
  rw [← BitVec.toNat_inj, BitVec.toNat_and]

/-- A header under a mask of its bits from `k` up. -/
theorem masked_high (w m p : Word) (k n : Nat) (hkn : k + n = 32) (hm : m.toNat = 2 ^ k * (2 ^ n - 1)) :
    w &&& m = p ↔ 2 ^ k * (w.toNat / 2 ^ k) = p.toNat := by
  rw [and_eq_iff, hm, and_high _ _ _ (by rw [hkn]; exact w.isLt)]

/-- A header under the mask of format FN: bits 31 to 15, and bit 7. -/
theorem masked_FN (w p : Word) :
    w &&& 0xFFFF8080 = p ↔ 2 ^ 15 * (w.toNat / 2 ^ 15) + 2 ^ 7 * (w.toNat / 2 ^ 7 % 2) = p.toNat := by
  have hw := w.isLt
  have h1 := and_split 15 (w.toNat / 2 ^ 15) (w.toNat % 2 ^ 15) (2 ^ 17 - 1) 0x80 (by omega) (by omega)
  have h2 := and_split 8 (w.toNat % 2 ^ 15 / 2 ^ 8) (w.toNat % 2 ^ 15 % 2 ^ 8) 0 0x80 (by omega) (by omega)
  have h3 := and_high (w.toNat % 2 ^ 15 % 2 ^ 8) 7 1 (by omega)
  rw [Nat.div_add_mod, Nat.and_two_pow_sub_one_eq_mod] at h1
  simp only [Nat.div_add_mod, Nat.and_zero, Nat.mul_zero, Nat.zero_add] at h2
  rw [show 2 ^ 7 * (2 ^ 1 - 1) = 0x80 by decide] at h3
  rw [and_eq_iff, show (0xFFFF8080 : Word).toNat = 2 ^ 15 * (2 ^ 17 - 1) + 0x80 by decide, h1, h2, h3]
  omega

/-- A header under the mask of format FN0: bits 31 to 15, and bits 7 to 0. -/
theorem masked_FN0 (w p : Word) :
    w &&& 0xFFFF80FF = p ↔ 2 ^ 15 * (w.toNat / 2 ^ 15) + w.toNat % 2 ^ 8 = p.toNat := by
  have hw := w.isLt
  have h1 := and_split 15 (w.toNat / 2 ^ 15) (w.toNat % 2 ^ 15) (2 ^ 17 - 1) 0xFF (by omega) (by omega)
  have h2 := Nat.and_two_pow_sub_one_eq_mod (w.toNat % 2 ^ 15) 8
  rw [Nat.div_add_mod, Nat.and_two_pow_sub_one_eq_mod] at h1
  rw [show 2 ^ 8 - 1 = 0xFF by decide] at h2
  rw [and_eq_iff, show (0xFFFF80FF : Word).toNat = 2 ^ 15 * (2 ^ 17 - 1) + 0xFF by decide, h1, h2]
  omega

/-! ### Headers -/

theorem toNat_header {op b : Nat} (hop : op < 2 ^ 8) (hb : b < 2 ^ 24) : (header op b).toNat = op * 2 ^ 24 + b := by
  rw [header, BitVec.toNat_ofNat]
  exact Nat.mod_eq_of_lt (by omega)

theorem opcode_eq (w : Word) : opcode w = w.toNat / 2 ^ 24 := by
  have := w.isLt
  simp only [opcode, field]
  omega

/-- The rows of R135 as arithmetic on the header's number: everything above the operand fields is the pattern. -/
theorem accepts_iff (w : Word) (r : OpRow) (hr : r ∈ opTable) :
    r.accepts w = true ↔ (w.toNat / 2 ^ 24 = opcode r.pattern ∧
      match opcode r.pattern with
      | 0x00 | 0x30 => w.toNat % 2 ^ 24 = 0
      | 0x01 => w.toNat / 2 ^ 16 % 2 ^ 8 = 0
      | 0x02 | 0x04 => w.toNat / 2 ^ 15 % 2 ^ 9 = 0 ∧ w.toNat / 2 ^ 7 % 2 = 0
      | 0x03 => w.toNat / 2 ^ 15 % 2 ^ 9 = 0 ∧ w.toNat % 2 ^ 8 = 0
      | 0x05 => w.toNat / 2 ^ 14 % 2 ^ 10 = 0
      | 0x06 | 0x07 => w.toNat / 2 ^ 7 % 2 ^ 17 = 0
      | 0x10 => w.toNat / 2 ^ 8 % 2 ^ 16 = 0
      | 0x11 => w.toNat / 2 ^ 2 % 2 ^ 22 = 0
      | _ => w.toNat / 2 ^ 17 % 2 ^ 7 = 0) := by
  have hw := w.isLt
  simp only [opTable, List.mem_cons, List.not_mem_nil, or_false] at hr
  rcases hr with rfl | rfl | rfl | rfl | rfl | rfl | rfl | rfl | rfl | rfl | rfl | rfl <;>
    simp only [OpRow.accepts, decide_eq_true_eq, masked_FN, masked_FN0]
  · rw [masked_high w _ _ 0 32 rfl (by decide)]; simp [opcode, field]; omega
  · rw [masked_high w _ _ 16 16 rfl (by decide)]; simp [opcode, field]; omega
  · simp [opcode, field]; omega
  · simp [opcode, field]; omega
  · simp [opcode, field]; omega
  · rw [masked_high w _ _ 14 18 rfl (by decide)]; simp [opcode, field]; omega
  · rw [masked_high w _ _ 7 25 rfl (by decide)]; simp [opcode, field]; omega
  · rw [masked_high w _ _ 7 25 rfl (by decide)]; simp [opcode, field]; omega
  · rw [masked_high w _ _ 8 24 rfl (by decide)]; simp [opcode, field]; omega
  · rw [masked_high w _ _ 2 30 rfl (by decide)]; simp [opcode, field]; omega
  · rw [masked_high w _ _ 17 15 rfl (by decide)]; simp [opcode, field]; omega
  · rw [masked_high w _ _ 0 32 rfl (by decide)]; simp [opcode, field]; omega

/-- The row of an opcode is the table's one row with that opcode. -/
theorem rowOf_some {op : Nat} {r : OpRow} (h : rowOf op = some r) : r ∈ opTable ∧ opcode r.pattern = op :=
  ⟨List.mem_of_find?_eq_some h, by simpa using List.find?_some h⟩

/-- An opcode without a row is none of the twelve. -/
theorem rowOf_none {op : Nat} (h : rowOf op = none) : ∀ r ∈ opTable, opcode r.pattern ≠ op := by
  intro r hr
  simpa using List.find?_eq_none.mp h r hr

/-! ### Payload -/

/-- The two payload words of a datum give it back (30_encoding.md R134). -/
theorem payload_words (x : F64) :
    payload (BitVec.ofNat 32 x.bits.toNat) (BitVec.ofNat 32 (x.bits.toNat / 2 ^ 32)) = x := by
  obtain ⟨b⟩ := x
  have hb := b.isLt
  simp only [payload, F64.mk.injEq]
  apply BitVec.eq_of_toNat_eq
  simp only [BitVec.toNat_ofNat]
  omega

/-- The payload words of the datum that two words spell are those words. -/
theorem words_payload (w1 w2 : Word) :
    BitVec.ofNat 32 (payload w1 w2).bits.toNat = w1 ∧ BitVec.ofNat 32 ((payload w1 w2).bits.toNat / 2 ^ 32) = w2 := by
  have h1 := w1.isLt
  have h2 := w2.isLt
  constructor <;>
  · apply BitVec.eq_of_toNat_eq
    simp only [payload, BitVec.toNat_ofNat]
    omega

/-! ### Well-formed commands -/

theorem wf_nop : Instr.nop.WellFormed ↔ True := by decide
theorem wf_clearStatus : Instr.clearStatus.WellFormed ↔ True := by decide
theorem wf_reset {bs : Nat} {sr : F64} : (Instr.reset bs sr).WellFormed ↔ bs < 2 ^ 16 := by
  rw [Instr.WellFormed, Instr.wellFormed, decide_eq_true_iff]
theorem wf_noteOn {n v : Nat} : (Instr.noteOn n v).WellFormed ↔ n < 2 ^ 7 ∧ v < 2 ^ 7 := by
  rw [Instr.WellFormed, Instr.wellFormed, Bool.and_eq_true, decide_eq_true_iff, decide_eq_true_iff]
theorem wf_noteOff {n : Nat} : (Instr.noteOff n).WellFormed ↔ n < 2 ^ 7 := by
  rw [Instr.WellFormed, Instr.wellFormed, decide_eq_true_iff]
theorem wf_cc {n v : Nat} : (Instr.cc n v).WellFormed ↔ n < 2 ^ 7 ∧ v < 2 ^ 7 := by
  rw [Instr.WellFormed, Instr.wellFormed, Bool.and_eq_true, decide_eq_true_iff, decide_eq_true_iff]
theorem wf_pitchBend {v : Nat} : (Instr.pitchBend v).WellFormed ↔ v < 2 ^ 14 := by
  rw [Instr.WellFormed, Instr.wellFormed, decide_eq_true_iff]
theorem wf_programChange {b : Nat} : (Instr.programChange b).WellFormed ↔ b < 2 ^ 7 := by
  rw [Instr.WellFormed, Instr.wellFormed, decide_eq_true_iff]
theorem wf_aftertouch {b : Nat} : (Instr.aftertouch b).WellFormed ↔ b < 2 ^ 7 := by
  rw [Instr.WellFormed, Instr.wellFormed, decide_eq_true_iff]
theorem wf_paramWrite {idx : Nat} {x : F64} : (Instr.paramWrite idx x).WellFormed ↔ idx < 2 ^ 8 := by
  rw [Instr.WellFormed, Instr.wellFormed, decide_eq_true_iff]
theorem wf_setVoiceMode {m : Nat} : (Instr.setVoiceMode m).WellFormed ↔ m < 2 ^ 2 := by
  rw [Instr.WellFormed, Instr.wellFormed, decide_eq_true_iff]
theorem wf_render {m : Bool} {nf : Nat} : (Instr.render m nf).WellFormed ↔ nf < 2 ^ 16 := by
  rw [Instr.WellFormed, Instr.wellFormed, decide_eq_true_iff]

/-! ### Commands -/

/-- What a decoded command says of the words: its header is accepted by its row, its operands are cut out of it, and its
words have all arrived. -/
theorem decode_command {ws : List Word} {i : Instr} {len : Nat} (h : decode ws = .command i len) :
    ∃ w rest r, ws = w :: rest ∧ rowOf (opcode w) = some r ∧ r.accepts w = true ∧ len = lengthOf (opcode w) ∧
      len ≤ ws.length ∧ operands w (rest.getD 0 0) (rest.getD 1 0) = some i := by
  cases ws with
  | nil => simp [decode] at h
  | cons w rest =>
    simp only [decode] at h
    split at h
    · simp at h
    · rename_i r hr
      split at h
      · simp at h
      · split at h
        · split at h
          · rename_i i' hi
            simp only [Decoded.command.injEq] at h
            obtain ⟨rfl, rfl⟩ := h
            exact ⟨w, rest, r, rfl, hr, ‹_›, rfl, by simp only [List.length_cons]; omega, hi⟩
          · simp at h
        · simp at h

/-- The operands cut out of a header fit their fields, and belong to its opcode (30_encoding.md R134). -/
theorem operands_wellFormed {w w1 w2 : Word} {i : Instr} (h : operands w w1 w2 = some i) :
    i.WellFormed ∧ i.op = opcode w := by
  simp only [operands] at h
  split at h <;>
    first
    | (simp only [Option.some.injEq] at h
       rw [← h]
       exact ⟨by simp only [wf_reset, wf_noteOn, wf_noteOff, wf_cc, wf_pitchBend, wf_programChange, wf_aftertouch, wf_paramWrite,
         wf_setVoiceMode, wf_render, wf_nop, wf_clearStatus, field] <;> omega, by simp [Instr.op, *]⟩)
    | simp at h

/-- A decoded command is well formed, and as long as its opcode says. -/
theorem decode_wellFormed {ws : List Word} {i : Instr} {len : Nat} (h : decode ws = .command i len) :
    i.WellFormed ∧ len = i.words ∧ len ≤ ws.length := by
  obtain ⟨w, rest, r, -, -, -, hlen, hle, hop⟩ := decode_command h
  obtain ⟨hwf, hi⟩ := operands_wellFormed hop
  exact ⟨hwf, by rw [Instr.words, hi, hlen], hle⟩

end Sys2Proof
end

