-- ==== Sys2Proof/Laws/Float.lean ====
section
/-! SUPPORT. Laws of the binary64 datum: its fields, its order, and what `max`, `min` and `clamp` answer. -/

namespace Sys2Proof.F64

/-! ### Building and reading -/

theorem toNat_bits_ofMag (s : Bool) {mag : Nat} (h : mag < 2 ^ 63) :
    (ofMag s mag).bits.toNat = (if s then 2 ^ 63 else 0) + mag := by
  simp only [ofMag, BitVec.toNat_ofNat]
  exact Nat.mod_eq_of_lt (by cases s <;> (simp; omega))

@[simp] theorem magBits_ofMag (s : Bool) {mag : Nat} (h : mag < 2 ^ 63) : (ofMag s mag).magBits = mag := by
  rw [magBits, toNat_bits_ofMag s h]
  cases s <;> simp <;> omega

@[simp] theorem sign_ofMag (s : Bool) {mag : Nat} (h : mag < 2 ^ 63) : (ofMag s mag).sign = s := by
  rw [sign, BitVec.msb_eq_decide, toNat_bits_ofMag s h]
  cases s <;> simp <;> omega

theorem magBits_lt (x : F64) : x.magBits < 2 ^ 63 := Nat.mod_lt _ (by decide)

/-- A datum is its sign and its magnitude pattern. -/
theorem ofMag_sign_magBits (x : F64) : ofMag x.sign x.magBits = x := by
  obtain ⟨b⟩ := x
  have hb := b.isLt
  simp only [ofMag, sign, magBits, BitVec.msb_eq_decide, mk.injEq]
  apply BitVec.eq_of_toNat_eq
  rw [BitVec.toNat_ofNat]
  by_cases h : 2 ^ 63 ≤ b.toNat
  · simp only [Nat.reduceSub, decide_eq_true h, if_true]
    omega
  · simp only [Nat.reduceSub, decide_eq_false h, Bool.false_eq_true, if_false]
    omega

/-- Two data of one sign and one magnitude pattern are equal. -/
theorem ext_mag {x y : F64} (hs : x.sign = y.sign) (hm : x.magBits = y.magBits) : x = y := by
  rw [← ofMag_sign_magBits x, ← ofMag_sign_magBits y, hs, hm]

theorem isNaN_iff (x : F64) : x.isNaN = true ↔ 2047 * 2 ^ 52 < x.magBits := decide_eq_true_iff (p := infMag < x.magBits)

theorem isNaN_eq_false_iff (x : F64) : x.isNaN = false ↔ x.magBits ≤ 2047 * 2 ^ 52 :=
  (decide_eq_false_iff_not (p := infMag < x.magBits)).trans Nat.not_lt

theorem isFinite_iff (x : F64) : x.isFinite = true ↔ x.magBits < 2047 * 2 ^ 52 := decide_eq_true_iff (p := x.magBits < infMag)

theorem isZero_iff (x : F64) : x.isZero = true ↔ x.magBits < 2 ^ 52 := by simp [isZero]

@[simp] theorem magBits_zeroOf (s : Bool) : (zeroOf s).magBits = 0 := magBits_ofMag s (by decide)

@[simp] theorem sign_zeroOf (s : Bool) : (zeroOf s).sign = s := sign_ofMag s (by decide)

@[simp] theorem isZero_zeroOf (s : Bool) : (zeroOf s).isZero = true := by simp [isZero]

@[simp] theorem isNaN_zeroOf (s : Bool) : (zeroOf s).isNaN = false := by simp [isNaN]

@[simp] theorem isFinite_zeroOf (s : Bool) : (zeroOf s).isFinite = true := by simp [isFinite, infMag]

@[simp] theorem isFinite_zero : zero.isFinite = true := by decide

@[simp] theorem isNaN_zero : zero.isNaN = false := by decide

@[simp] theorem isZero_zero : zero.isZero = true := by decide

theorem isNaN_of_isFinite {x : F64} (h : x.isFinite = true) : x.isNaN = false := by
  rw [isFinite_iff] at h
  rw [isNaN_eq_false_iff]
  omega

theorem isNaN_of_isZero {x : F64} (h : x.isZero = true) : x.isNaN = false := by
  rw [isZero_iff] at h
  rw [isNaN_eq_false_iff]
  omega

theorem isFinite_of_isZero {x : F64} (h : x.isZero = true) : x.isFinite = true := by
  rw [isZero_iff] at h
  rw [isFinite_iff]
  omega

/-- A NaN that an operation gives is a NaN, whatever its free bits are. -/
@[simp] theorem isNaN_nanOf (a b : F64) : (nanOf a b).isNaN = true := by
  have h : (Config.nanBits a b).toNat % 2 ^ 51 < 2 ^ 51 := Nat.mod_lt _ (by decide)
  rw [isNaN_iff, nanOf, magBits_ofMag _ (by simp only [infMag]; omega)]
  simp only [infMag]
  omega

/-! ### Subnormals read as zeros -/

@[simp] theorem daz_of_not_isZero {x : F64} (h : x.isZero = false) : x.daz = x := by simp [daz, h]

theorem daz_of_isZero {x : F64} (h : x.isZero = true) : x.daz = zeroOf x.sign := by simp [daz, h]

@[simp] theorem isZero_daz (x : F64) : x.daz.isZero = x.isZero := by
  by_cases h : x.isZero = true
  · rw [daz_of_isZero h, isZero_zeroOf, h]
  · simp [Bool.eq_false_iff.mpr h]

@[simp] theorem isNaN_daz (x : F64) : x.daz.isNaN = x.isNaN := by
  by_cases h : x.isZero = true
  · rw [daz_of_isZero h, isNaN_zeroOf, isNaN_of_isZero h]
  · simp [Bool.eq_false_iff.mpr h]

@[simp] theorem isFinite_daz (x : F64) : x.daz.isFinite = x.isFinite := by
  by_cases h : x.isZero = true
  · rw [daz_of_isZero h, isFinite_zeroOf, isFinite_of_isZero h]
  · simp [Bool.eq_false_iff.mpr h]

@[simp] theorem key_daz (x : F64) : x.daz.key = x.key := by
  by_cases h : x.isZero = true
  · simp [key, h]
  · simp [Bool.eq_false_iff.mpr h]

@[simp] theorem daz_daz (x : F64) : x.daz.daz = x.daz := by
  by_cases h : x.isZero = true
  · rw [daz_of_isZero h, daz_of_isZero (isZero_zeroOf _), sign_zeroOf]
  · simp [Bool.eq_false_iff.mpr h]

/-! ### Order -/

theorem le_iff {a b : F64} (ha : a.isNaN = false) (hb : b.isNaN = false) : a.le b = true ↔ a.key ≤ b.key := by
  simp [le, ha, hb]

theorem lt_iff {a b : F64} (ha : a.isNaN = false) (hb : b.isNaN = false) : a.lt b = true ↔ a.key < b.key := by
  simp [lt, ha, hb]

theorem le_parts {a b : F64} (h : a.le b = true) : a.isNaN = false ∧ b.isNaN = false ∧ a.key ≤ b.key := by
  simpa [le, and_assoc] using h

theorem lt_parts {a b : F64} (h : a.lt b = true) : a.isNaN = false ∧ b.isNaN = false ∧ a.key < b.key := by
  simpa [lt, and_assoc] using h

/-- What `max` answers on ordered operands: one of them, at the greater place. -/
theorem max_ordered {a b : F64} (ha : a.isNaN = false) (hb : b.isNaN = false) :
    (a.max b = a.daz ∨ a.max b = b.daz) ∧ (a.max b).key = Max.max a.key b.key ∧ (a.max b).isNaN = false := by
  unfold max
  simp only [lt, ha, hb, Bool.or_self, Bool.false_eq_true, if_false, Bool.not_false, Bool.true_and, decide_eq_true_eq]
  split
  · simp [hb]; omega
  · split
    · simp [ha]; omega
    · have hk : a.key = b.key := by omega
      split <;> simp [ha, hb, hk]

/-- What `min` answers on ordered operands: one of them, at the lesser place. -/
theorem min_ordered {a b : F64} (ha : a.isNaN = false) (hb : b.isNaN = false) :
    (a.min b = a.daz ∨ a.min b = b.daz) ∧ (a.min b).key = Min.min a.key b.key ∧ (a.min b).isNaN = false := by
  unfold min
  simp only [lt, ha, hb, Bool.or_self, Bool.false_eq_true, if_false, Bool.not_false, Bool.true_and, decide_eq_true_eq]
  split
  · simp [ha]; omega
  · split
    · simp [hb]; omega
    · have hk : a.key = b.key := by omega
      split <;> simp [ha, hb, hk]

theorem max_of_lt {a b : F64} (h : a.lt b = true) : a.max b = b.daz := by
  obtain ⟨ha, hb, hk⟩ := lt_parts h
  simp [max, lt, ha, hb, hk]

theorem max_of_gt {a b : F64} (h : b.lt a = true) : a.max b = a.daz := by
  obtain ⟨hb, ha, hk⟩ := lt_parts h
  have hk' : ¬a.key < b.key := by omega
  simp [max, lt, ha, hb, hk, hk']

theorem max_of_daz_eq {a b : F64} (ha : a.isNaN = false) (h : a.daz = b.daz) : a.max b = a.daz := by
  have hb : b.isNaN = false := by rw [← isNaN_daz b, ← h, isNaN_daz, ha]
  have hk : a.key = b.key := by rw [← key_daz a, h, key_daz]
  simp [max, lt, ha, hb, hk, h]

theorem min_of_lt {a b : F64} (h : a.lt b = true) : a.min b = a.daz := by
  obtain ⟨ha, hb, hk⟩ := lt_parts h
  simp [min, lt, ha, hb, hk]

theorem min_of_gt {a b : F64} (h : b.lt a = true) : a.min b = b.daz := by
  obtain ⟨hb, ha, hk⟩ := lt_parts h
  have hk' : ¬a.key < b.key := by omega
  simp [min, lt, ha, hb, hk, hk']

theorem min_of_daz_eq {a b : F64} (ha : a.isNaN = false) (h : a.daz = b.daz) : a.min b = a.daz := by
  have hb : b.isNaN = false := by rw [← isNaN_daz b, ← h, isNaN_daz, ha]
  have hk : a.key = b.key := by rw [← key_daz a, h, key_daz]
  simp [min, lt, ha, hb, hk, h]

/-- A clamped datum lies in the range it was clamped to (00_scope.md R13). -/
theorem clamp_range {x lo hi : F64} (hx : x.isNaN = false) (h : lo.le hi = true) :
    lo.le (x.clamp lo hi) = true ∧ (x.clamp lo hi).le hi = true := by
  obtain ⟨hlo, hhi, hk⟩ := le_parts h
  obtain ⟨-, hk1, hn1⟩ := max_ordered hx hlo
  obtain ⟨-, hk2, hn2⟩ := min_ordered hn1 hhi
  have hc : x.clamp lo hi = (x.max lo).min hi := rfl
  rw [hc, le_iff hlo hn2, le_iff hn2 hhi, hk2, hk1]
  omega

/-! ### Rounded results -/

@[simp] theorem magBits_infOf (s : Bool) : (infOf s).magBits = infMag := magBits_ofMag s (by decide)

@[simp] theorem sign_infOf (s : Bool) : (infOf s).sign = s := sign_ofMag s (by decide)

theorem infMag_lt : infMag < 2 ^ 63 := by decide

theorem le_infMag : 2 ^ 52 ≤ infMag := by decide

/-- What rounding answers: a zero, an infinity, or a normal datum, of the given sign (00_scope.md R11, R15). -/
theorem round_cases (s : Bool) (num den : Nat) (e : Int) :
    round s num den e = zeroOf s ∨ round s num den e = infOf s ∨
    ∃ mag, 2 ^ 52 ≤ mag ∧ mag < infMag ∧ round s num den e = ofMag s mag := by
  unfold round
  split
  · exact .inl rfl
  · dsimp only
    split
    · exact .inl rfl
    · split
      · exact .inr (.inl rfl)
      · exact .inr (.inr ⟨_, by omega, by omega, rfl⟩)

/-- Rounding the same magnitude with the other sign gives the negated datum. -/
theorem negate_round (s : Bool) (num den : Nat) (e : Int) : (round s num den e).negate = round (!s) num den e := by
  have neg_mag : ∀ mag, 2 ^ 52 ≤ mag → mag ≤ infMag → (ofMag s mag).negate = ofMag (!s) mag := fun mag h1 h2 => by
    have h3 : mag < 2 ^ 63 := lt_of_le_of_lt h2 infMag_lt
    have hz : (ofMag s mag).isZero = false := by
      rw [isZero, magBits_ofMag s h3, decide_eq_false (not_lt.mpr h1)]
    rw [negate, hz, if_neg (by decide), sign_ofMag s h3, magBits_ofMag s h3]
  have neg_zero : (zeroOf s).negate = zeroOf (!s) := by
    rw [negate, isZero_zeroOf, if_pos rfl, sign_zeroOf]
  unfold round
  split
  · exact neg_zero
  · dsimp only
    split
    · exact neg_zero
    · split
      · exact neg_mag _ le_infMag le_rfl
      · exact neg_mag _ (by omega) (by omega)

/-- A rounded result is no subnormal. -/
@[simp] theorem daz_round (s : Bool) (num den : Nat) (e : Int) : (round s num den e).daz = round s num den e := by
  rcases round_cases s num den e with h | h | ⟨mag, h1, h2, h⟩ <;> rw [h]
  · rw [daz_of_isZero (isZero_zeroOf s), sign_zeroOf]
  · exact daz_of_not_isZero (by rw [isZero, magBits_infOf, decide_eq_false (not_lt.mpr le_infMag)])
  · exact daz_of_not_isZero (by
      rw [isZero, magBits_ofMag s (lt_trans h2 infMag_lt), decide_eq_false (not_lt.mpr h1)])

/-- A rounded result is no NaN. -/
@[simp] theorem isNaN_round (s : Bool) (num den : Nat) (e : Int) : (round s num den e).isNaN = false := by
  rcases round_cases s num den e with h | h | ⟨mag, h1, h2, h⟩ <;> rw [h]
  · exact isNaN_zeroOf s
  · rw [isNaN, magBits_infOf]; exact decide_eq_false (lt_irrefl _)
  · rw [isNaN, magBits_ofMag s (lt_trans h2 infMag_lt)]
    exact decide_eq_false (not_lt.mpr (le_of_lt h2))

@[simp] theorem daz_int (n : Int) : (int n).daz = int n := daz_round _ _ _ _

@[simp] theorem isNaN_int (n : Int) : (int n).isNaN = false := isNaN_round _ _ _ _

@[simp] theorem daz_zero : zero.daz = zero := by decide

/-- `floor` of a datum that is not a NaN is a zero of its sign, itself an infinity, or an integer (00_scope.md R11). -/
theorem floor_cases {x : F64} (h : x.isNaN = false) :
    (x.isInf = true ∧ x.floor = x) ∨ (∃ s, x.floor = zeroOf s) ∨ ∃ n, x.floor = int n := by
  unfold floor
  rw [if_neg (by rw [h]; decide)]
  split
  · exact .inl ⟨‹_›, rfl⟩
  · split
    · exact .inr (.inl ⟨_, rfl⟩)
    · exact .inr (.inr ⟨_, rfl⟩)

/-- The sum of a datum that is not a NaN and a finite one is not a NaN. -/
theorem isNaN_add_finite {a b : F64} (ha : a.isNaN = false) (hb : b.isFinite = true) : (a.add b).isNaN = false := by
  have hb' := isNaN_of_isFinite hb
  have hbi : b.isInf = false := by
    rw [isFinite_iff] at hb
    rw [isInf]
    exact decide_eq_false (by simp only [infMag]; omega)
  unfold add
  simp only [ha, hb', hbi, Bool.or_self, Bool.false_eq_true, if_false, Bool.false_and]
  split
  · exact ha
  · split
    · exact isNaN_zeroOf _
    · split
      · exact hb'
      · split
        · exact ha
        · exact isNaN_round _ _ _ _

/-- A product by minus one is the negated product by one. -/
theorem mul_neg_one {x : F64} (h : ((int (-1)).mul x).isNaN = false) : (int (-1)).mul x = ((int 1).mul x).negate := by
  have hs : (int (-1)).sig = (int 1).sig := by decide
  have he : (int (-1)).expo = (int 1).expo := by decide
  have s1 : (int (-1)).sign = true := by decide
  have s2 : (int 1).sign = false := by decide
  have n1 : (int (-1)).isNaN = false := by decide
  have n2 : (int 1).isNaN = false := by decide
  have i1 : (int (-1)).isInf = false := by decide
  have i2 : (int 1).isInf = false := by decide
  have z1 : (int (-1)).isZero = false := by decide
  have z2 : (int 1).isZero = false := by decide
  unfold mul at h ⊢
  simp only [s1, s2, n1, n2, i1, i2, z1, z2, hs, he, Bool.false_or] at h ⊢
  by_cases hn : x.isNaN = true
  · simp [hn] at h
  · simp only [hn, Bool.false_eq_true, if_false] at h ⊢
    by_cases hi : x.isInf = true
    · have hz : x.isZero = false := by
        rw [isInf, decide_eq_true_iff] at hi
        rw [isZero, hi]
        exact decide_eq_false (not_lt.mpr le_infMag)
      simp only [hi, hz, if_true, Bool.false_eq_true, if_false]
      rw [negate, isZero, magBits_infOf, decide_eq_false (not_lt.mpr le_infMag), sign_infOf]
      cases x.sign <;> rfl
    · simp only [hi, Bool.false_eq_true, if_false]
      rw [negate_round]
      cases x.sign <;> rfl

end Sys2Proof.F64
end

