-- ==== Sys2Proof/Laws/Params.lean ====
section
/-! SUPPORT. Laws of the parameter register file (10_state.md R40). -/

namespace Sys2Proof.Machine

@[simp] theorem OscParams.get_set_same (q : OscParams) (r : OscReg) (x : F64) : (q.set r x).get r = x := by
  cases r <;> rfl

@[simp] theorem OscParams.get_set_ne (q : OscParams) {r r' : OscReg} (h : r' ≠ r) (x : F64) :
    (q.set r x).get r' = q.get r' := by
  cases r <;> cases r' <;> first | rfl | exact absurd rfl h

@[simp] theorem EnvParams.get_set_same (q : EnvParams) (r : EnvReg) (x : F64) : (q.set r x).get r = x := by
  cases r <;> rfl

@[simp] theorem EnvParams.get_set_ne (q : EnvParams) {r r' : EnvReg} (h : r' ≠ r) (x : F64) :
    (q.set r x).get r' = q.get r' := by
  cases r <;> cases r' <;> first | rfl | exact absurd rfl h

/-- A written register reads back what was written. -/
@[simp] theorem Params.get_set_same (p : Params) (r : ParamReg) (x : F64) : (p.set r x).get r = x := by
  cases r with
  | osc o r => cases o <;> exact OscParams.get_set_same _ r x
  | env e r => cases e <;> exact EnvParams.get_set_same _ r x
  | _ => rfl

/-- A write leaves every other register alone. -/
@[simp] theorem Params.get_set_ne (p : Params) {r r' : ParamReg} (h : r' ≠ r) (x : F64) :
    (p.set r x).get r' = p.get r' := by
  cases r with
  | osc o r =>
    cases r' with
    | osc o' r' =>
      cases o <;> cases o' <;>
        first
        | rfl
        | exact OscParams.get_set_ne _ (fun e => h (by rw [e])) x
    | env e' r' => cases o <;> cases e' <;> rfl
    | _ => cases o <;> rfl
  | env e r =>
    cases r' with
    | osc o' r' => cases e <;> cases o' <;> rfl
    | env e' r' =>
      cases e <;> cases e' <;>
        first
        | rfl
        | exact EnvParams.get_set_ne _ (fun e => h (by rw [e])) x
    | _ => cases e <;> rfl
  | _ =>
    cases r' with
    | osc o' r' => cases o' <;> rfl
    | env e' r' => cases e' <;> rfl
    | _ => first | rfl | exact absurd rfl h

/-- The list of registers holds every register. -/
theorem ParamReg.mem_all (r : ParamReg) : r ∈ ParamReg.all := by
  cases r with
  | osc o r => cases o <;> cases r <;> decide
  | env e r => cases e <;> cases r <;> decide
  | _ => decide

/-- The register of a register's index is the register itself. -/
@[simp] theorem ParamReg.ofIndex_index (r : ParamReg) : ParamReg.ofIndex r.index = some r := by
  cases r with
  | osc o r => cases o <;> cases r <;> decide
  | env e r => cases e <;> cases r <;> decide
  | _ => decide

/-- A register found by an index has that index. -/
theorem ParamReg.index_of_ofIndex {idx : Nat} {r : ParamReg} (h : ParamReg.ofIndex idx = some r) : r.index = idx := by
  simpa using List.find?_some h

end Sys2Proof.Machine
end

