-- ==== Sys2Proof/Laws/State.lean ====
section
/-! SUPPORT. One lemma per field per update of the state, each true by `rfl`, so that no later proof unfolds a record
update; and reading a voice slot after a slot was written. -/

namespace Sys2Proof.Machine

variable (s : State)

/-! ### `raise` -/

@[simp] theorem raise_g (e : CmdError) : (s.raise e).g = s.g := rfl
@[simp] theorem raise_p (e : CmdError) : (s.raise e).p = s.p := rfl
@[simp] theorem raise_v (e : CmdError) : (s.raise e).v = s.v := rfl
@[simp] theorem raise_s (e : CmdError) : (s.raise e).s = s.s.record e := rfl
@[simp] theorem raise_cmd (e : CmdError) : (s.raise e).cmd = s.cmd := rfl
@[simp] theorem raise_cmdPos (e : CmdError) : (s.raise e).cmdPos = s.cmdPos := rfl
@[simp] theorem raise_modIn (e : CmdError) : (s.raise e).modIn = s.modIn := rfl
@[simp] theorem raise_modPos (e : CmdError) : (s.raise e).modPos = s.modPos := rfl
@[simp] theorem raise_out (e : CmdError) : (s.raise e).out = s.out := rfl

/-! ### `consume` -/

@[simp] theorem consume_g (n : Nat) : (s.consume n).g = s.g := rfl
@[simp] theorem consume_p (n : Nat) : (s.consume n).p = s.p := rfl
@[simp] theorem consume_v (n : Nat) : (s.consume n).v = s.v := rfl
@[simp] theorem consume_s (n : Nat) : (s.consume n).s = s.s := rfl
@[simp] theorem consume_cmd (n : Nat) : (s.consume n).cmd = s.cmd.drop n := rfl
@[simp] theorem consume_cmdPos (n : Nat) : (s.consume n).cmdPos = s.cmdPos + n := rfl
@[simp] theorem consume_modIn (n : Nat) : (s.consume n).modIn = s.modIn := rfl
@[simp] theorem consume_modPos (n : Nat) : (s.consume n).modPos = s.modPos := rfl
@[simp] theorem consume_out (n : Nat) : (s.consume n).out = s.out := rfl

/-! ### `setVoices` -/

@[simp] theorem setVoices_g (v : Vector Voice 33) : (s.setVoices v).g = s.g := rfl
@[simp] theorem setVoices_p (v : Vector Voice 33) : (s.setVoices v).p = s.p := rfl
@[simp] theorem setVoices_s (v : Vector Voice 33) : (s.setVoices v).s = s.s := rfl
@[simp] theorem setVoices_cmd (v : Vector Voice 33) : (s.setVoices v).cmd = s.cmd := rfl
@[simp] theorem setVoices_cmdPos (v : Vector Voice 33) : (s.setVoices v).cmdPos = s.cmdPos := rfl
@[simp] theorem setVoices_modIn (v : Vector Voice 33) : (s.setVoices v).modIn = s.modIn := rfl
@[simp] theorem setVoices_modPos (v : Vector Voice 33) : (s.setVoices v).modPos = s.modPos := rfl
@[simp] theorem setVoices_out (v : Vector Voice 33) : (s.setVoices v).out = s.out := rfl
@[simp] theorem setVoices_v (v : Vector Voice 33) : (s.setVoices v).v = v := rfl

/-! ### `setVoice` -/

@[simp] theorem setVoice_g (i : Slot) (w : Voice) : (s.setVoice i w).g = s.g := rfl
@[simp] theorem setVoice_p (i : Slot) (w : Voice) : (s.setVoice i w).p = s.p := rfl
@[simp] theorem setVoice_v (i : Slot) (w : Voice) : (s.setVoice i w).v = s.v.set i w := rfl
@[simp] theorem setVoice_s (i : Slot) (w : Voice) : (s.setVoice i w).s = s.s := rfl
@[simp] theorem setVoice_cmd (i : Slot) (w : Voice) : (s.setVoice i w).cmd = s.cmd := rfl
@[simp] theorem setVoice_cmdPos (i : Slot) (w : Voice) : (s.setVoice i w).cmdPos = s.cmdPos := rfl
@[simp] theorem setVoice_modIn (i : Slot) (w : Voice) : (s.setVoice i w).modIn = s.modIn := rfl
@[simp] theorem setVoice_modPos (i : Slot) (w : Voice) : (s.setVoice i w).modPos = s.modPos := rfl
@[simp] theorem setVoice_out (i : Slot) (w : Voice) : (s.setVoice i w).out = s.out := rfl

/-! ### `onVoice` -/

@[simp] theorem onVoice_g (i : Slot) (f : Voice → Voice) : (s.onVoice i f).g = s.g := rfl
@[simp] theorem onVoice_p (i : Slot) (f : Voice → Voice) : (s.onVoice i f).p = s.p := rfl
@[simp] theorem onVoice_v (i : Slot) (f : Voice → Voice) : (s.onVoice i f).v = s.v.set i (f (s.voice i)) := rfl
@[simp] theorem onVoice_s (i : Slot) (f : Voice → Voice) : (s.onVoice i f).s = s.s := rfl
@[simp] theorem onVoice_cmd (i : Slot) (f : Voice → Voice) : (s.onVoice i f).cmd = s.cmd := rfl
@[simp] theorem onVoice_cmdPos (i : Slot) (f : Voice → Voice) : (s.onVoice i f).cmdPos = s.cmdPos := rfl
@[simp] theorem onVoice_modIn (i : Slot) (f : Voice → Voice) : (s.onVoice i f).modIn = s.modIn := rfl
@[simp] theorem onVoice_modPos (i : Slot) (f : Voice → Voice) : (s.onVoice i f).modPos = s.modPos := rfl
@[simp] theorem onVoice_out (i : Slot) (f : Voice → Voice) : (s.onVoice i f).out = s.out := rfl

/-! ### `setStack` -/

@[simp] theorem setStack_g (st : List Nat) : (s.setStack st).g = { s.g with stack := st } := rfl
@[simp] theorem setStack_p (st : List Nat) : (s.setStack st).p = s.p := rfl
@[simp] theorem setStack_v (st : List Nat) : (s.setStack st).v = s.v := rfl
@[simp] theorem setStack_s (st : List Nat) : (s.setStack st).s = s.s := rfl
@[simp] theorem setStack_cmd (st : List Nat) : (s.setStack st).cmd = s.cmd := rfl
@[simp] theorem setStack_cmdPos (st : List Nat) : (s.setStack st).cmdPos = s.cmdPos := rfl
@[simp] theorem setStack_modIn (st : List Nat) : (s.setStack st).modIn = s.modIn := rfl
@[simp] theorem setStack_modPos (st : List Nat) : (s.setStack st).modPos = s.modPos := rfl
@[simp] theorem setStack_out (st : List Nat) : (s.setStack st).out = s.out := rfl

/-! ### `writeParam` -/

@[simp] theorem writeParam_g (r : ParamReg) (x : F64) : (s.writeParam r x).g = s.g := rfl
@[simp] theorem writeParam_p (r : ParamReg) (x : F64) : (s.writeParam r x).p = s.p.set r (r.stored x) := rfl
@[simp] theorem writeParam_v (r : ParamReg) (x : F64) : (s.writeParam r x).v = s.v := rfl
@[simp] theorem writeParam_s (r : ParamReg) (x : F64) : (s.writeParam r x).s = s.s := rfl
@[simp] theorem writeParam_cmd (r : ParamReg) (x : F64) : (s.writeParam r x).cmd = s.cmd := rfl
@[simp] theorem writeParam_cmdPos (r : ParamReg) (x : F64) : (s.writeParam r x).cmdPos = s.cmdPos := rfl
@[simp] theorem writeParam_modIn (r : ParamReg) (x : F64) : (s.writeParam r x).modIn = s.modIn := rfl
@[simp] theorem writeParam_modPos (r : ParamReg) (x : F64) : (s.writeParam r x).modPos = s.modPos := rfl
@[simp] theorem writeParam_out (r : ParamReg) (x : F64) : (s.writeParam r x).out = s.out := rfl

/-! ### `afterReset` -/

@[simp] theorem afterReset_g (bs : Nat) (sr : F64) : (s.afterReset bs sr).g =
    { s.g with configured := true, fs := sr, blockSize := bs, relMul := 1, stack := [] } := rfl
@[simp] theorem afterReset_p (bs : Nat) (sr : F64) : (s.afterReset bs sr).p = s.p := rfl
@[simp] theorem afterReset_v (bs : Nat) (sr : F64) : (s.afterReset bs sr).v = Vector.replicate 33 Voice.reset := rfl
@[simp] theorem afterReset_s (bs : Nat) (sr : F64) : (s.afterReset bs sr).s = s.s := rfl
@[simp] theorem afterReset_cmd (bs : Nat) (sr : F64) : (s.afterReset bs sr).cmd = s.cmd := rfl
@[simp] theorem afterReset_cmdPos (bs : Nat) (sr : F64) : (s.afterReset bs sr).cmdPos = s.cmdPos := rfl
@[simp] theorem afterReset_modIn (bs : Nat) (sr : F64) : (s.afterReset bs sr).modIn = s.modIn := rfl
@[simp] theorem afterReset_modPos (bs : Nat) (sr : F64) : (s.afterReset bs sr).modPos = s.modPos := rfl
@[simp] theorem afterReset_out (bs : Nat) (sr : F64) : (s.afterReset bs sr).out = s.out := rfl

/-! ### `placeWords` -/

@[simp] theorem placeWords_g (ws : List Word) : (s.placeWords ws).g = s.g := rfl
@[simp] theorem placeWords_p (ws : List Word) : (s.placeWords ws).p = s.p := rfl
@[simp] theorem placeWords_v (ws : List Word) : (s.placeWords ws).v = s.v := rfl
@[simp] theorem placeWords_s (ws : List Word) : (s.placeWords ws).s = s.s := rfl
@[simp] theorem placeWords_cmd (ws : List Word) : (s.placeWords ws).cmd = ws ++ s.cmd.drop ws.length := rfl
@[simp] theorem placeWords_cmdPos (ws : List Word) : (s.placeWords ws).cmdPos = s.cmdPos := rfl
@[simp] theorem placeWords_modIn (ws : List Word) : (s.placeWords ws).modIn = s.modIn := rfl
@[simp] theorem placeWords_modPos (ws : List Word) : (s.placeWords ws).modPos = s.modPos := rfl
@[simp] theorem placeWords_out (ws : List Word) : (s.placeWords ws).out = s.out := rfl

/-! ### `trigger` -/

@[simp] theorem trigger_g (i : Slot) (note vel : Nat) (xS : Decimal) : (s.trigger i note vel xS).g = s.g := rfl
@[simp] theorem trigger_p (i : Slot) (note vel : Nat) (xS : Decimal) : (s.trigger i note vel xS).p = s.p := rfl
@[simp] theorem trigger_s (i : Slot) (note vel : Nat) (xS : Decimal) : (s.trigger i note vel xS).s = s.s := rfl
@[simp] theorem trigger_cmd (i : Slot) (note vel : Nat) (xS : Decimal) : (s.trigger i note vel xS).cmd = s.cmd := rfl
@[simp] theorem trigger_cmdPos (i : Slot) (note vel : Nat) (xS : Decimal) : (s.trigger i note vel xS).cmdPos = s.cmdPos := rfl
@[simp] theorem trigger_modIn (i : Slot) (note vel : Nat) (xS : Decimal) : (s.trigger i note vel xS).modIn = s.modIn := rfl
@[simp] theorem trigger_modPos (i : Slot) (note vel : Nat) (xS : Decimal) : (s.trigger i note vel xS).modPos = s.modPos := rfl
@[simp] theorem trigger_out (i : Slot) (note vel : Nat) (xS : Decimal) : (s.trigger i note vel xS).out = s.out := rfl

/-! ### `setPitch` -/

@[simp] theorem setPitch_g (i : Slot) (note : Nat) (b : Bool) : (s.setPitch i note b).g = s.g := rfl
@[simp] theorem setPitch_p (i : Slot) (note : Nat) (b : Bool) : (s.setPitch i note b).p = s.p := rfl
@[simp] theorem setPitch_s (i : Slot) (note : Nat) (b : Bool) : (s.setPitch i note b).s = s.s := rfl
@[simp] theorem setPitch_cmd (i : Slot) (note : Nat) (b : Bool) : (s.setPitch i note b).cmd = s.cmd := rfl
@[simp] theorem setPitch_cmdPos (i : Slot) (note : Nat) (b : Bool) : (s.setPitch i note b).cmdPos = s.cmdPos := rfl
@[simp] theorem setPitch_modIn (i : Slot) (note : Nat) (b : Bool) : (s.setPitch i note b).modIn = s.modIn := rfl
@[simp] theorem setPitch_modPos (i : Slot) (note : Nat) (b : Bool) : (s.setPitch i note b).modPos = s.modPos := rfl
@[simp] theorem setPitch_out (i : Slot) (note : Nat) (b : Bool) : (s.setPitch i note b).out = s.out := rfl

/-! ### `release` -/

@[simp] theorem release_g (i : Slot) : (s.release i).g = s.g := rfl
@[simp] theorem release_p (i : Slot) : (s.release i).p = s.p := rfl
@[simp] theorem release_s (i : Slot) : (s.release i).s = s.s := rfl
@[simp] theorem release_cmd (i : Slot) : (s.release i).cmd = s.cmd := rfl
@[simp] theorem release_cmdPos (i : Slot) : (s.release i).cmdPos = s.cmdPos := rfl
@[simp] theorem release_modIn (i : Slot) : (s.release i).modIn = s.modIn := rfl
@[simp] theorem release_modPos (i : Slot) : (s.release i).modPos = s.modPos := rfl
@[simp] theorem release_out (i : Slot) : (s.release i).out = s.out := rfl

/-! ### `stealVoice` -/

@[simp] theorem stealVoice_g (i : Slot) (note vel : Nat) : (s.stealVoice i note vel).g = s.g := rfl
@[simp] theorem stealVoice_p (i : Slot) (note vel : Nat) : (s.stealVoice i note vel).p = s.p := rfl
@[simp] theorem stealVoice_s (i : Slot) (note vel : Nat) : (s.stealVoice i note vel).s = s.s := rfl
@[simp] theorem stealVoice_cmd (i : Slot) (note vel : Nat) : (s.stealVoice i note vel).cmd = s.cmd := rfl
@[simp] theorem stealVoice_cmdPos (i : Slot) (note vel : Nat) : (s.stealVoice i note vel).cmdPos = s.cmdPos := rfl
@[simp] theorem stealVoice_modIn (i : Slot) (note vel : Nat) : (s.stealVoice i note vel).modIn = s.modIn := rfl
@[simp] theorem stealVoice_modPos (i : Slot) (note vel : Nat) : (s.stealVoice i note vel).modPos = s.modPos := rfl
@[simp] theorem stealVoice_out (i : Slot) (note vel : Nat) : (s.stealVoice i note vel).out = s.out := rfl

/-! ### `polyNoteOff` -/

@[simp] theorem polyNoteOff_g (note : Nat) : (s.polyNoteOff note).g = s.g := setVoices_g s _
@[simp] theorem polyNoteOff_p (note : Nat) : (s.polyNoteOff note).p = s.p := setVoices_p s _
@[simp] theorem polyNoteOff_s (note : Nat) : (s.polyNoteOff note).s = s.s := setVoices_s s _
@[simp] theorem polyNoteOff_cmd (note : Nat) : (s.polyNoteOff note).cmd = s.cmd := setVoices_cmd s _
@[simp] theorem polyNoteOff_cmdPos (note : Nat) : (s.polyNoteOff note).cmdPos = s.cmdPos := setVoices_cmdPos s _
@[simp] theorem polyNoteOff_modIn (note : Nat) : (s.polyNoteOff note).modIn = s.modIn := setVoices_modIn s _
@[simp] theorem polyNoteOff_modPos (note : Nat) : (s.polyNoteOff note).modPos = s.modPos := setVoices_modPos s _
@[simp] theorem polyNoteOff_out (note : Nat) : (s.polyNoteOff note).out = s.out := setVoices_out s _

/-! ### `hardCap` -/

@[simp] theorem hardCap_g (a : Nat) : (s.hardCap a).g = s.g := setVoices_g s _
@[simp] theorem hardCap_p (a : Nat) : (s.hardCap a).p = s.p := setVoices_p s _
@[simp] theorem hardCap_s (a : Nat) : (s.hardCap a).s = s.s := setVoices_s s _
@[simp] theorem hardCap_cmd (a : Nat) : (s.hardCap a).cmd = s.cmd := setVoices_cmd s _
@[simp] theorem hardCap_cmdPos (a : Nat) : (s.hardCap a).cmdPos = s.cmdPos := setVoices_cmdPos s _
@[simp] theorem hardCap_modIn (a : Nat) : (s.hardCap a).modIn = s.modIn := setVoices_modIn s _
@[simp] theorem hardCap_modPos (a : Nat) : (s.hardCap a).modPos = s.modPos := setVoices_modPos s _
@[simp] theorem hardCap_out (a : Nat) : (s.hardCap a).out = s.out := setVoices_out s _

/-! ### `housekeeping` -/

@[simp] theorem housekeeping_g : (s.housekeeping).g = 
    { s.g with relMul := relMulFor (activeCount s.v) } := by
  unfold State.housekeeping; simp
@[simp] theorem housekeeping_p : (s.housekeeping).p = s.p := by
  unfold State.housekeeping; simp
@[simp] theorem housekeeping_s : (s.housekeeping).s = s.s := by
  unfold State.housekeeping; simp
@[simp] theorem housekeeping_cmd : (s.housekeeping).cmd = s.cmd := by
  unfold State.housekeeping; simp
@[simp] theorem housekeeping_cmdPos : (s.housekeeping).cmdPos = s.cmdPos := by
  unfold State.housekeeping; simp
@[simp] theorem housekeeping_modIn : (s.housekeeping).modIn = s.modIn := by
  unfold State.housekeeping; simp
@[simp] theorem housekeeping_modPos : (s.housekeeping).modPos = s.modPos := by
  unfold State.housekeeping; simp
@[simp] theorem housekeeping_out : (s.housekeeping).out = s.out := by
  unfold State.housekeeping; simp

/-! ### Reading a voice slot -/

theorem State.voice_eq (i : Slot) : s.voice i = s.v[i] := rfl

@[simp] theorem voice_setVoice_same (i : Slot) (w : Voice) : (s.setVoice i w).voice i = w := by
  simp [State.voice, State.setVoice]

@[simp] theorem voice_setVoice_ne {i j : Slot} (h : i ≠ j) (w : Voice) : (s.setVoice i w).voice j = s.voice j := by
  have h' : (i : Nat) ≠ j := fun e => h (Fin.ext e)
  simp [State.voice, State.setVoice, h']

@[simp] theorem voice_onVoice_same (i : Slot) (f : Voice → Voice) : (s.onVoice i f).voice i = f (s.voice i) :=
  voice_setVoice_same s i _

@[simp] theorem voice_onVoice_ne {i j : Slot} (h : i ≠ j) (f : Voice → Voice) : (s.onVoice i f).voice j = s.voice j :=
  voice_setVoice_ne s h _

@[simp] theorem voice_setStack (i : Slot) (st : List Nat) : (s.setStack st).voice i = s.voice i := rfl

@[simp] theorem voice_raise (i : Slot) (e : CmdError) : (s.raise e).voice i = s.voice i := rfl

@[simp] theorem voice_consume (i : Slot) (n : Nat) : (s.consume n).voice i = s.voice i := rfl

@[simp] theorem voice_afterReset (i : Slot) (bs : Nat) (sr : F64) : (s.afterReset bs sr).voice i = Voice.reset := by
  simp [State.voice, State.afterReset]

@[simp] theorem getElem_mapVoices (f : Voice → Voice) (v : Vector Voice 33) (i : Slot) :
    (mapVoices f v)[i] = f v[i] := by simp [mapVoices]

@[simp] theorem getElem_ofFn_slot {α : Type} (f : Slot → α) (i : Slot) : (Vector.ofFn f)[i] = f i := by simp

/-- What a NOTE_OFF in POLY mode does to each slot (49_voice_pool.md R494). -/
theorem voice_polyNoteOff (i : Slot) (note : Nat) :
    (s.polyNoteOff note).voice i =
      if i.val < 32 ∧ (s.voice i).sounding = true ∧ (s.voice i).note = note ∧ (s.voice i).isReleasing = false
      then (s.voice i).release else s.voice i :=
  getElem_ofFn_slot _ i

/-- What the hard cap does to each slot (49_voice_pool.md R501). -/
theorem voice_hardCap (i : Slot) (a : Nat) :
    (s.hardCap a).voice i = if i ∈ hardCapSlots s.v a then (s.voice i).fadeStart s.g.fs else s.voice i :=
  getElem_ofFn_slot _ i

/-- Every slot is in `allSlots`. -/
theorem mem_allSlots (i : Slot) : i ∈ allSlots := by revert i; decide

/-- The pool slots are those below 32 (00_scope.md R9). -/
theorem mem_poolSlots (i : Slot) : i ∈ poolSlots ↔ i.val < 32 := by revert i; decide

end Sys2Proof.Machine
end

