-- ==== Sys2Proof/Laws/Voice.lean ====
section
/-! SUPPORT. Laws of the operations on one voice: what each leaves alone, where it leads the envelopes, and that it keeps
`VoiceInv` (48_voice.md, 46_envelope.md). -/

namespace Sys2Proof.Machine

variable (w : Voice)

/-! ### Times -/

theorem atLeastOne_pos (n : Int) : 1 ≤ atLeastOne n := by unfold atLeastOne; omega

/-- A time in samples is never 0 (00_scope.md R13). -/
theorem nS_pos (fs t : F64) : 1 ≤ nS fs t := atLeastOne_pos _

/-- A time in samples is never 0 (00_scope.md R13). -/
theorem nSms_pos (fs t : F64) : 1 ≤ nSms fs t := atLeastOne_pos _

/-! ### Envelopes -/

@[simp] theorem envTrigger_phase (cap : F64) (nX : Nat) : (envTrigger cap nX).phase = .attack := by
  unfold envTrigger; split <;> rfl

theorem envTrigger_inv (cap : F64) {nX : Nat} (h : 1 ≤ nX) : EnvInv (envTrigger cap nX) := by
  unfold envTrigger EnvInv
  split
  · intro h0; simp only at h0; omega
  · intro; rfl

@[simp] theorem floorStep_phase (e : Env) : (floorStep e).phase = e.phase := by unfold floorStep; split <;> rfl

@[simp] theorem floorStep_level (e : Env) : (floorStep e).level = e.level := by unfold floorStep; split <;> rfl

/-- The floor is exactly 0 on the frame its count runs out (46_envelope.md R408). -/
theorem floorStep_inv {e : Env} (h : EnvInv e) : EnvInv (floorStep e) := by
  unfold floorStep EnvInv at *
  split
  · intro h0
    simp only at h0 ⊢
    rw [if_pos (by omega)]
  · exact h

@[simp] theorem segmentStep_floor (fs velT : F64) (relMul : Nat) (q : EnvParams) (e : Env) :
    (segmentStep fs velT relMul q e).floor = e.floor := by
  unfold segmentStep attackStep decayStep releaseStep
  split <;> dsimp only <;> first | rfl | (split <;> rfl)

@[simp] theorem segmentStep_floorRem (fs velT : F64) (relMul : Nat) (q : EnvParams) (e : Env) :
    (segmentStep fs velT relMul q e).floorRem = e.floorRem := by
  unfold segmentStep attackStep decayStep releaseStep
  split <;> dsimp only <;> first | rfl | (split <;> rfl)

/-- An envelope step makes only the changes of phase of 46_envelope.md R391. -/
theorem envStep_phase (fs velT : F64) (relMul : Nat) (q : EnvParams) (e : Env) :
    phaseMay e.phase (envStep fs velT relMul q e).phase = true := by
  unfold envStep
  rw [floorStep_phase]
  unfold segmentStep attackStep decayStep releaseStep
  cases h : e.phase <;> simp only <;> first | (split <;> simp only [phaseMay]) | simp only [h, phaseMay]

theorem envStep_inv (fs velT : F64) (relMul : Nat) (q : EnvParams) {e : Env} (h : EnvInv e) :
    EnvInv (envStep fs velT relMul q e) :=
  floorStep_inv (by unfold EnvInv; rw [segmentStep_floorRem, segmentStep_floor]; exact h)

@[simp] theorem envRelease_phase (e : Env) :
    (envRelease e).phase = if e.phase = .idle then .idle else .release := by
  unfold envRelease; split <;> simp_all

theorem envRelease_inv {e : Env} (h : EnvInv e) : EnvInv (envRelease e) := by
  unfold envRelease
  split
  · exact h
  · intro; rfl

/-! ### Filters -/

/-- The states a tick leaves are finite (47_filter.md R438, R441). -/
theorem sanitise_finite (c : Svf) : SvfInv c.sanitise := by
  unfold Svf.sanitise SvfInv
  split
  · rename_i h
    rw [Bool.and_eq_true] at h
    unfold flushState
    constructor <;> (dsimp only; split) <;> simp [h.1, h.2]
  · simp

theorem svfTick_finite (k : FilterCoefs) (ty : F64) (c : Svf) (x : F64) : SvfInv (svfTick k ty c x).1 :=
  sanitise_finite _

theorem filterStage_finite (fs : F64) (p : Params) (fEff co : F64) {l r : Svf} (x : Frame)
    (h : SvfInv l ∧ SvfInv r) :
    SvfInv (filterStage fs p fEff co l r x).1 ∧ SvfInv (filterStage fs p fEff co l r x).2.1 := by
  unfold filterStage
  split
  · exact h
  · exact ⟨sanitise_finite _, sanitise_finite _⟩

/-! ### What the stages of a frame leave alone -/

@[simp] theorem glideFrame_note : w.glideFrame.note = w.note := by unfold Voice.glideFrame; split <;> rfl
@[simp] theorem glideFrame_velRaw : w.glideFrame.velRaw = w.velRaw := by unfold Voice.glideFrame; split <;> rfl
@[simp] theorem glideFrame_velT : w.glideFrame.velT = w.velT := by unfold Voice.glideFrame; split <;> rfl
@[simp] theorem glideFrame_velTgt : w.glideFrame.velTgt = w.velTgt := by unfold Voice.glideFrame; split <;> rfl
@[simp] theorem glideFrame_isReleasing : w.glideFrame.isReleasing = w.isReleasing := by unfold Voice.glideFrame; split <;> rfl
@[simp] theorem glideFrame_forceRecycle : w.glideFrame.forceRecycle = w.forceRecycle := by unfold Voice.glideFrame; split <;> rfl
@[simp] theorem glideFrame_fading : w.glideFrame.fading = w.fading := by unfold Voice.glideFrame; split <;> rfl
@[simp] theorem glideFrame_fadeRem : w.glideFrame.fadeRem = w.fadeRem := by unfold Voice.glideFrame; split <;> rfl
@[simp] theorem glideFrame_fadeLen : w.glideFrame.fadeLen = w.fadeLen := by unfold Voice.glideFrame; split <;> rfl
@[simp] theorem glideFrame_amp : w.glideFrame.amp = w.amp := by unfold Voice.glideFrame; split <;> rfl
@[simp] theorem glideFrame_filt : w.glideFrame.filt = w.filt := by unfold Voice.glideFrame; split <;> rfl
@[simp] theorem glideFrame_svfL : w.glideFrame.svfL = w.svfL := by unfold Voice.glideFrame; split <;> rfl
@[simp] theorem glideFrame_svfR : w.glideFrame.svfR = w.svfR := by unfold Voice.glideFrame; split <;> rfl
@[simp] theorem glideFrame_vel : w.glideFrame.vel = w.vel := by unfold Voice.glideFrame; split <;> rfl
@[simp] theorem glideFrame_pitchTgt : w.glideFrame.pitchTgt = w.pitchTgt := by unfold Voice.glideFrame; split <;> rfl
@[simp] theorem glideFrame_glideStep : w.glideFrame.glideStep = w.glideStep := by unfold Voice.glideFrame; split <;> rfl
@[simp] theorem glideFrame_osc1 : w.glideFrame.osc1 = w.osc1 := by unfold Voice.glideFrame; split <;> rfl
@[simp] theorem glideFrame_osc2 : w.glideFrame.osc2 = w.osc2 := by unfold Voice.glideFrame; split <;> rfl
@[simp] theorem glideFrame_subPh : w.glideFrame.subPh = w.subPh := by unfold Voice.glideFrame; split <;> rfl

@[simp] theorem setPitch_voice_note (fs : F64) (p : Params) (t : F64) (b : Bool) :
    (w.setPitch fs p t b).note = w.note := by unfold Voice.setPitch; split <;> rfl
@[simp] theorem setPitch_voice_velRaw (fs : F64) (p : Params) (t : F64) (b : Bool) :
    (w.setPitch fs p t b).velRaw = w.velRaw := by unfold Voice.setPitch; split <;> rfl
@[simp] theorem setPitch_voice_velT (fs : F64) (p : Params) (t : F64) (b : Bool) :
    (w.setPitch fs p t b).velT = w.velT := by unfold Voice.setPitch; split <;> rfl
@[simp] theorem setPitch_voice_velTgt (fs : F64) (p : Params) (t : F64) (b : Bool) :
    (w.setPitch fs p t b).velTgt = w.velTgt := by unfold Voice.setPitch; split <;> rfl
@[simp] theorem setPitch_voice_isReleasing (fs : F64) (p : Params) (t : F64) (b : Bool) :
    (w.setPitch fs p t b).isReleasing = w.isReleasing := by unfold Voice.setPitch; split <;> rfl
@[simp] theorem setPitch_voice_forceRecycle (fs : F64) (p : Params) (t : F64) (b : Bool) :
    (w.setPitch fs p t b).forceRecycle = w.forceRecycle := by unfold Voice.setPitch; split <;> rfl
@[simp] theorem setPitch_voice_fading (fs : F64) (p : Params) (t : F64) (b : Bool) :
    (w.setPitch fs p t b).fading = w.fading := by unfold Voice.setPitch; split <;> rfl
@[simp] theorem setPitch_voice_fadeRem (fs : F64) (p : Params) (t : F64) (b : Bool) :
    (w.setPitch fs p t b).fadeRem = w.fadeRem := by unfold Voice.setPitch; split <;> rfl
@[simp] theorem setPitch_voice_fadeLen (fs : F64) (p : Params) (t : F64) (b : Bool) :
    (w.setPitch fs p t b).fadeLen = w.fadeLen := by unfold Voice.setPitch; split <;> rfl
@[simp] theorem setPitch_voice_amp (fs : F64) (p : Params) (t : F64) (b : Bool) :
    (w.setPitch fs p t b).amp = w.amp := by unfold Voice.setPitch; split <;> rfl
@[simp] theorem setPitch_voice_filt (fs : F64) (p : Params) (t : F64) (b : Bool) :
    (w.setPitch fs p t b).filt = w.filt := by unfold Voice.setPitch; split <;> rfl
@[simp] theorem setPitch_voice_svfL (fs : F64) (p : Params) (t : F64) (b : Bool) :
    (w.setPitch fs p t b).svfL = w.svfL := by unfold Voice.setPitch; split <;> rfl
@[simp] theorem setPitch_voice_svfR (fs : F64) (p : Params) (t : F64) (b : Bool) :
    (w.setPitch fs p t b).svfR = w.svfR := by unfold Voice.setPitch; split <;> rfl
@[simp] theorem setPitch_voice_vel (fs : F64) (p : Params) (t : F64) (b : Bool) :
    (w.setPitch fs p t b).vel = w.vel := by unfold Voice.setPitch; split <;> rfl
@[simp] theorem setPitch_voice_osc1 (fs : F64) (p : Params) (t : F64) (b : Bool) :
    (w.setPitch fs p t b).osc1 = w.osc1 := by unfold Voice.setPitch; split <;> rfl
@[simp] theorem setPitch_voice_osc2 (fs : F64) (p : Params) (t : F64) (b : Bool) :
    (w.setPitch fs p t b).osc2 = w.osc2 := by unfold Voice.setPitch; split <;> rfl
@[simp] theorem setPitch_voice_subPh (fs : F64) (p : Params) (t : F64) (b : Bool) :
    (w.setPitch fs p t b).subPh = w.subPh := by unfold Voice.setPitch; split <;> rfl

@[simp] theorem oscMix_note (fs : F64) (p : Params) (pr : F64) : (oscMix fs p pr w).voice.note = w.note := by
  unfold oscMix; dsimp only; split <;> rfl
@[simp] theorem oscMix_velRaw (fs : F64) (p : Params) (pr : F64) : (oscMix fs p pr w).voice.velRaw = w.velRaw := by
  unfold oscMix; dsimp only; split <;> rfl
@[simp] theorem oscMix_velT (fs : F64) (p : Params) (pr : F64) : (oscMix fs p pr w).voice.velT = w.velT := by
  unfold oscMix; dsimp only; split <;> rfl
@[simp] theorem oscMix_velTgt (fs : F64) (p : Params) (pr : F64) : (oscMix fs p pr w).voice.velTgt = w.velTgt := by
  unfold oscMix; dsimp only; split <;> rfl
@[simp] theorem oscMix_isReleasing (fs : F64) (p : Params) (pr : F64) : (oscMix fs p pr w).voice.isReleasing = w.isReleasing := by
  unfold oscMix; dsimp only; split <;> rfl
@[simp] theorem oscMix_forceRecycle (fs : F64) (p : Params) (pr : F64) : (oscMix fs p pr w).voice.forceRecycle = w.forceRecycle := by
  unfold oscMix; dsimp only; split <;> rfl
@[simp] theorem oscMix_fading (fs : F64) (p : Params) (pr : F64) : (oscMix fs p pr w).voice.fading = w.fading := by
  unfold oscMix; dsimp only; split <;> rfl
@[simp] theorem oscMix_fadeRem (fs : F64) (p : Params) (pr : F64) : (oscMix fs p pr w).voice.fadeRem = w.fadeRem := by
  unfold oscMix; dsimp only; split <;> rfl
@[simp] theorem oscMix_fadeLen (fs : F64) (p : Params) (pr : F64) : (oscMix fs p pr w).voice.fadeLen = w.fadeLen := by
  unfold oscMix; dsimp only; split <;> rfl
@[simp] theorem oscMix_amp (fs : F64) (p : Params) (pr : F64) : (oscMix fs p pr w).voice.amp = w.amp := by
  unfold oscMix; dsimp only; split <;> rfl
@[simp] theorem oscMix_filt (fs : F64) (p : Params) (pr : F64) : (oscMix fs p pr w).voice.filt = w.filt := by
  unfold oscMix; dsimp only; split <;> rfl
@[simp] theorem oscMix_svfL (fs : F64) (p : Params) (pr : F64) : (oscMix fs p pr w).voice.svfL = w.svfL := by
  unfold oscMix; dsimp only; split <;> rfl
@[simp] theorem oscMix_svfR (fs : F64) (p : Params) (pr : F64) : (oscMix fs p pr w).voice.svfR = w.svfR := by
  unfold oscMix; dsimp only; split <;> rfl
@[simp] theorem oscMix_glideRem (fs : F64) (p : Params) (pr : F64) : (oscMix fs p pr w).voice.glideRem = w.glideRem := by
  unfold oscMix; dsimp only; split <;> rfl
@[simp] theorem oscMix_vel (fs : F64) (p : Params) (pr : F64) : (oscMix fs p pr w).voice.vel = w.vel := by
  unfold oscMix; dsimp only; split <;> rfl
@[simp] theorem oscMix_pitch (fs : F64) (p : Params) (pr : F64) : (oscMix fs p pr w).voice.pitch = w.pitch := by
  unfold oscMix; dsimp only; split <;> rfl
@[simp] theorem oscMix_pitchTgt (fs : F64) (p : Params) (pr : F64) : (oscMix fs p pr w).voice.pitchTgt = w.pitchTgt := by
  unfold oscMix; dsimp only; split <;> rfl
@[simp] theorem oscMix_glideStep (fs : F64) (p : Params) (pr : F64) : (oscMix fs p pr w).voice.glideStep = w.glideStep := by
  unfold oscMix; dsimp only; split <;> rfl

theorem sounding_iff : w.sounding = true ↔ w.amp.phase ≠ .idle := by simp [Voice.sounding]

theorem not_sounding_iff : w.sounding = false ↔ w.amp.phase = .idle := by simp [Voice.sounding]

/-- The voice as it stands before the end of its frame: everything of a frame but `EndOfFrame`. -/
def frameBody (g : Global) (p : Params) (m : ModFrame) (w : Voice) : Voice :=
  let w1 := ((w.glideFrame).smoothFrame g.fs p).envFrame g p
  let mix := oscMix g.fs p m.pitchRatio w1
  let flt := filterStage g.fs p w1.filt.eff m.cutoffOct mix.voice.svfL mix.voice.svfR mix.x
  { mix.voice with svfL := flt.1, svfR := flt.2.1 }

/-- The voice after its frame. -/
theorem soundingFrame_voice (g : Global) (p : Params) (m : ModFrame) :
    (soundingFrame g p m w).1 = (frameBody g p m w).endOfFrame := rfl

@[simp] theorem frameBody_note (g : Global) (p : Params) (m : ModFrame) : (frameBody g p m w).note = w.note := by
  simp [frameBody, Voice.envFrame, Voice.smoothFrame]
@[simp] theorem frameBody_velRaw (g : Global) (p : Params) (m : ModFrame) : (frameBody g p m w).velRaw = w.velRaw := by
  simp [frameBody, Voice.envFrame, Voice.smoothFrame]
@[simp] theorem frameBody_velT (g : Global) (p : Params) (m : ModFrame) : (frameBody g p m w).velT = w.velT := by
  simp [frameBody, Voice.envFrame, Voice.smoothFrame]
@[simp] theorem frameBody_velTgt (g : Global) (p : Params) (m : ModFrame) : (frameBody g p m w).velTgt = w.velTgt := by
  simp [frameBody, Voice.envFrame, Voice.smoothFrame]
@[simp] theorem frameBody_isReleasing (g : Global) (p : Params) (m : ModFrame) : (frameBody g p m w).isReleasing = w.isReleasing := by
  simp [frameBody, Voice.envFrame, Voice.smoothFrame]
@[simp] theorem frameBody_forceRecycle (g : Global) (p : Params) (m : ModFrame) : (frameBody g p m w).forceRecycle = w.forceRecycle := by
  simp [frameBody, Voice.envFrame, Voice.smoothFrame]
@[simp] theorem frameBody_fading (g : Global) (p : Params) (m : ModFrame) : (frameBody g p m w).fading = w.fading := by
  simp [frameBody, Voice.envFrame, Voice.smoothFrame]
@[simp] theorem frameBody_fadeRem (g : Global) (p : Params) (m : ModFrame) : (frameBody g p m w).fadeRem = w.fadeRem := by
  simp [frameBody, Voice.envFrame, Voice.smoothFrame]
@[simp] theorem frameBody_fadeLen (g : Global) (p : Params) (m : ModFrame) : (frameBody g p m w).fadeLen = w.fadeLen := by
  simp [frameBody, Voice.envFrame, Voice.smoothFrame]

@[simp] theorem frameBody_glideRem (g : Global) (p : Params) (m : ModFrame) :
    (frameBody g p m w).glideRem = w.glideRem - 1 := by
  simp only [frameBody, oscMix_glideRem, Voice.envFrame, Voice.smoothFrame, Voice.glideFrame]
  split <;> first | omega | rfl

@[simp] theorem frameBody_amp (g : Global) (p : Params) (m : ModFrame) :
    (frameBody g p m w).amp = envStep g.fs w.velT g.relMul p.amp w.amp := by
  simp [frameBody, Voice.envFrame, Voice.smoothFrame]

@[simp] theorem frameBody_filt (g : Global) (p : Params) (m : ModFrame) :
    (frameBody g p m w).filt = envStep g.fs w.velT g.relMul p.filt w.filt := by
  simp [frameBody, Voice.envFrame, Voice.smoothFrame]

theorem frameBody_filters (g : Global) (p : Params) (m : ModFrame) (h : SvfInv w.svfL ∧ SvfInv w.svfR) :
    SvfInv (frameBody g p m w).svfL ∧ SvfInv (frameBody g p m w).svfR := by
  refine filterStage_finite _ _ _ _ _ ?_
  rw [oscMix_svfL, oscMix_svfR]
  exact ⟨(glideFrame_svfL w).symm ▸ h.1, (glideFrame_svfR w).symm ▸ h.2⟩

/-! ### `VoiceInv` -/

theorem voiceInv_reset : VoiceInv Voice.reset where
  free _ := ⟨rfl, rfl, rfl, rfl⟩
  held h := absurd rfl h
  recycle := rfl
  fade h := absurd h (by decide)
  noFade _ := ⟨rfl, rfl⟩
  note := by decide
  velocity := ⟨by decide, fun h => absurd rfl h⟩
  ampFloor _ := rfl
  filtFloor _ := rfl
  filters := ⟨⟨by decide, by decide⟩, by decide, by decide⟩

variable {w}

/-- A trigger leaves a held voice with the new note (48_voice.md R470). -/
theorem voiceInv_trigger (fs : F64) (p : Params) {note vel : Nat} (xS : F64) (hn : note < 128)
    (hv : 1 ≤ vel ∧ vel < 128) (h : SvfInv w.svfL ∧ SvfInv w.svfR) : VoiceInv (w.trigger fs p note vel xS) where
  free h' := by simp [Voice.trigger] at h'
  held _ := by simp [Voice.trigger]
  recycle := rfl
  fade h' := absurd h' (by simp [Voice.trigger])
  noFade _ := ⟨rfl, rfl⟩
  note := hn
  velocity := ⟨hv.2, fun _ => hv.1⟩
  ampFloor := envTrigger_inv _ (nS_pos _ _)
  filtFloor := envTrigger_inv _ (nS_pos _ _)
  filters := by
    unfold Voice.trigger
    dsimp only
    split
    · exact h
    · exact ⟨⟨F64.isFinite_zero, F64.isFinite_zero⟩, F64.isFinite_zero, F64.isFinite_zero⟩

theorem voiceInv_setPitch (h : VoiceInv w) (fs : F64) (p : Params) (t : F64) (b : Bool) :
    VoiceInv (w.setPitch fs p t b) where
  free := by simpa using h.free
  held := by simpa using h.held
  recycle := by simpa using h.recycle
  fade := by simpa using h.fade
  noFade := by simpa using h.noFade
  note := by simpa using h.note
  velocity := by simpa using h.velocity
  ampFloor := by simpa using h.ampFloor
  filtFloor := by simpa using h.filtFloor
  filters := by simpa using h.filters

theorem voiceInv_release (h : VoiceInv w) : VoiceInv w.release := by
  unfold Voice.release
  split
  · rename_i hs
    rw [sounding_iff] at hs
    exact {
      free := fun h' => by simp [hs] at h'
      held := fun _ => by simp [hs]
      recycle := h.recycle
      fade := fun hf => ⟨rfl, (h.fade hf).2⟩
      noFade := h.noFade
      note := h.note
      velocity := ⟨h.velocity.1, fun _ => h.velocity.2 hs⟩
      ampFloor := envRelease_inv h.ampFloor
      filtFloor := envRelease_inv h.filtFloor
      filters := h.filters }
  · exact h

/-- A hard-cap fade starts on a voice that is releasing (49_voice_pool.md R501, R502). -/
theorem voiceInv_fadeStart (h : VoiceInv w) (hr : w.releasing = true) (fs : F64) : VoiceInv (w.fadeStart fs) := by
  rw [Voice.releasing, Bool.and_eq_true, sounding_iff] at hr
  exact {
    free := fun h' => absurd h' hr.1
    held := h.held
    recycle := rfl
    fade := fun _ => ⟨hr.2, nS_pos _ _, le_refl _⟩
    noFade := fun h' => absurd h' (by simp [Voice.fadeStart])
    note := h.note
    velocity := h.velocity
    ampFloor := h.ampFloor
    filtFloor := h.filtFloor
    filters := h.filters }

theorem voiceInv_freed (h : VoiceInv w) : VoiceInv w.freed where
  free _ := ⟨rfl, rfl, rfl, rfl⟩
  held h' := absurd rfl h'
  recycle := rfl
  fade h' := absurd h' (by simp [Voice.freed])
  noFade _ := ⟨rfl, rfl⟩
  note := h.note
  velocity := ⟨h.velocity.1, fun h' => absurd rfl h'⟩
  ampFloor _ := rfl
  filtFloor _ := rfl
  filters := h.filters

/-- Where `EndOfFrame` leads: the voice is freed, or only its fade counter has moved (48_voice.md R458). -/
theorem endOfFrame_cases (w : Voice) :
    w.endOfFrame = ({ w with fadeRem := w.endOfFrame.fadeRem } : Voice).freed ∨
    (w.amp.phase ≠ .idle ∧ w.fading = false ∧ w.endOfFrame = w) ∨
    (w.amp.phase ≠ .idle ∧ w.fading = true ∧ w.fadeRem - 1 ≠ 0 ∧ w.endOfFrame = { w with fadeRem := w.fadeRem - 1 }) := by
  unfold Voice.endOfFrame
  dsimp only
  split
  · split
    · exact .inl rfl
    · split
      · exact .inl rfl
      · exact .inr (.inr ⟨‹_›, ‹_›, ‹_›, rfl⟩)
  · split
    · exact .inl rfl
    · exact .inr (.inl ⟨‹_›, by simpa using ‹¬w.fading = true›, rfl⟩)

/-- A frame of a voice keeps its invariant (48_voice.md R450, R458, R475). -/
theorem voiceInv_soundingFrame (h : VoiceInv w) (hs : w.sounding = true) (g : Global) (p : Params) (m : ModFrame) :
    VoiceInv (soundingFrame g p m w).1 := by
  rw [sounding_iff] at hs
  rw [soundingFrame_voice]
  have hph := envStep_phase g.fs w.velT g.relMul p.amp w.amp
  have hbody : (frameBody g p m w).amp.phase ≠ .idle → VoiceInv (frameBody g p m w) := fun hb => {
    free := fun h' => absurd h' hb
    held := fun _ => by
      have := h.held hs
      rw [frameBody_amp] at hb
      rw [frameBody_isReleasing, frameBody_amp, this]
      revert hph hb hs
      cases w.amp.phase <;> cases (envStep g.fs w.velT g.relMul p.amp w.amp).phase <;> simp [phaseMay]
    recycle := by simpa using h.recycle
    fade := by simpa using h.fade
    noFade := by simpa using h.noFade
    note := by simpa using h.note
    velocity := ⟨by simpa using h.velocity.1, fun _ => by simpa using h.velocity.2 hs⟩
    ampFloor := by simpa using envStep_inv _ _ _ _ h.ampFloor
    filtFloor := by simpa using envStep_inv _ _ _ _ h.filtFloor
    filters := frameBody_filters w g p m h.filters }
  rcases endOfFrame_cases (frameBody g p m w) with h1 | ⟨h1, -, h2⟩ | ⟨h1, hf, h3, h2⟩
  · rw [h1]
    exact {
      free := fun _ => ⟨rfl, rfl, rfl, rfl⟩
      held := fun h' => absurd rfl h'
      recycle := rfl
      fade := fun h' => absurd h' (by simp [Voice.freed])
      noFade := fun _ => ⟨rfl, rfl⟩
      note := by simpa [Voice.freed] using h.note
      velocity := ⟨by simpa [Voice.freed] using h.velocity.1, fun h' => absurd rfl h'⟩
      ampFloor := fun _ => rfl
      filtFloor := fun _ => rfl
      filters := frameBody_filters w g p m h.filters }
  · rw [h2]
    exact hbody h1
  · rw [h2]
    have hb := hbody h1
    exact {
      free := hb.free
      held := hb.held
      recycle := hb.recycle
      fade := fun hf' => ⟨(hb.fade hf').1, by dsimp only; omega, by have := (hb.fade hf').2.2; dsimp only; omega⟩
      noFade := fun hf' => absurd hf (by simpa using hf')
      note := hb.note
      velocity := hb.velocity
      ampFloor := hb.ampFloor
      filtFloor := hb.filtFloor
      filters := hb.filters }

theorem voiceInv_voiceSample (h : VoiceInv w) (g : Global) (p : Params) (m : ModFrame) :
    VoiceInv (voiceSample g p m w).1 := by
  unfold voiceSample
  split
  · exact voiceInv_soundingFrame h ‹_› g p m
  · exact h

end Sys2Proof.Machine
end

