-- ==== Sys2Proof/Laws/Pool.lean ====
section
/-! SUPPORT. Laws of the voice pool: what the allocator answers, each note operation as one change of one slot, what the
hard cap picks, and what the note stack keeps (49_voice_pool.md). -/

namespace Sys2Proof.Machine

variable (s : State)

/-! ### Ranking -/

theorem ranksBefore_of_ordered {a b : F64} (ha : a.isNaN = false) (hb : b.isNaN = false) :
    ranksBefore a b = a.lt b := by simp [ranksBefore, ha, hb]

/-- The fold behind `quietest`, on levels that are numbers: its answer is in the list, and nothing in the list is quieter or
equally quiet and earlier. -/
theorem foldl_quietest (v : Vector Voice 33) (is : List Slot) (i b : Slot)
    (hb : is.foldl (fun best j => if ranksBefore v[j].effA v[best].effA then j else best) i = b)
    (hn : ∀ j ∈ i :: is, (v[j].effA).isNaN = false) (hs : (i :: is).Pairwise (· < ·)) :
    b ∈ i :: is ∧ ∀ j ∈ i :: is, v[b].effA.key < v[j].effA.key ∨ (v[b].effA.key = v[j].effA.key ∧ b ≤ j) := by
  induction is generalizing i with
  | nil =>
    subst hb
    exact ⟨List.mem_singleton.mpr rfl, fun j hj => .inr (by rw [List.mem_singleton.mp hj]; exact ⟨rfl, le_rfl⟩)⟩
  | cons k ks ih =>
    rw [List.foldl_cons] at hb
    rw [List.pairwise_cons, List.pairwise_cons] at hs
    obtain ⟨h1, h2, h3⟩ := hs
    have hi := hn i List.mem_cons_self
    have hk := hn k (List.mem_cons_of_mem _ List.mem_cons_self)
    have hik : i < k := h1 k List.mem_cons_self
    have hr := ranksBefore_of_ordered hk hi
    by_cases hlt : (v[k].effA).lt v[i].effA = true
    · rw [if_pos (hr.trans hlt)] at hb
      obtain ⟨hmem, hall⟩ := ih k hb (fun j hj => hn j (List.mem_cons_of_mem _ hj)) (List.pairwise_cons.mpr ⟨h2, h3⟩)
      refine ⟨List.mem_cons_of_mem _ hmem, fun j hj => ?_⟩
      rcases List.mem_cons.mp hj with rfl | hj
      · rw [F64.lt_iff hk hi] at hlt
        rcases hall k List.mem_cons_self with h | ⟨h, -⟩ <;> left <;> omega
      · exact hall j hj
    · rw [if_neg (fun h => hlt (hr.symm.trans h))] at hb
      have hsub : ∀ j ∈ i :: ks, j ∈ i :: k :: ks := fun j hj =>
        (List.mem_cons.mp hj).elim (fun h => h ▸ List.mem_cons_self)
          (fun h => List.mem_cons_of_mem _ (List.mem_cons_of_mem _ h))
      obtain ⟨hmem, hall⟩ := ih i hb (fun j hj => hn j (hsub j hj))
        (List.pairwise_cons.mpr ⟨fun j hj => h1 j (List.mem_cons_of_mem _ hj), h3⟩)
      refine ⟨hsub _ hmem, fun j hj => ?_⟩
      rcases List.mem_cons.mp hj with rfl | hj'
      · exact hall j List.mem_cons_self
      rcases List.mem_cons.mp hj' with rfl | hj'
      · rw [F64.lt_iff hk hi] at hlt
        rcases hall i List.mem_cons_self with h | ⟨h, h'⟩
        · left; omega
        · rcases lt_or_eq_of_le (not_lt.mp hlt) with h4 | h4
          · left; omega
          · right; exact ⟨by omega, le_trans h' (le_of_lt hik)⟩
      · exact hall j (List.mem_cons_of_mem _ hj')

/-- `quietest` answers the slot that is quietest, the earliest of equals (49_voice_pool.md R492). -/
theorem quietest_eq (v : Vector Voice 33) (is : List Slot) (hs : is.Pairwise (· < ·))
    (hn : ∀ j ∈ is, (v[j].effA).isNaN = false) (i : Slot) (hi : i ∈ is)
    (hmin : ∀ j ∈ is, v[i].effA.key < v[j].effA.key ∨ (v[i].effA.key = v[j].effA.key ∧ i ≤ j)) :
    quietest v is = some i := by
  cases is with
  | nil => simp at hi
  | cons k ks =>
    rw [quietest, Option.some.injEq]
    generalize hb : List.foldl _ k ks = b
    obtain ⟨hmem, hall⟩ := foldl_quietest v ks k b hb hn hs
    rcases hall i hi with h1 | ⟨h1, h1'⟩ <;> rcases hmin b hmem with h2 | ⟨h2, h2'⟩
    · omega
    · omega
    · omega
    · exact le_antisymm h1' h2'

/-- `quietest` of a list answers one of it. -/
theorem quietest_mem (v : Vector Voice 33) (is : List Slot) (i : Slot) (h : quietest v is = some i) : i ∈ is := by
  cases is with
  | nil => simp [quietest] at h
  | cons k ks =>
    rw [quietest, Option.some.injEq] at h
    induction ks generalizing k with
    | nil => exact h ▸ List.mem_singleton.mpr rfl
    | cons j js ih =>
      rw [List.foldl_cons] at h
      split at h
      · exact List.mem_cons_of_mem _ (ih j h)
      · exact (List.mem_cons.mp (ih k h)).elim (fun h => h ▸ List.mem_cons_self)
          (fun h => List.mem_cons_of_mem _ (List.mem_cons_of_mem _ h))

theorem stealCandidate_mem (v : Vector Voice 33) : stealCandidate v ∈ poolSlots := by
  unfold stealCandidate
  split
  · rename_i i h
    exact List.mem_of_mem_filter (quietest_mem v _ i h)
  · cases h : quietest v poolSlots with
    | none => simp [quietest, poolSlots] at h
    | some i => simpa using quietest_mem v _ i h

/-- What the allocator answers (49_voice_pool.md R491): the lowest FREE pool voice; else the lowest marked for recycling;
else the steal candidate. -/
theorem allocatePool_cases (v : Vector Voice 33) :
    (∃ i ∈ poolSlots, allocatePool v = (i, .free) ∧ v[i].sounding = false) ∨
    ((∀ j ∈ poolSlots, v[j].sounding = true) ∧
      ∃ i ∈ poolSlots, allocatePool v = (i, .recycle) ∧ v[i].forceRecycle = true) ∨
    ((∀ j ∈ poolSlots, v[j].busy = true) ∧ allocatePool v = (stealCandidate v, .steal)) := by
  unfold allocatePool
  split
  · rename_i i h
    exact .inl ⟨i, List.mem_of_find?_eq_some h, rfl, by simpa using List.find?_some h⟩
  · rename_i h
    have hall : ∀ j ∈ poolSlots, v[j].sounding = true := by simpa using h
    refine .inr ?_
    split
    · rename_i i h'
      exact .inl ⟨hall, i, List.mem_of_find?_eq_some h', rfl, by simpa using List.find?_some h'⟩
    · rename_i h'
      refine .inr ⟨fun j hj => ?_, rfl⟩
      have h2 : v[j].forceRecycle = false := by simpa using List.find?_eq_none.mp h' j hj
      rw [Voice.busy, hall j hj, h2]; rfl

theorem allocatePool_mem (v : Vector Voice 33) : (allocatePool v).1 ∈ poolSlots := by
  rcases allocatePool_cases v with ⟨i, hi, h, -⟩ | ⟨-, i, hi, h, -⟩ | ⟨-, h⟩
  · rwa [h]
  · rwa [h]
  · rw [h]; exact stealCandidate_mem v

/-! ### Slots -/

@[simp] theorem setVoice_setVoice (i : Slot) (a b : Voice) : (s.setVoice i a).setVoice i b = s.setVoice i b := by
  simp [State.setVoice]

/-- A trigger forgets a recycling mark (48_voice.md R470, 49_voice_pool.md R493). -/
theorem trigger_mark (fs : F64) (p : Params) (note vel : Nat) (xS : F64) (w : Voice) :
    ({ w with forceRecycle := true } : Voice).trigger fs p note vel xS = w.trigger fs p note vel xS := by
  cases h : w.sounding with
  | true =>
    have h' : ({ w with forceRecycle := true } : Voice).sounding = true := h
    simp only [Voice.trigger, h, h', if_true]
    rfl
  | false =>
    have h' : ({ w with forceRecycle := true } : Voice).sounding = false := h
    simp only [Voice.trigger, h, h', Voice.freshStart]
    rfl

/-- A POLY note changes one slot: the allocator's (49_voice_pool.md R490). -/
theorem polyNoteOn_eq (note vel : Nat) :
    s.polyNoteOn note vel = s.setVoice (allocatePool s.v).1
      ((s.voice (allocatePool s.v).1).started s note vel Config.xfStealS false) := by
  unfold State.polyNoteOn State.setPitch State.stealVoice State.trigger State.onVoice Voice.started
  dsimp only
  split <;> simp [trigger_mark]

/-- A MONO note changes the stack and the mono voice (49_voice_pool.md R512). -/
theorem monoNoteOn_eq (note vel : Nat) :
    s.monoNoteOn note vel = (s.setStack (stackPush s.g.stack note)).setVoice monoSlot
      ((s.voice monoSlot).started s note vel Config.xfRetrigS (s.voice monoSlot).sounding) := by
  unfold State.monoNoteOn State.setPitch State.trigger State.onVoice Voice.started
  dsimp only
  simp

/-- A LEGATO note changes the stack and the mono voice (49_voice_pool.md R513). -/
theorem legatoNoteOn_eq (note vel : Nat) :
    s.legatoNoteOn note vel = (s.setStack (stackPush s.g.stack note)).setVoice monoSlot
      (if s.g.stack = [] then (s.voice monoSlot).started s note vel Config.xfRetrigS (s.voice monoSlot).sounding
       else (s.voice monoSlot).setPitch s.g.fs s.p (F64.nat note) true) := by
  unfold State.legatoNoteOn State.setPitch State.trigger State.onVoice Voice.started
  dsimp only
  split <;> simp

/-- What a MONO or LEGATO NOTE_OFF does (49_voice_pool.md R514). -/
theorem monoNoteOff_cases (note : Nat) :
    (note ∉ s.g.stack ∧ s.monoNoteOff note = s) ∨
    (note ∈ s.g.stack ∧ stackTop s.g.stack ≠ some note ∧
      s.monoNoteOff note = s.setStack (s.g.stack.erase note)) ∨
    (stackTop s.g.stack = some note ∧ ∃ prev, stackTop (s.g.stack.erase note) = some prev ∧
      s.monoNoteOff note = (s.setStack (s.g.stack.erase note)).setVoice monoSlot
        (if s.g.voiceMode = .mono then (s.voice monoSlot).started s prev (s.voice monoSlot).velRaw Config.xfRetrigS true
         else (s.voice monoSlot).setPitch s.g.fs s.p (F64.nat prev) true)) ∨
    (stackTop s.g.stack = some note ∧ s.g.stack.erase note = [] ∧
      s.monoNoteOff note = (s.setStack (s.g.stack.erase note)).setVoice monoSlot (s.voice monoSlot).release) := by
  unfold State.monoNoteOff
  split
  · exact .inl ⟨‹_›, rfl⟩
  · rename_i hin
    dsimp only
    split
    · exact .inr (.inl ⟨by simpa using hin, ‹_›, rfl⟩)
    · rename_i htop
      have htop' : stackTop s.g.stack = some note := by simpa using htop
      split
      · rename_i prev hprev
        refine .inr (.inr (.inl ⟨htop', prev, hprev, ?_⟩))
        unfold State.setPitch State.trigger State.onVoice Voice.started stackRemove
        split <;> simp
      · rename_i hprev
        refine .inr (.inr (.inr ⟨htop', ?_, rfl⟩))
        simpa [stackTop, stackRemove, State.setStack] using hprev

/-! ### Sorting and the hard cap -/

theorem insertByLevel_perm (v : Vector Voice 33) (i : Slot) (is : List Slot) :
    (insertByLevel v i is).Perm (i :: is) := by
  induction is with
  | nil => exact .refl _
  | cons j js ih =>
    unfold insertByLevel
    split
    · exact ((List.Perm.cons j ih).trans (.swap i j js))
    · exact .refl _

/-- The sorted list is the list in another order. -/
theorem sortByLevel_perm (v : Vector Voice 33) (is : List Slot) : (sortByLevel v is).Perm is := by
  induction is with
  | nil => exact .refl _
  | cons i is ih => exact (insertByLevel_perm v i _).trans (.cons i ih)

/-- `i` comes before `j` in the order of 49_voice_pool.md R501: lower level, then lower index. -/
def comesBefore (v : Vector Voice 33) (i j : Slot) : Prop :=
  v[i].effA.key < v[j].effA.key ∨ (v[i].effA.key = v[j].effA.key ∧ i < j)

theorem insertByLevel_sorted (v : Vector Voice 33) (i : Slot) (is : List Slot)
    (hn : ∀ j ∈ i :: is, (v[j].effA).isNaN = false) (hlt : ∀ j ∈ is, i < j) (hs : is.Pairwise (comesBefore v)) :
    (insertByLevel v i is).Pairwise (comesBefore v) := by
  induction is with
  | nil => simp [insertByLevel]
  | cons j js ih =>
    have hi := hn i (by simp)
    have hj := hn j (by simp)
    unfold insertByLevel
    rw [ranksBefore_of_ordered hj hi]
    rw [List.pairwise_cons] at hs
    split
    · rename_i h
      rw [F64.lt_iff hj hi] at h
      rw [List.pairwise_cons]
      refine ⟨fun k hk => ?_, ih (fun k hk => hn k (by
        rcases List.mem_cons.mp hk with rfl | hk
        · simp
        · simp [hk])) (fun k hk => hlt k (by simp [hk])) hs.2⟩
      rcases List.mem_cons.mp ((insertByLevel_perm v i js).mem_iff.mp hk) with rfl | hk
      · exact .inl h
      · exact hs.1 k hk
    · rename_i h
      rw [F64.lt_iff hj hi, not_lt] at h
      rw [List.pairwise_cons, List.pairwise_cons]
      refine ⟨fun k hk => ?_, hs⟩
      have hik := hlt k hk
      rcases List.mem_cons.mp hk with rfl | hk
      · rcases lt_or_eq_of_le h with h | h
        · exact .inl h
        · exact .inr ⟨h, hik⟩
      · rcases hs.1 k hk with h' | ⟨h', -⟩
        · exact .inl (by omega)
        · rcases lt_or_eq_of_le h with h | h
          · exact .inl (by omega)
          · exact .inr ⟨by omega, hik⟩

/-- On levels that are numbers, the sort gives the order of 49_voice_pool.md R501. -/
theorem sortByLevel_sorted (v : Vector Voice 33) (is : List Slot) (hn : ∀ j ∈ is, (v[j].effA).isNaN = false)
    (hs : is.Pairwise (· < ·)) : (sortByLevel v is).Pairwise (comesBefore v) := by
  induction is with
  | nil => simp [sortByLevel]
  | cons i is ih =>
    rw [List.pairwise_cons] at hs
    refine insertByLevel_sorted v i _ (fun j hj => hn j ?_) (fun j hj => hs.1 j ?_)
      (ih (fun j hj => hn j (List.mem_cons_of_mem _ hj)) hs.2)
    · rcases List.mem_cons.mp hj with rfl | hj
      · simp
      · exact List.mem_cons_of_mem _ ((sortByLevel_perm v is).mem_iff.mp hj)
    · exact (sortByLevel_perm v is).mem_iff.mp hj

theorem poolSlots_sorted : poolSlots.Pairwise (· < ·) := by decide

theorem allSlots_nodup : allSlots.Nodup := by decide

/-- A slot that the hard cap fades is a pool voice that releases and does not fade (49_voice_pool.md R501). -/
theorem hardCapSlots_mem {v : Vector Voice 33} {a : Nat} {i : Slot} (h : i ∈ hardCapSlots v a) :
    i ∈ poolSlots ∧ v[i].releasing = true ∧ v[i].fading = false := by
  have h1 := (sortByLevel_perm v _).mem_iff.mp (List.mem_of_mem_take h)
  simpa using List.mem_filter.mp h1

/-! ### The note stack -/

theorem mem_stackPush {st : List Nat} {n m : Nat} (h : m ∈ stackPush st n) : m = n ∨ m ∈ st := by
  unfold stackPush at h
  simp only [List.mem_append, List.mem_singleton] at h
  rcases h with h | h
  · right
    split at h
    · exact List.mem_of_mem_erase (List.mem_of_mem_drop h)
    · exact List.mem_of_mem_erase h
  · exact .inl h

theorem stackPush_ne_nil (st : List Nat) (n : Nat) : stackPush st n ≠ [] := by simp [stackPush]

theorem stackPush_nodup {st : List Nat} (h : st.Nodup) (n : Nat) : (stackPush st n).Nodup := by
  have h1 := h.erase n
  have hn : n ∉ st.erase n := h.not_mem_erase
  unfold stackPush
  dsimp only
  rw [List.nodup_append]
  refine ⟨?_, by simp, ?_⟩
  · split
    · exact h1.sublist (List.drop_sublist _ _)
    · exact h1
  · intro a ha b hb
    rw [List.mem_singleton] at hb
    subst hb
    rintro rfl
    split at ha
    · exact hn (List.mem_of_mem_drop ha)
    · exact hn ha

theorem stackPush_length {st : List Nat} (h : st.length ≤ 16) (n : Nat) : (stackPush st n).length ≤ 16 := by
  have h1 := List.length_erase_le (a := n) (l := st)
  have h2 : Config.nStack = 16 := rfl
  unfold stackPush
  dsimp only
  rw [List.length_append, List.length_singleton]
  split
  · rw [List.length_drop]; omega
  · omega

end Sys2Proof.Machine
end

