-- ==== Sys2Proof/Laws/Step.lean ====
section
/-! SUPPORT. What a step and each command can do, said once: from a next state, which effect it was, guards included. Later
proofs cite these and unfold no meaning. -/

namespace Sys2Proof.Machine

variable {s t : State}

theorem next_inj {σ φ ρ : Type} {a b : σ} (h : (Host.Outcome.next a : Host.Outcome σ φ ρ) = .next b) : b = a := by
  injection h with h; exact h.symm

/-! ### Each command -/

/-- RESET: rejected, or accepted with operands in range (40_system_commands.md R202). -/
theorem execReset_cases {bs : Nat} {sr : F64} (h : execReset bs sr s = .next t) :
    (¬(1 ≤ bs ∧ bs ≤ 4096) ∧ t = s.raise .badOperand) ∨
    ((1 ≤ bs ∧ bs ≤ 4096) ∧ rateOk sr = false ∧ t = s.raise .badValue) ∨
    ((1 ≤ bs ∧ bs ≤ 4096) ∧ rateOk sr = true ∧ t = s.afterReset bs sr) := by
  unfold execReset at h
  split at h
  · exact .inl ⟨‹_›, next_inj h⟩
  · rename_i hb
    have hb' : 1 ≤ bs ∧ bs ≤ 4096 := not_not.mp hb
    split at h
    · exact .inr (.inl ⟨hb', by simpa using ‹(!rateOk sr) = true›, next_inj h⟩)
    · exact .inr (.inr ⟨hb', by simpa using ‹¬(!rateOk sr) = true›, next_inj h⟩)

/-- NOTE_ON: a NOTE_OFF, rejected, or a note started (41_note_commands.md R220, R221). -/
theorem execNoteOn_cases {note vel : Nat} (h : execNoteOn note vel s = .next t) :
    (vel = 0 ∧ t = s.noteOff note) ∨ (vel ≠ 0 ∧ s.g.configured = false ∧ t = s.raise .notConfigured) ∨
    (vel ≠ 0 ∧ s.g.configured = true ∧ t = s.noteOn note vel) := by
  unfold execNoteOn at h
  split at h
  · exact .inl ⟨‹_›, next_inj h⟩
  · rename_i hv
    split at h
    · exact .inr (.inl ⟨hv, by simpa using ‹(!s.g.configured) = true›, next_inj h⟩)
    · exact .inr (.inr ⟨hv, by simpa using ‹¬(!s.g.configured) = true›, next_inj h⟩)

/-- SET_VOICE_MODE: rejected, or switched to the mode of the code (41_note_commands.md R227). -/
theorem execSetVoiceMode_cases {mode : Nat} (h : execSetVoiceMode mode s = .next t) :
    (VoiceMode.ofCode mode = none ∧ t = s.raise .badOperand) ∨
    ∃ m, VoiceMode.ofCode mode = some m ∧ t = s.switchVoiceMode m := by
  unfold execSetVoiceMode at h
  split at h
  · exact .inr ⟨_, ‹_›, next_inj h⟩
  · exact .inl ⟨‹_›, next_inj h⟩

/-- PARAM_WRITE: rejected for its index or its value, or one register written (42_param_write.md R260). -/
theorem execParamWrite_cases {idx : Nat} {x : F64} (h : execParamWrite idx x s = .next t) :
    (ParamReg.ofIndex idx = none ∧ t = s.raise .badParamIndex) ∨
    ∃ r, ParamReg.ofIndex idx = some r ∧
      ((x.isNaN = true ∧ t = s.raise .badValue) ∨ (x.isNaN = false ∧ t = s.writeParam r x)) := by
  unfold execParamWrite at h
  split at h
  · exact .inl ⟨‹_›, next_inj h⟩
  · refine .inr ⟨_, ‹_›, ?_⟩
    split at h
    · exact .inl ⟨‹_›, next_inj h⟩
    · exact .inr ⟨by simpa using ‹¬x.isNaN = true›, next_inj h⟩

/-- RENDER: rejected, nothing for no frames, or its block rendered (43_render.md R290, R291, R294). -/
theorem execRender_cases {modin : Bool} {nf : Nat} (h : execRender modin nf s = .next t) :
    (s.g.configured = false ∧ t = s.raise .notConfigured) ∨
    (s.g.configured = true ∧ s.g.blockSize < nf ∧ t = s.raise .badOperand) ∨
    (s.g.configured = true ∧ nf = 0 ∧ t = s) ∨
    (s.g.configured = true ∧ 1 ≤ nf ∧ nf ≤ s.g.blockSize ∧ (modin = true → nf ≤ s.modIn.length) ∧
      t = s.renderBlock modin nf) := by
  unfold execRender at h
  split at h
  · exact .inl ⟨by simpa using ‹(!s.g.configured) = true›, next_inj h⟩
  · rename_i hc
    have hc' : s.g.configured = true := by simpa using hc
    split at h
    · exact .inr (.inl ⟨hc', ‹_›, next_inj h⟩)
    · split at h
      · exact .inr (.inr (.inl ⟨hc', ‹_›, next_inj h⟩))
      · split at h
        · simp at h
        · rename_i h1 h2 h3
          refine .inr (.inr (.inr ⟨hc', by omega, by omega, fun hm => ?_, next_inj h⟩))
          simpa [hm] using h3

/-! ### Frames of the note operations -/

/-- What a note operation leaves alone: everything but the stack, the voices and, for a switch, the mode. -/
theorem noteOff_frame (s : State) (note : Nat) :
    (s.noteOff note).p = s.p ∧ (s.noteOff note).s = s.s ∧ (s.noteOff note).cmd = s.cmd ∧
    (s.noteOff note).cmdPos = s.cmdPos ∧ (s.noteOff note).modIn = s.modIn ∧ (s.noteOff note).modPos = s.modPos ∧
    (s.noteOff note).out = s.out ∧ (s.noteOff note).g = { s.g with stack := (s.noteOff note).g.stack } := by
  unfold State.noteOff
  split
  · simp
  · rcases monoNoteOff_cases s note with ⟨-, h⟩ | ⟨-, -, h⟩ | ⟨-, prev, -, h⟩ | ⟨-, -, h⟩ <;> rw [h] <;> simp
  · rcases monoNoteOff_cases s note with ⟨-, h⟩ | ⟨-, -, h⟩ | ⟨-, prev, -, h⟩ | ⟨-, -, h⟩ <;> rw [h] <;> simp

theorem noteOn_frame (s : State) (note vel : Nat) :
    (s.noteOn note vel).p = s.p ∧ (s.noteOn note vel).s = s.s ∧ (s.noteOn note vel).cmd = s.cmd ∧
    (s.noteOn note vel).cmdPos = s.cmdPos ∧ (s.noteOn note vel).modIn = s.modIn ∧
    (s.noteOn note vel).modPos = s.modPos ∧ (s.noteOn note vel).out = s.out ∧
    (s.noteOn note vel).g = { s.g with stack := (s.noteOn note vel).g.stack } := by
  unfold State.noteOn
  split
  · rw [polyNoteOn_eq]; simp
  · rw [monoNoteOn_eq]; simp
  · rw [legatoNoteOn_eq]; simp

/-- What a switch of the voice mode does (49_voice_pool.md R516). -/
theorem switchVoiceMode_cases (s : State) (m : VoiceMode) :
    (m = s.g.voiceMode ∧ s.switchVoiceMode m = s) ∨
    (m ≠ s.g.voiceMode ∧ s.switchVoiceMode m =
      { s.setVoices (mapVoices Voice.release s.v) with g := { s.g with stack := [], voiceMode := m } }) := by
  unfold State.switchVoiceMode
  split
  · exact .inl ⟨‹_›, rfl⟩
  · exact .inr ⟨‹_›, rfl⟩

theorem switchVoiceMode_frame (s : State) (m : VoiceMode) :
    (s.switchVoiceMode m).p = s.p ∧ (s.switchVoiceMode m).s = s.s ∧ (s.switchVoiceMode m).cmd = s.cmd ∧
    (s.switchVoiceMode m).cmdPos = s.cmdPos ∧ (s.switchVoiceMode m).modIn = s.modIn ∧
    (s.switchVoiceMode m).modPos = s.modPos ∧ (s.switchVoiceMode m).out = s.out := by
  rcases switchVoiceMode_cases s m with ⟨-, h⟩ | ⟨-, h⟩ <;> rw [h] <;> simp

/-! ### RENDER -/

theorem renderFrames_length (g : Global) (p : Params) (ms : List ModFrame) (v : Vector Voice 33) :
    (renderFrames g p ms v).2.length = ms.length := by
  induction ms generalizing v with
  | nil => rfl
  | cons m ms ih => simp [renderFrames, ih]

/-- A block has one modulation frame for each of its frames (43_render.md R294). -/
theorem blockMods_length (s : State) (modin : Bool) (nf : Nat) (h : modin = true → nf ≤ s.modIn.length) :
    (blockMods s modin nf).length = nf := by
  unfold blockMods
  split
  · rename_i hm
    simp [h hm]
  · simp

/-- What a rendered block leaves alone, and how its streams move (43_render.md R290). -/
theorem renderBlock_frame (s : State) (modin : Bool) (nf : Nat) :
    (s.renderBlock modin nf).p = s.p ∧ (s.renderBlock modin nf).s = s.s ∧ (s.renderBlock modin nf).cmd = s.cmd ∧
    (s.renderBlock modin nf).cmdPos = s.cmdPos ∧
    (s.renderBlock modin nf).g = { s.g with relMul := relMulFor (activeCount s.v) } ∧
    (s.renderBlock modin nf).modIn = s.modIn.drop (if modin then nf else 0) ∧
    (s.renderBlock modin nf).modPos = s.modPos + (if modin then nf else 0) := by
  unfold State.renderBlock
  simp

/-- No meaning touches the command stream: the step alone consumes words (40_system_commands.md R200). -/
theorem exec_cmd {i : Instr} (h : exec i s = .next t) : t.cmd = s.cmd ∧ t.cmdPos = s.cmdPos := by
  cases i with
  | nop => rw [next_inj h]; exact ⟨rfl, rfl⟩
  | cc => rw [next_inj h]; exact ⟨rfl, rfl⟩
  | pitchBend => rw [next_inj h]; exact ⟨rfl, rfl⟩
  | programChange => rw [next_inj h]; exact ⟨rfl, rfl⟩
  | aftertouch => rw [next_inj h]; exact ⟨rfl, rfl⟩
  | clearStatus => rw [next_inj h]; exact ⟨rfl, rfl⟩
  | noteOff note => rw [next_inj h]; obtain ⟨-, -, h1, h2, -⟩ := noteOff_frame s note; exact ⟨h1, h2⟩
  | noteOn note vel =>
    rcases execNoteOn_cases h with ⟨-, rfl⟩ | ⟨-, -, rfl⟩ | ⟨-, -, rfl⟩
    · obtain ⟨-, -, h1, h2, -⟩ := noteOff_frame s note; exact ⟨h1, h2⟩
    · exact ⟨rfl, rfl⟩
    · obtain ⟨-, -, h1, h2, -⟩ := noteOn_frame s note vel; exact ⟨h1, h2⟩
  | reset bs sr => rcases execReset_cases h with ⟨-, rfl⟩ | ⟨-, -, rfl⟩ | ⟨-, -, rfl⟩ <;> exact ⟨rfl, rfl⟩
  | setVoiceMode m =>
    rcases execSetVoiceMode_cases h with ⟨-, rfl⟩ | ⟨m', -, rfl⟩
    · exact ⟨rfl, rfl⟩
    · obtain ⟨-, -, h1, h2, -⟩ := switchVoiceMode_frame s m'; exact ⟨h1, h2⟩
  | paramWrite idx x =>
    rcases execParamWrite_cases h with ⟨-, rfl⟩ | ⟨r, -, ⟨-, rfl⟩ | ⟨hx, rfl⟩⟩ <;> exact ⟨rfl, rfl⟩
  | render m nf =>
    rcases execRender_cases h with ⟨-, rfl⟩ | ⟨-, -, rfl⟩ | ⟨-, -, rfl⟩ | ⟨hc, -, -, -, rfl⟩
    · exact ⟨rfl, rfl⟩
    · exact ⟨rfl, rfl⟩
    · exact ⟨rfl, rfl⟩
    · obtain ⟨-, -, h1, h2, -⟩ := renderBlock_frame s m nf; exact ⟨h1, h2⟩

/-! ### The step -/

/-- Where a next state comes from: a rejected header, or the meaning of a well-formed command after its words are consumed
(40_system_commands.md R200). -/
theorem step_cases (h : step s = .next t) :
    (∃ w rest, s.cmd = w :: rest ∧ rowOf (opcode w) = none ∧ t = (s.consume 1).raise .illegalOpcode) ∨
    (∃ w rest r, s.cmd = w :: rest ∧ rowOf (opcode w) = some r ∧ r.accepts w = false ∧
      lengthOf (opcode w) ≤ s.cmd.length ∧ t = (s.consume (lengthOf (opcode w))).raise .reservedBits) ∨
    (∃ i, decode s.cmd = .command i i.words ∧ i.WellFormed ∧ i.words ≤ s.cmd.length ∧
      exec i (s.consume i.words) = .next t) := by
  unfold step runCommand at h
  split at h
  · simp at h
  · simp at h
  · rename_i hd
    left
    cases hc : s.cmd with
    | nil => simp [hc, decode] at hd
    | cons w rest =>
      refine ⟨w, rest, rfl, ?_, next_inj h⟩
      rw [hc] at hd
      simp only [decode] at hd
      split at hd
      · assumption
      · rename_i r hr
        split at hd
        · simp at hd
        · split at hd
          · split at hd
            · simp at hd
            · rename_i ho
              obtain ⟨hmem, hro⟩ := rowOf_some hr
              exfalso
              simp only [opTable, List.mem_cons, List.not_mem_nil, or_false] at hmem
              rcases hmem with rfl | rfl | rfl | rfl | rfl | rfl | rfl | rfl | rfl | rfl | rfl | rfl <;>
                (rw [operands, ← hro] at ho; exact absurd ho (by simp [opcode, field]))
          · simp at hd
  · rename_i len hd
    right; left
    cases hc : s.cmd with
    | nil => simp [hc, decode] at hd
    | cons w rest =>
      rw [hc] at hd
      simp only [decode] at hd
      split at hd
      · simp at hd
      · rename_i r hr
        split at hd
        · simp at hd
        · rename_i hlen
          split at hd
          · split at hd <;> simp at hd
          · rename_i ha
            simp only [Decoded.reservedBits.injEq] at hd
            subst hd
            exact ⟨w, rest, r, rfl, hr, by simpa using ha, by rw [List.length_cons]; omega, next_inj h⟩
  · rename_i i len hd
    obtain ⟨hwf, hlen, hle⟩ := decode_wellFormed hd
    subst hlen
    exact .inr (.inr ⟨i, hd, hwf, hle, h⟩)

end Sys2Proof.Machine
end

