-- ==== Sys2Proof/Laws/Render.lean ====
section
/-! SUPPORT. Laws of a rendered block: what holds of every voice after it, and what one frame does to a voice's lifecycle
(43_render.md, 48_voice.md). -/

namespace Sys2Proof.Machine

/-- The voice slots after one frame. -/
@[simp] theorem getElem_mixFrame (g : Global) (p : Params) (m : ModFrame) (v : Vector Voice 33) (i : Slot) :
    (mixFrame g p m v).1[i] = (voiceSample g p m v[i]).1 := by
  unfold mixFrame voiceFrames
  rw [getElem_ofFn_slot, getElem_ofFn_slot]

/-- What every frame of a voice keeps, a block keeps of every slot. -/
theorem renderFrames_keeps {P : Slot → Voice → Prop} {g : Global} {p : Params}
    (hstep : ∀ (i : Slot) (m : ModFrame) (w : Voice), P i w → P i (voiceSample g p m w).1)
    (ms : List ModFrame) (v : Vector Voice 33) (h : ∀ i : Slot, P i v[i]) (i : Slot) :
    P i (renderFrames g p ms v).1[i] := by
  induction ms generalizing v with
  | nil => exact h i
  | cons m ms ih =>
    refine ih _ (fun j => ?_)
    rw [getElem_mixFrame]
    exact hstep j m _ (h j)

/-- A slot after a RENDER's block: housekeeping, then the frames. -/
theorem renderBlock_voice (s : State) (modin : Bool) (nf : Nat) (i : Slot) :
    (s.renderBlock modin nf).voice i =
      (renderFrames s.housekeeping.g s.p (blockMods s modin nf) s.housekeeping.v).1[i] := by
  unfold State.renderBlock State.voice
  simp only [housekeeping_p]

/-- A slot after the housekeeping (49_voice_pool.md R500, R501). -/
theorem housekeeping_voice (s : State) (i : Slot) :
    s.housekeeping.voice i =
      if i ∈ hardCapSlots s.v (activeCount s.v) then (s.voice i).fadeStart s.g.fs else s.voice i := by
  unfold State.housekeeping
  exact voice_hardCap _ i _

/-! ### Lifecycle of one voice -/

variable {w : Voice}

theorem lifecycle_free_iff : w.lifecycle = .free ↔ w.sounding = false := by
  unfold Voice.lifecycle
  cases w.sounding <;> cases w.fading <;> cases w.isReleasing <;> decide

/-- A frame of a FREE voice changes nothing (48_voice.md R450). -/
theorem voiceSample_free (h : w.sounding = false) (g : Global) (p : Params) (m : ModFrame) :
    voiceSample g p m w = (w, ⟨F64.zero, F64.zero⟩) := by
  unfold voiceSample
  rw [if_neg (by rw [h]; decide)]

/-- A frame of a sounding voice (48_voice.md R450, R458). -/
theorem voiceSample_sounding (h : w.sounding = true) (g : Global) (p : Params) (m : ModFrame) :
    (voiceSample g p m w).1 = (frameBody g p m w).endOfFrame := by
  unfold voiceSample
  rw [if_pos h]
  rfl

@[simp] theorem freed_sounding : w.freed.sounding = false := rfl

@[simp] theorem endOfFrame_note : w.endOfFrame.note = w.note := by
  unfold Voice.endOfFrame
  dsimp only
  repeat' split
  all_goals rfl

@[simp] theorem endOfFrame_glideRem : w.endOfFrame.glideRem = w.glideRem := by
  unfold Voice.endOfFrame
  dsimp only
  repeat' split
  all_goals rfl

/-- A frame of a voice that was not fading and does not end in it: FREE, or going on with its flags (48_voice.md R458). -/
theorem voiceSample_notFading (hs : w.sounding = true) (hf : w.fading = false) (g : Global) (p : Params) (m : ModFrame) :
    ((voiceSample g p m w).1.sounding = false ∧ (envStep g.fs w.velT g.relMul p.amp w.amp).phase = .idle) ∨
    ((voiceSample g p m w).1.sounding = true ∧ (voiceSample g p m w).1.fading = false ∧
      (voiceSample g p m w).1.isReleasing = w.isReleasing ∧ (voiceSample g p m w).1.forceRecycle = w.forceRecycle ∧
      (voiceSample g p m w).1.amp = envStep g.fs w.velT g.relMul p.amp w.amp) := by
  rw [voiceSample_sounding hs]
  have hf' : (frameBody g p m w).fading = false := by rw [frameBody_fading]; exact hf
  have ha := frameBody_amp w g p m
  unfold Voice.endOfFrame
  rw [if_neg (by rw [hf']; decide)]
  split
  · rename_i h
    rw [ha] at h
    exact .inl ⟨rfl, h⟩
  · rename_i h
    exact .inr ⟨(sounding_iff _).mpr h, hf', frameBody_isReleasing w g p m, frameBody_forceRecycle w g p m, ha⟩

/-- A frame of a fading voice: FREE, or fading on with its counter one lower (48_voice.md R458). -/
theorem voiceSample_fading (hs : w.sounding = true) (hf : w.fading = true) (g : Global) (p : Params) (m : ModFrame) :
    (voiceSample g p m w).1.sounding = false ∨
    ((voiceSample g p m w).1.sounding = true ∧ (voiceSample g p m w).1.fading = true ∧
      w.fadeRem - 1 ≠ 0 ∧ (voiceSample g p m w).1.fadeRem = w.fadeRem - 1 ∧
      (voiceSample g p m w).1.isReleasing = w.isReleasing) := by
  rw [voiceSample_sounding hs]
  have hf' : (frameBody g p m w).fading = true := by rw [frameBody_fading]; exact hf
  have hr := frameBody_fadeRem w g p m
  unfold Voice.endOfFrame
  rw [if_pos hf']
  dsimp only
  split
  · exact .inl rfl
  · rename_i h0
    split
    · exact .inl rfl
    · rename_i h
      rw [hr] at h0
      exact .inr ⟨(sounding_iff _).mpr h, hf', h0, by rw [hr], frameBody_isReleasing w g p m⟩

/-- Only the Release phase of an envelope can step to Idle (46_envelope.md R391). -/
theorem envStep_not_idle {e : Env} (h0 : e.phase ≠ .idle) (h : e.phase ≠ .release) (fs velT : F64) (relMul : Nat)
    (q : EnvParams) :
    (envStep fs velT relMul q e).phase ≠ .idle ∧ (envStep fs velT relMul q e).phase ≠ .release := by
  have := envStep_phase fs velT relMul q e
  revert this h h0
  cases e.phase <;> cases (envStep fs velT relMul q e).phase <;> simp [phaseMay]

/-- A voice that is held: sounding, before its Release, not releasing and not fading or marked. -/
structure Held (w : Voice) : Prop where
  idle : w.amp.phase ≠ .idle
  release : w.amp.phase ≠ .release
  releasing : w.isReleasing = false
  recycle : w.forceRecycle = false
  fading : w.fading = false

/-- A frame keeps a held voice held, with its note (49_voice_pool.md R495). -/
theorem Held.voiceSample (h : Held w) (g : Global) (p : Params) (m : ModFrame) :
    Held (voiceSample g p m w).1 ∧ (Machine.voiceSample g p m w).1.note = w.note := by
  have hs : w.sounding = true := (sounding_iff _).mpr h.idle
  obtain ⟨h1, h2⟩ := envStep_not_idle h.idle h.release g.fs w.velT g.relMul p.amp
  refine ⟨?_, by rw [voiceSample_sounding hs, endOfFrame_note, frameBody_note]⟩
  rcases voiceSample_notFading hs h.fading g p m with ⟨-, h3⟩ | ⟨-, h3, h4, h5, h6⟩
  · exact absurd h3 h1
  · exact ⟨by rw [h6]; exact h1, by rw [h6]; exact h2, by rw [h4]; exact h.releasing, by rw [h5]; exact h.recycle, h3⟩

/-- A note just started is held (48_voice.md R470). -/
theorem held_started (w : Voice) (s : State) (note vel : Nat) (xS : Decimal) (b : Bool) :
    Held (w.started s note vel xS b) ∧ (w.started s note vel xS b).note = note := by
  refine ⟨⟨?_, ?_, ?_, ?_, ?_⟩, ?_⟩ <;> simp [Voice.started, Voice.trigger]

end Sys2Proof.Machine
end

