-- ==== Sys2Proof/Laws/Invariant.lean ====
section
/-! SUPPORT. The invariant under each operation that a command makes (Safety.lean): what the provers cite for the
statements about every step. -/

namespace Sys2Proof.Machine

variable {s : State}

/-- The invariant reads the globals, the registers, the voices and the status fields alone. -/
theorem Inv.of_eq {t : State} (h : Inv s) (hg : t.g = s.g) (hp : t.p = s.p) (hv : t.v = s.v) (hs : t.s = s.s) :
    Inv t := by
  have hvo : ∀ i, t.voice i = s.voice i := fun i => by rw [State.voice, hv, State.voice]
  exact {
    params := by rw [hp]; exact h.params
    status := by rw [hs]; exact h.status
    config := by rw [hg]; exact h.config
    stack := by rw [hg]; exact h.stack
    voices := fun i => by rw [hvo]; exact h.voices i
    mono := by rw [MonoInv, hvo, hg]; exact h.mono
    unconfigured := by rw [UnconfiguredInv, hg]; exact fun hc => ⟨(h.unconfigured hc).1, fun i => by
      rw [hvo]; exact (h.unconfigured hc).2 i⟩
    poolGlide := fun i hi => by rw [hvo]; exact h.poolGlide i hi }

theorem Inv.consume (h : Inv s) (n : Nat) : Inv (s.consume n) := h.of_eq rfl rfl rfl rfl

/-! ### Status -/

theorem statusInv_record {t : Status} (h : StatusInv t) (e : CmdError) : StatusInv (t.record e) := by
  obtain ⟨h1, h2⟩ := h
  have hc : e.code.toNat ≤ 6 ∧ e.code ≠ 0 := by cases e <;> decide
  have hn : (t.record e).errCode ≠ 0 := by
    unfold Status.record
    dsimp only
    split
    · exact hc.2
    · assumption
  have hm : (t.record e).errCount ≠ 0 := by
    unfold Status.record
    dsimp only
    split
    · intro h0
      have := congrArg BitVec.toNat h0
      rw [BitVec.toNat_add, show (1 : BitVec 8).toNat = 1 from rfl, show (0 : BitVec 8).toNat = 0 from rfl] at this
      omega
    · decide
  refine ⟨?_, fun h0 => absurd h0 hn, fun h0 => absurd h0 hm⟩
  unfold Status.record
  dsimp only
  split
  · exact hc.1
  · exact h1

theorem Inv.withStatus (h : Inv s) {x : Status} (hx : StatusInv x) : Inv { s with s := x } where
  params := h.params
  status := hx
  config := h.config
  stack := h.stack
  voices := h.voices
  mono := h.mono
  unconfigured := h.unconfigured
  poolGlide := h.poolGlide

theorem Inv.raise (h : Inv s) (e : CmdError) : Inv (s.raise e) := h.withStatus (statusInv_record h.status e)

/-! ### RESET and PARAM_WRITE -/

theorem Inv.afterReset (h : Inv s) {bs : Nat} {sr : F64} (hb : 1 ≤ bs ∧ bs ≤ 4096) (hr : rateOk sr = true) :
    Inv (s.afterReset bs sr) where
  params := h.params
  status := h.status
  config := ⟨fun _ => ⟨hr, hb⟩, .inl rfl⟩
  stack := ⟨by simp, by simp, by simp, fun _ => rfl⟩
  voices i := by rw [voice_afterReset]; exact voiceInv_reset
  mono := ⟨by rw [voice_afterReset]; rfl, fun h' => absurd rfl h'⟩
  unconfigured h' := by simp at h'
  poolGlide i _ := by rw [voice_afterReset]; rfl

theorem Inv.writeParam (h : Inv s) {r : ParamReg} {x : F64} (hx : RegHolds r (r.stored x)) : Inv (s.writeParam r x) where
  params r' := by
    rw [writeParam_p]
    by_cases hr : r' = r
    · subst hr; rwa [Params.get_set_same]
    · rw [Params.get_set_ne _ hr]; exact h.params r'
  status := h.status
  config := h.config
  stack := h.stack
  voices := h.voices
  mono := h.mono
  unconfigured := h.unconfigured
  poolGlide := h.poolGlide

/-! ### Notes -/

theorem voiceInv_started {w : Voice} (h : VoiceInv w) (s : State) {note vel : Nat} (xS : Decimal) (b : Bool)
    (hn : note < 128) (hv : 1 ≤ vel ∧ vel < 128) : VoiceInv (w.started s note vel xS b) :=
  voiceInv_setPitch (voiceInv_trigger _ _ _ hn hv h.filters) _ _ _ _

/-- One pool slot changed, to a voice that keeps the invariant and does not glide. -/
theorem Inv.setPool (h : Inv s) (hc : s.g.configured = true) {i : Slot} (hi : i ∈ poolSlots) {w : Voice}
    (hw : VoiceInv w) (hg : w.glideRem = 0) : Inv (s.setVoice i w) where
  params := h.params
  status := h.status
  config := h.config
  stack := h.stack
  voices j := by
    by_cases hj : i = j
    · subst hj; rwa [voice_setVoice_same]
    · rw [voice_setVoice_ne s hj]; exact h.voices j
  mono := by
    have hm : i ≠ monoSlot := by rintro rfl; exact absurd ((mem_poolSlots _).mp hi) (by decide)
    rw [MonoInv, voice_setVoice_ne s hm]
    exact h.mono
  unconfigured h' := by rw [setVoice_g, hc] at h'; exact absurd h' (by decide)
  poolGlide j hj := by
    by_cases hij : i = j
    · subst hij; rwa [voice_setVoice_same]
    · rw [voice_setVoice_ne s hij]; exact h.poolGlide j hj

/-- The stack and the mono voice changed. -/
theorem Inv.setMono (h : Inv s) (hc : s.g.configured = true) {st : List Nat} {w : Voice}
    (hst : StackInv { s.g with stack := st }) (hw : VoiceInv w) (hf : w.fading = false)
    (hm : st ≠ [] → w.sounding = true ∧ w.isReleasing = false) : Inv ((s.setStack st).setVoice monoSlot w) where
  params := h.params
  status := h.status
  config := h.config
  stack := hst
  voices j := by
    by_cases hj : monoSlot = j
    · subst hj; rwa [voice_setVoice_same]
    · rw [voice_setVoice_ne _ hj, voice_setStack]; exact h.voices j
  mono := by rw [MonoInv, voice_setVoice_same]; exact ⟨hf, hm⟩
  unconfigured h' := by rw [setVoice_g, setStack_g] at h'; rw [hc] at h'; exact absurd h' (by decide)
  poolGlide j hj := by
    have hij : monoSlot ≠ j := by rintro rfl; exact absurd ((mem_poolSlots _).mp hj) (by decide)
    rw [voice_setVoice_ne _ hij, voice_setStack]; exact h.poolGlide j hj

theorem started_glideRem (w : Voice) (s : State) (note vel : Nat) (xS : Decimal) :
    (w.started s note vel xS false).glideRem = 0 := by
  simp [Voice.started, Voice.setPitch]

/-- A POLY note keeps the invariant (49_voice_pool.md R490). -/
theorem Inv.polyNoteOn (h : Inv s) (hc : s.g.configured = true) {note vel : Nat} (hn : note < 128)
    (hv : 1 ≤ vel ∧ vel < 128) : Inv (s.polyNoteOn note vel) := by
  rw [polyNoteOn_eq]
  exact h.setPool hc (allocatePool_mem _) (voiceInv_started (h.voices _) s _ _ hn hv) (started_glideRem _ _ _ _ _)

theorem stackInv_push {g : Global} (h : StackInv g) (hm : g.voiceMode ≠ .poly) {note : Nat} (hn : note < 128) :
    StackInv { g with stack := stackPush g.stack note } :=
  ⟨stackPush_length h.1 note, stackPush_nodup h.2.1 note,
    fun m hm' => (mem_stackPush hm').elim (fun e => e ▸ hn) (h.2.2.1 m), fun h' => absurd h' hm⟩

theorem stackInv_erase {g : Global} (h : StackInv g) (note : Nat) : StackInv { g with stack := g.stack.erase note } :=
  ⟨le_trans List.length_erase_le h.1, h.2.1.erase note, fun m hm => h.2.2.1 m (List.mem_of_mem_erase hm),
    fun h' => by dsimp only at h'; dsimp only; rw [h.2.2.2 h']; rfl⟩

/-- A MONO note keeps the invariant (49_voice_pool.md R512). -/
theorem Inv.monoNoteOn (h : Inv s) (hc : s.g.configured = true) (hm : s.g.voiceMode = .mono) {note vel : Nat}
    (hn : note < 128) (hv : 1 ≤ vel ∧ vel < 128) : Inv (s.monoNoteOn note vel) := by
  rw [monoNoteOn_eq]
  obtain ⟨hh, -⟩ := held_started (s.voice monoSlot) s note vel Config.xfRetrigS (s.voice monoSlot).sounding
  exact h.setMono hc (stackInv_push h.stack (by rw [hm]; decide) hn) (voiceInv_started (h.voices _) s _ _ hn hv) hh.fading
    (fun _ => ⟨(sounding_iff _).mpr hh.idle, hh.releasing⟩)

/-- A LEGATO note keeps the invariant (49_voice_pool.md R513). -/
theorem Inv.legatoNoteOn (h : Inv s) (hc : s.g.configured = true) (hm : s.g.voiceMode = .legato) {note vel : Nat}
    (hn : note < 128) (hv : 1 ≤ vel ∧ vel < 128) : Inv (s.legatoNoteOn note vel) := by
  rw [legatoNoteOn_eq]
  have hst := stackInv_push h.stack (by rw [hm]; decide) hn
  split
  · obtain ⟨hh, -⟩ := held_started (s.voice monoSlot) s note vel Config.xfRetrigS (s.voice monoSlot).sounding
    exact h.setMono hc hst (voiceInv_started (h.voices _) s _ _ hn hv) hh.fading
      (fun _ => ⟨(sounding_iff _).mpr hh.idle, hh.releasing⟩)
  · rename_i hne
    obtain ⟨h1, h2⟩ := h.mono.2 hne
    refine h.setMono hc hst (voiceInv_setPitch (h.voices _) _ _ _ _) (by simpa using h.mono.1) (fun _ => ⟨?_, by simpa using h2⟩)
    rw [sounding_iff] at h1 ⊢
    simpa using h1

theorem stackTop_mem {st : List Nat} {n : Nat} (h : stackTop st = some n) : n ∈ st := by
  unfold stackTop at h
  exact List.mem_of_getLast? h

/-- A MONO or LEGATO NOTE_OFF keeps the invariant (49_voice_pool.md R514). -/
theorem Inv.monoNoteOff (h : Inv s) (note : Nat) : Inv (s.monoNoteOff note) := by
  rcases monoNoteOff_cases s note with ⟨-, e⟩ | ⟨hin, -, e⟩ | ⟨ht, prev, hp, e⟩ | ⟨ht, hem, e⟩ <;> rw [e]
  · exact h
  all_goals
    have hne : s.g.stack ≠ [] := by
      rintro h0
      first
      | (rw [h0] at hin; simp at hin)
      | (rw [h0] at ht; simp [stackTop] at ht)
    have hc : s.g.configured = true := by
      cases hc : s.g.configured with
      | true => rfl
      | false => exact absurd (h.unconfigured hc).1 hne
    have hst := stackInv_erase h.stack note
    obtain ⟨h1, h2⟩ := h.mono.2 hne
  · exact {
      params := h.params
      status := h.status
      config := h.config
      stack := hst
      voices := h.voices
      mono := ⟨h.mono.1, fun _ => ⟨h1, h2⟩⟩
      unconfigured := fun h' => by rw [setStack_g] at h'; rw [hc] at h'; exact absurd h' (by decide)
      poolGlide := h.poolGlide }
  · have hpn : prev < 128 := hst.2.2.1 prev (stackTop_mem hp)
    have hv := h.voices monoSlot
    split
    · obtain ⟨hh, -⟩ := held_started (s.voice monoSlot) s prev (s.voice monoSlot).velRaw Config.xfRetrigS true
      exact h.setMono hc hst (voiceInv_started hv s _ _ hpn ⟨hv.velocity.2 ((sounding_iff _).mp h1), hv.velocity.1⟩)
        hh.fading (fun _ => ⟨(sounding_iff _).mpr hh.idle, hh.releasing⟩)
    · refine h.setMono hc hst (voiceInv_setPitch hv _ _ _ _) (by simpa using h.mono.1) (fun _ => ⟨?_, by simpa using h2⟩)
      rw [sounding_iff] at h1 ⊢
      simpa using h1
  · refine h.setMono hc hst (voiceInv_release (h.voices _)) ?_ (fun h' => absurd hem h')
    rw [Voice.release, if_pos h1]
    exact h.mono.1

/-- A release leaves fade, mark and glide alone. -/
theorem release_keeps (w : Voice) :
    w.release.fading = w.fading ∧ w.release.glideRem = w.glideRem ∧ w.release.sounding = w.sounding ∧
    w.release.forceRecycle = w.forceRecycle ∧ w.release.note = w.note := by
  unfold Voice.release
  split
  · rename_i h
    refine ⟨rfl, rfl, ?_, rfl, rfl⟩
    rw [h, sounding_iff]
    rw [sounding_iff] at h
    simp [h]
  · exact ⟨rfl, rfl, rfl, rfl, rfl⟩

/-- Every slot released or left, the mono voice left unless the stack is empty. -/
theorem Inv.releaseSome (h : Inv s) {t : State} (hg : t.g.configured = s.g.configured ∧ t.g.fs = s.g.fs ∧
    t.g.blockSize = s.g.blockSize ∧ t.g.relMul = s.g.relMul) (hst : StackInv t.g) (hp : t.p = s.p) (hs : t.s = s.s)
    (hv : ∀ i, t.voice i = (s.voice i).release ∨ t.voice i = s.voice i)
    (hm : t.g.stack ≠ [] → t.voice monoSlot = s.voice monoSlot ∧ s.g.stack ≠ [])
    (he : s.g.stack = [] → t.g.stack = []) : Inv t where
  params := by rw [hp]; exact h.params
  status := by rw [hs]; exact h.status
  config := by
    obtain ⟨h1, h2, h3, h4⟩ := hg
    rw [ConfigInv, h1, h2, h3, h4]
    exact h.config
  stack := hst
  voices i := by
    rcases hv i with e | e <;> rw [e]
    · exact voiceInv_release (h.voices i)
    · exact h.voices i
  mono := by
    refine ⟨?_, fun hne => ?_⟩
    · rcases hv monoSlot with e | e <;> rw [e]
      · rw [(release_keeps _).1]; exact h.mono.1
      · exact h.mono.1
    · obtain ⟨e, hne'⟩ := hm hne
      rw [e]; exact h.mono.2 hne'
  unconfigured hc := by
    obtain ⟨h1, h2⟩ := h.unconfigured (hg.1 ▸ hc)
    refine ⟨he h1, fun i => ?_⟩
    rcases hv i with e | e <;> rw [e]
    · rw [(release_keeps _).2.2.1]; exact h2 i
    · exact h2 i
  poolGlide i hi := by
    rcases hv i with e | e <;> rw [e]
    · rw [(release_keeps _).2.1]; exact h.poolGlide i hi
    · exact h.poolGlide i hi

/-- A POLY NOTE_OFF keeps the invariant (49_voice_pool.md R494). -/
theorem Inv.polyNoteOff (h : Inv s) (note : Nat) : Inv (s.polyNoteOff note) := by
  refine h.releaseSome ⟨by simp, by simp, by simp, by simp⟩ (by simpa using h.stack) (by simp) (by simp) (fun i => ?_)
    (fun hne => ⟨?_, by simpa using hne⟩) (by simp)
  · rw [voice_polyNoteOff]
    split
    · exact .inl rfl
    · exact .inr rfl
  · rw [voice_polyNoteOff, if_neg]
    exact fun h' => absurd h'.1 (by decide)

theorem Inv.noteOff (h : Inv s) (note : Nat) : Inv (s.noteOff note) := by
  unfold State.noteOff
  split
  · exact h.polyNoteOff note
  · exact h.monoNoteOff note
  · exact h.monoNoteOff note

theorem Inv.noteOn (h : Inv s) (hc : s.g.configured = true) {note vel : Nat} (hn : note < 128) (hv : 1 ≤ vel ∧ vel < 128) :
    Inv (s.noteOn note vel) := by
  unfold State.noteOn
  split
  · exact h.polyNoteOn hc hn hv
  · exact h.monoNoteOn hc ‹_› hn hv
  · exact h.legatoNoteOn hc ‹_› hn hv

theorem switch_voice (s : State) (m : VoiceMode) (i : Slot) :
    ({ s.setVoices (mapVoices Voice.release s.v) with g := { s.g with stack := [], voiceMode := m } } : State).voice i =
      (s.voice i).release :=
  getElem_mapVoices Voice.release s.v i

/-- A switch of the voice mode keeps the invariant (49_voice_pool.md R516). -/
theorem Inv.switchVoiceMode (h : Inv s) (m : VoiceMode) : Inv (s.switchVoiceMode m) := by
  obtain ⟨hp, hs, -⟩ := switchVoiceMode_frame s m
  rcases switchVoiceMode_cases s m with ⟨-, e⟩ | ⟨-, e⟩
  · rw [e]; exact h
  · have hg : (s.switchVoiceMode m).g = { s.g with stack := [], voiceMode := m } := by rw [e]
    refine h.releaseSome (by rw [hg]; exact ⟨rfl, rfl, rfl, rfl⟩) ?_ hp hs (fun i => .inl (by rw [e]; exact switch_voice s m i))
      (fun h' => ?_) (fun _ => by rw [hg])
    · rw [hg]
      exact ⟨by simp, by simp, by simp, fun _ => rfl⟩
    · rw [hg] at h'
      exact absurd rfl h'

/-! ### RENDER -/

theorem relMulFor_cases (a : Nat) :
    relMulFor a = 1 ∨ relMulFor a = 2 ∨ relMulFor a = 4 ∨ relMulFor a = 8 ∨ relMulFor a = 16 := by
  unfold relMulFor
  repeat' split
  all_goals decide

/-- The housekeeping keeps every voice's invariant: it fades releasing pool voices alone (49_voice_pool.md R501). -/
theorem voiceInv_housekeeping (h : Inv s) (i : Slot) : VoiceInv (s.housekeeping.voice i) := by
  rw [housekeeping_voice]
  split
  · rename_i hi
    exact voiceInv_fadeStart (h.voices i) (hardCapSlots_mem hi).2.1 _
  · exact h.voices i

theorem housekeeping_mono (s : State) : s.housekeeping.voice monoSlot = s.voice monoSlot := by
  rw [housekeeping_voice, if_neg]
  intro hi
  exact absurd ((mem_poolSlots _).mp (hardCapSlots_mem hi).1) (by decide)

theorem housekeeping_glideRem (s : State) (i : Slot) : (s.housekeeping.voice i).glideRem = (s.voice i).glideRem := by
  rw [housekeeping_voice]
  split <;> rfl

theorem voiceSample_glideRem (g : Global) (p : Params) (m : ModFrame) (w : Voice) (h : w.glideRem = 0) :
    (voiceSample g p m w).1.glideRem = 0 := by
  cases hs : w.sounding with
  | false => rw [voiceSample_free hs]; exact h
  | true => rw [voiceSample_sounding hs, endOfFrame_glideRem, frameBody_glideRem, h]

/-- A frame of a voice that does not fade does not start a fade. -/
theorem voiceSample_noFade (g : Global) (p : Params) (m : ModFrame) (w : Voice) (hv : VoiceInv w)
    (h : w.fading = false) : (voiceSample g p m w).1.fading = false := by
  cases hs : w.sounding with
  | false => rw [voiceSample_free hs]; exact h
  | true =>
    have hi := voiceInv_voiceSample hv g p m
    rcases voiceSample_notFading hs h g p m with ⟨h1, -⟩ | ⟨-, h1, -⟩
    · exact (hi.free ((not_sounding_iff _).mp h1)).2.2.2
    · exact h1

theorem held_of_inv {w : Voice} (hv : VoiceInv w) (h1 : w.sounding = true) (h2 : w.isReleasing = false) : Held w := by
  rw [sounding_iff] at h1
  have hf : w.fading = false := by
    cases hf : w.fading with
    | false => rfl
    | true => rw [(hv.fade hf).1] at h2; exact absurd h2 (by decide)
  exact ⟨h1, fun h' => by rw [(hv.held h1).mpr h'] at h2; exact absurd h2 (by decide), h2, by rw [hv.recycle, hf], hf⟩

/-- A rendered block keeps the invariant (43_render.md R290). -/
theorem Inv.renderBlock (h : Inv s) (hc : s.g.configured = true) (modin : Bool) (nf : Nat) :
    Inv (s.renderBlock modin nf) := by
  obtain ⟨hp, hs, -, -, hg, -, -⟩ := renderBlock_frame s modin nf
  have hvo := renderBlock_voice s modin nf
  refine {
    params := by rw [hp]; exact h.params
    status := by rw [hs]; exact h.status
    config := by rw [hg]; exact ⟨h.config.1, relMulFor_cases _⟩
    stack := by rw [hg]; exact h.stack
    voices := fun i => ?_
    mono := ?_
    unconfigured := fun h' => by rw [hg] at h'; dsimp only at h'; rw [hc] at h'; exact absurd h' (by decide)
    poolGlide := fun i hi => ?_ }
  · rw [hvo]
    exact renderFrames_keeps (P := fun _ w => VoiceInv w) (fun _ m w hw => voiceInv_voiceSample hw _ _ m) _ _
      (voiceInv_housekeeping h) i
  · have hfade := renderFrames_keeps (g := s.housekeeping.g) (p := s.p)
      (P := fun j w => VoiceInv w ∧ (j = monoSlot → w.fading = false))
      (fun j m w hw => ⟨voiceInv_voiceSample hw.1 _ _ m, fun hj => voiceSample_noFade _ _ m w hw.1 (hw.2 hj)⟩)
      (blockMods s modin nf) s.housekeeping.v
      (fun j => ⟨voiceInv_housekeeping h j, fun hj => by
        subst hj
        exact (congrArg Voice.fading (housekeeping_mono s)).trans h.mono.1⟩) monoSlot
    refine ⟨by rw [hvo]; exact hfade.2 rfl, fun hne => ?_⟩
    rw [hg] at hne
    obtain ⟨h1, h2⟩ := h.mono.2 hne
    have hheld := renderFrames_keeps (g := s.housekeeping.g) (p := s.p) (P := fun j w => j = monoSlot → Held w)
      (fun j m w hw hj => ((hw hj).voiceSample _ _ m).1) (blockMods s modin nf) s.housekeeping.v
      (fun j hj => by
        subst hj
        have e := housekeeping_mono s
        rw [State.voice] at e
        rw [e]
        exact held_of_inv (h.voices monoSlot) h1 h2) monoSlot rfl
    rw [hvo]
    exact ⟨(sounding_iff _).mpr hheld.idle, hheld.releasing⟩
  · rw [hvo]
    exact renderFrames_keeps (g := s.housekeeping.g) (p := s.p) (P := fun j w => j ∈ poolSlots → w.glideRem = 0)
      (fun j m w hw hj => voiceSample_glideRem _ _ m w (hw hj)) (blockMods s modin nf) s.housekeeping.v
      (fun j hj => (housekeeping_glideRem s j).trans (h.poolGlide j hj)) i hi

end Sys2Proof.Machine
end

