-- ==== Sys2Proof/Laws/Oscillator.lean ====
section
/-! SUPPORT. Laws of the oscillator bank: what one frame does to the three phases of a copy (44_oscillator.md R320, R323,
R330, R335), and what `OscMix` gives (48_voice.md R452). -/

namespace Sys2Proof.Machine

variable (fs f vel pw : F64) (q : OscParams) (c : Copy) (shape : F64 → F64 → F64)

/-- A fixed-point step is at most half a cycle (44_oscillator.md R323). -/
theorem phaseStep_le (dt : F64) : phaseStep dt ≤ 2 ^ 31 := Nat.min_le_right _ _

/-- An addition of at most half a cycle wraps at most once, and it wrapped exactly when the sum is below the old phase. -/
theorem advance_toNat (ph : Phase) {n : Nat} (h : n ≤ 2 ^ 31) :
    ph.toNat + n = (advance ph n).toNat + (if advance ph n < ph then 2 ^ 32 else 0) := by
  have hp := ph.isLt
  have ha : (advance ph n).toNat = (ph.toNat + n) % 2 ^ 32 := by
    rw [advance, BitVec.toNat_add, BitVec.toNat_ofNat, Nat.mod_eq_of_lt (b := 2 ^ 32) (a := n) (by omega)]
  simp only [BitVec.lt_def, ha]
  split <;> omega

@[simp] theorem fixedFrame_ph : (fixedFrame fs f c shape).copy.ph = advance c.ph (phaseStep (phaseInc fs f)) := by
  simp only [fixedFrame]
@[simp] theorem fixedFrame_wt : (fixedFrame fs f c shape).copy.wt = c.wt := by
  simp only [fixedFrame]
@[simp] theorem fixedFrame_fm : (fixedFrame fs f c shape).copy.fm = c.fm := by
  simp only [fixedFrame]
@[simp] theorem fixedFrame_wrapped :
    (fixedFrame fs f c shape).wrapped = decide (advance c.ph (phaseStep (phaseInc fs f)) < c.ph) := by
  simp only [fixedFrame]

@[simp] theorem fmFrame_ph : (fmFrame fs f vel q c).copy.ph = advance c.ph (phaseStep (phaseInc fs f)) := by
  simp only [fmFrame, fixedFrame]
@[simp] theorem fmFrame_wt : (fmFrame fs f vel q c).copy.wt = c.wt := by
  simp only [fmFrame, fixedFrame]
@[simp] theorem fmFrame_wrapped :
    (fmFrame fs f vel q c).wrapped = decide (advance c.ph (phaseStep (phaseInc fs f)) < c.ph) := by
  simp only [fmFrame, fixedFrame]

@[simp] theorem wtFrame_ph : (wtFrame fs f q c).copy.ph = c.ph := by
  simp only [wtFrame]
@[simp] theorem wtFrame_fm : (wtFrame fs f q c).copy.fm = c.fm := by
  simp only [wtFrame]

/-- A frame of a copy, by the representation of its waveform: fixed point, FM or wavetable (44_oscillator.md R320). -/
theorem copyFrame_cases :
    (waveformOf q.wave ≠ .fm ∧ waveformOf q.wave ≠ .wavetable ∧
      ∃ shape, copyFrame fs f vel pw q c = fixedFrame fs f c shape) ∨
    (waveformOf q.wave = .fm ∧ copyFrame fs f vel pw q c = fmFrame fs f vel q c) ∨
    (waveformOf q.wave = .wavetable ∧ copyFrame fs f vel pw q c = wtFrame fs f q c) := by
  unfold copyFrame
  cases waveformOf q.wave <;> simp

/-- A copy that does not run holds its phases (44_oscillator.md R320). -/
theorem oscFrame_held (pitch pr : F64) (o : OscState) (u : Fin 8) (h : ¬u.val < q.copies) :
    (oscFrame fs pitch pr vel q o).osc.copies[u] = o.copies[u] := by
  unfold oscFrame copyFrames
  simp only [Fin.getElem_fin, Vector.getElem_ofFn]
  rw [if_neg h]

/-! ### The mix of a voice (48_voice.md R452) -/

section Mix

variable (p : Params) (pr : F64) (w : Voice)

/-- The state that oscillator 2 starts a frame from, after the sync check (44_oscillator.md R336). -/
def oscTwoStart : OscState :=
  if isOn p.sync && (oscFrame fs w.pitch pr w.vel p.osc1 w.osc1).wrapped then w.osc2.synced else w.osc2

/-- One channel of the two oscillators: `bal` is the balance of a pan, `acc` the channel's sum of an oscillator. -/
def oscSide (bal : F64 → F64) (acc : OscFrame → F64) : F64 :=
  ((p.osc1.level.mul (bal p.osc1.pan)).mul (acc (oscFrame fs w.pitch pr w.vel p.osc1 w.osc1))).add
    ((p.osc2.level.mul (bal p.osc2.pan)).mul (acc (oscFrame fs w.pitch pr w.vel p.osc2 (oscTwoStart fs p pr w))))

/-- One channel of the sub-oscillator. -/
def subSide (bal : F64 → F64) : F64 := (p.subLevel.mul (bal p.subPan)).mul (subFrame fs w.pitch pr p w.subPh).1

theorem oscMix_voice :
    (oscMix fs p pr w).voice = { w with
      osc1 := (oscFrame fs w.pitch pr w.vel p.osc1 w.osc1).osc
      osc2 := (oscFrame fs w.pitch pr w.vel p.osc2 (oscTwoStart fs p pr w)).osc
      subPh := (subFrame fs w.pitch pr p w.subPh).2 } := by
  unfold oscMix oscTwoStart
  dsimp only
  cases isOff p.subDirect <;> rfl

/-- With the sub-oscillator in the mix, nothing bypasses the filter. -/
theorem oscMix_mixed (h : isOff p.subDirect = true) :
    (oscMix fs p pr w).x = ⟨(oscSide fs p pr w balanceL OscFrame.accL).add (subSide fs p pr w balanceL),
      (oscSide fs p pr w balanceR OscFrame.accR).add (subSide fs p pr w balanceR)⟩ ∧
    (oscMix fs p pr w).direct = ⟨F64.zero, F64.zero⟩ := by
  unfold oscMix oscSide subSide oscTwoStart
  dsimp only
  rw [if_pos h]
  exact ⟨rfl, rfl⟩

/-- With the sub-oscillator direct, it bypasses the filter. -/
theorem oscMix_direct (h : isOff p.subDirect = false) :
    (oscMix fs p pr w).x = ⟨oscSide fs p pr w balanceL OscFrame.accL, oscSide fs p pr w balanceR OscFrame.accR⟩ ∧
    (oscMix fs p pr w).direct = ⟨subSide fs p pr w balanceL, subSide fs p pr w balanceR⟩ := by
  unfold oscMix oscSide subSide oscTwoStart
  dsimp only
  rw [if_neg (by rw [h]; decide)]
  exact ⟨rfl, rfl⟩

end Mix

end Sys2Proof.Machine
end

