-- ==== Sys2Proof/Laws/PerInstr.lean ====
section
/-! SUPPORT. A statement about every command as syntax, one lemma per constructor: how long its encoding is and which
opcode its header carries (30_encoding.md R130, R131, R133). -/

namespace Sys2Proof

/-- The opcode of a header whose operand bits fit below it. -/
theorem opcode_header {op n : Nat} (hop : op < 2 ^ 8) (hn : n < 2 ^ 24) : opcode (header op n) = op := by
  rw [opcode, field, header, BitVec.toNat_ofNat, Nat.mod_eq_of_lt (by omega)]
  omega

end Sys2Proof

namespace Sys2Proof.Laws.EncodeLength

/-- A command is encoded in as many words as its opcode says, and its header carries that opcode. -/
def Statement (i : Instr) : Prop :=
  (encode i).length = i.words ∧ (i.WellFormed → ∀ w, (encode i).head? = some w → opcode w = i.op)

theorem nop : Statement .nop := ⟨rfl, fun _ _ h => by cases h; decide⟩

theorem clearStatus : Statement .clearStatus := ⟨rfl, fun _ _ h => by cases h; decide⟩

theorem reset (bs : Nat) (sr : F64) : Statement (.reset bs sr) := by
  refine ⟨rfl, fun hw w h => ?_⟩
  have hb : bs < 2 ^ 16 := by simpa [Instr.WellFormed, Instr.wellFormed] using hw
  cases h
  exact opcode_header (by decide) (by omega)

theorem noteOn (note vel : Nat) : Statement (.noteOn note vel) := by
  refine ⟨rfl, fun hw w h => ?_⟩
  have hb : note < 2 ^ 7 ∧ vel < 2 ^ 7 := by simpa [Instr.WellFormed, Instr.wellFormed] using hw
  cases h
  exact opcode_header (by decide) (by omega)

theorem noteOff (note : Nat) : Statement (.noteOff note) := by
  refine ⟨rfl, fun hw w h => ?_⟩
  have hb : note < 2 ^ 7 := by simpa [Instr.WellFormed, Instr.wellFormed] using hw
  cases h
  exact opcode_header (by decide) (by omega)

theorem cc (num val : Nat) : Statement (.cc num val) := by
  refine ⟨rfl, fun hw w h => ?_⟩
  have hb : num < 2 ^ 7 ∧ val < 2 ^ 7 := by simpa [Instr.WellFormed, Instr.wellFormed] using hw
  cases h
  exact opcode_header (by decide) (by omega)

theorem pitchBend (v14 : Nat) : Statement (.pitchBend v14) := by
  refine ⟨rfl, fun hw w h => ?_⟩
  have hb : v14 < 2 ^ 14 := by simpa [Instr.WellFormed, Instr.wellFormed] using hw
  cases h
  exact opcode_header (by decide) (by omega)

theorem programChange (b : Nat) : Statement (.programChange b) := by
  refine ⟨rfl, fun hw w h => ?_⟩
  have hb : b < 2 ^ 7 := by simpa [Instr.WellFormed, Instr.wellFormed] using hw
  cases h
  exact opcode_header (by decide) (by omega)

theorem aftertouch (b : Nat) : Statement (.aftertouch b) := by
  refine ⟨rfl, fun hw w h => ?_⟩
  have hb : b < 2 ^ 7 := by simpa [Instr.WellFormed, Instr.wellFormed] using hw
  cases h
  exact opcode_header (by decide) (by omega)

theorem paramWrite (idx : Nat) (x : F64) : Statement (.paramWrite idx x) := by
  refine ⟨rfl, fun hw w h => ?_⟩
  have hb : idx < 2 ^ 8 := by simpa [Instr.WellFormed, Instr.wellFormed] using hw
  cases h
  exact opcode_header (by decide) (by omega)

theorem setVoiceMode (mode : Nat) : Statement (.setVoiceMode mode) := by
  refine ⟨rfl, fun hw w h => ?_⟩
  have hb : mode < 2 ^ 2 := by simpa [Instr.WellFormed, Instr.wellFormed] using hw
  cases h
  exact opcode_header (by decide) (by omega)

theorem render (modin : Bool) (nf : Nat) : Statement (.render modin nf) := by
  refine ⟨rfl, fun hw w h => ?_⟩
  have hb : nf < 2 ^ 16 := by simpa [Instr.WellFormed, Instr.wellFormed] using hw
  cases h
  exact opcode_header (by decide) (by cases modin <;> simp <;> omega)

end Sys2Proof.Laws.EncodeLength
end

