-- ==== Sys2Proof/Tests/Slice0.lean ====
section
/-! SUPPORT. The model's own tests. Expected values are the spec's: the encodings of 30_encoding.md, the vectors of
95_test_vectors.md (named by their labels) and hand arithmetic from the rules. The second half gives, for every statement
with hypotheses, a concrete state and operands that meet them. -/

namespace Sys2Proof.Tests

open Sys2Proof Sys2Proof.Machine

/-! ### Ill-formed terms -/

theorem test_ill_formed_terms_are_refused :
    ¬(Instr.reset 65536 F64.one).WellFormed ∧ ¬(Instr.noteOn 128 1).WellFormed ∧ ¬(Instr.noteOn 1 128).WellFormed ∧
    ¬(Instr.noteOff 128).WellFormed ∧ ¬(Instr.cc 128 0).WellFormed ∧ ¬(Instr.cc 0 128).WellFormed ∧
    ¬(Instr.pitchBend 16384).WellFormed ∧ ¬(Instr.programChange 128).WellFormed ∧ ¬(Instr.aftertouch 128).WellFormed ∧
    ¬(Instr.paramWrite 256 F64.one).WellFormed ∧ ¬(Instr.setVoiceMode 4).WellFormed ∧
    ¬(Instr.render true 65536).WellFormed := by decide

/-! ### Words written out from the spec (95_test_vectors.md 2.1) -/

theorem test_decode_nop : decode [0x00000000] = .command .nop 1 := by decide
theorem test_decode_reset :
    decode [0x01000040, 0x00000000, 0x40E77000] = .command (.reset 64 ⟨0x40E7700000000000⟩) 3 := by decide
theorem test_decode_note_on : decode [0x0200457F] = .command (.noteOn 69 127) 1 := by decide
theorem test_decode_note_off : decode [0x03003C00] = .command (.noteOff 60) 1 := by decide
theorem test_decode_cc : decode [0x0400407F] = .command (.cc 64 127) 1 := by decide
theorem test_decode_pitch_bend : decode [0x05003FFF] = .command (.pitchBend 16383) 1 := by decide
theorem test_decode_program_change : decode [0x06000005] = .command (.programChange 5) 1 := by decide
theorem test_decode_aftertouch : decode [0x0700007F] = .command (.aftertouch 127) 1 := by decide
theorem test_decode_param_write :
    decode [0x10000050, 0x00000000, 0x3FF00000] = .command (.paramWrite 0x50 ⟨0x3FF0000000000000⟩) 3 := by decide
theorem test_decode_set_voice_mode :
    decode [0x11000001] = .command (.setVoiceMode 1) 1 ∧ decode [0x11000003] = .command (.setVoiceMode 3) 1 := by decide
theorem test_decode_render :
    decode [0x20000200] = .command (.render false 512) 1 ∧ decode [0x20010100] = .command (.render true 256) 1 := by
  decide
theorem test_decode_clear_status : decode [0x30000000] = .command .clearStatus 1 := by decide

/-- The table of decoding corner cases of 95_test_vectors.md 2.1. -/
theorem test_decode_rejects :
    decode [0xFF000000] = .illegalOpcode ∧ decode [0x08000000] = .illegalOpcode ∧
    decode [0x10000100, 0x20000200, 0x20000200] = .reservedBits 3 ∧ decode [0x00000001] = .reservedBits 1 ∧
    decode [0x02008000] = .reservedBits 1 ∧ decode [0x02000080] = .reservedBits 1 ∧
    decode [0x03003C01] = .reservedBits 1 ∧ decode [0x05004000] = .reservedBits 1 ∧
    decode [0x20020010] = .reservedBits 1 ∧ decode [0x11000004] = .reservedBits 1 ∧
    decode [0x10000100] = .noPayload ∧ decode [0x01000200, 0x00000000] = .noPayload ∧ decode [] = .noHeader := by decide

/-- The host's entry: a header and its payload, numbered from the header's bit 0. -/
theorem test_decode_table_word :
    decodeTableWord 32 0x02003C64 = some (.noteOn 60 100) ∧
    decodeTableWord 96 0x408F40000000000010000032 = some (.paramWrite 0x32 (F64.int 1000)) ∧
    decodeTableWord 32 0x01000200 = some (.reset 512 F64.zero) ∧ decodeTableWord 32 0xFF000000 = none := by
  decide +kernel

/-! ### Binary64 -/

/-- Rounding to nearest even, and a subnormal result replaced by a zero (00_scope.md R11, R15). -/
theorem test_binary64_rounds :
    (F64.lit ⟨1, 10⟩).add (F64.lit ⟨2, 10⟩) = ⟨0x3FD3333333333334⟩ ∧ F64.one.div (F64.int 3) = ⟨0x3FD5555555555555⟩ ∧
    (F64.int 2).sqrt = ⟨0x3FF6A09E667F3BCD⟩ ∧ (F64.lit ⟨375, 1000⟩).sqrt = ⟨0x3FE3988E1409212E⟩ ∧
    F64.mul ⟨0x0010000000000000⟩ F64.half = F64.zero ∧ F64.add ⟨0x0000000000000001⟩ F64.one = F64.one ∧
    F64.mul ⟨0x7FEFFFFFFFFFFFFF⟩ (F64.int (-2)) = F64.infOf true := by decide +kernel

/-- 00_scope.md R13: `rnd(x)` is `floor(x + 0.5)`; vector E1's lengths and 48 samples for 1 ms at 48 kHz. -/
theorem test_sample_counts :
    scaleTime F64.one F64.one (F64.int 100) = ⟨0x4023FFFFFFFFFFFF⟩ ∧
    nSms (F64.int 48000) (scaleTime F64.one F64.one (F64.int 100)) = 480 ∧
    nSms (F64.int 48000) (scaleTime F64.half ((F64.int 100).div (F64.int 127)) (F64.int 10)) = 310 ∧
    nS (F64.int 48000) (F64.lit Config.xfRetrigS) = 240 ∧ nS (F64.int 44100) (F64.lit Config.fadeCapS) = 44 ∧
    nSms (F64.int 48000) F64.zero = 1 := by decide +kernel

/-! ### The datapath where no configuration function enters -/

/-- Vector O3: saw, square and triangle from phase 0 at note 69. -/
theorem test_waveforms_from_phase_zero :
    let dq := cycles 39370533
    sawSample (cycles 0) dq = F64.zero ∧ sawSample (cycles 39370533) dq = ⟨0xBFEF69D036C00000⟩ ∧
    squareSample (cycles 0) dq = F64.zero ∧ squareSample (cycles 39370533) dq = F64.one ∧
    triangleSample (cycles 0) dq = ⟨0xBFEF9BE024800000⟩ ∧
    pulseSample (cycles 0) dq (F64.lit ⟨25, 100⟩) = F64.zero := by decide +kernel

/-- Vector O4: the samples of the frame that wraps. -/
theorem test_waveforms_at_the_wrap :
    let dq := cycles 39370533
    let t := cycles 4291388097
    sawSample t dq = ⟨0x3FC6007BF8F710F0⟩ ∧ squareSample t dq = ⟨0xBFC6371937F710F0⟩ ∧
    triangleSample t dq = ⟨0xBFEF9977E11DB49B⟩ ∧ (advance 4291388097 39370533).toNat = 35791334 := by decide +kernel

/-- Vector O2: the step residuals. -/
theorem test_residuals :
    let d := cycles 39370533
    blep F64.zero d = F64.int (-1) ∧ blep (d.div (F64.int 2)) d = F64.lit ⟨-25, 100⟩ ∧ blep F64.half d = F64.zero ∧
    blep F64.zero F64.zero = F64.zero ∧ blamp F64.zero d = F64.one.div (F64.int 6) := by decide +kernel

/-- Vectors E2 and E3: unison weights for three copies, and the detunes of the default patch (95_test_vectors.md 2.7). -/
theorem test_unison :
    let q := OscParams.powerOn F64.one
    (centreWeight q).mul (powerComp q 3) = ⟨0x3FEA20BD700C2C3F⟩ ∧
    (unison q 3 1).cents = F64.lit ⟨125, 10⟩ ∧ (unison q 3 2).cents = F64.lit ⟨-125, 10⟩ ∧
    (unison q 2 0).cents = F64.lit ⟨-625, 100⟩ ∧ (unison q 4 3).cents = F64.lit ⟨125, 10⟩ ∧
    (unison q 4 1).cents = F64.lit ⟨625, 100⟩ := by decide +kernel

/-- Vector N6: a release from a floor starts at the effective level. -/
theorem test_release_from_a_floor :
    envRelease ⟨.attack, F64.lit ⟨1, 10⟩, F64.lit ⟨3, 10⟩, 100, F64.zero⟩ =
      ⟨.release, F64.lit ⟨3, 10⟩, F64.zero, 0, F64.zero⟩ := by decide +kernel

/-- Vector F4: state sanitising. -/
theorem test_filter_states :
    flushState (F64.lit ⟨5, 10 ^ 19⟩) = F64.zero ∧ flushState (F64.lit ⟨1, 10 ^ 18⟩) = F64.lit ⟨1, 10 ^ 18⟩ ∧
    Svf.sanitise ⟨F64.infOf false, F64.one⟩ = ⟨F64.zero, F64.zero⟩ := by decide +kernel

/-- Vector E7: the release multipliers. -/
theorem test_release_multipliers :
    [8, 9, 12, 13, 16, 17, 20, 21, 32].map relMulFor = [1, 2, 2, 4, 4, 8, 8, 16, 16] := by decide

/-- The SanitiseMod table of 95_test_vectors.md 2.5. -/
theorem test_sanitise_mod :
    let nan : F64 := ⟨0x7FF8000000000000⟩
    sanitiseMod ⟨nan, nan, nan⟩ = ⟨F64.one, F64.zero, F64.one⟩ ∧
    sanitiseMod ⟨F64.infOf false, F64.infOf false, F64.infOf false⟩ = ⟨F64.one, F64.zero, F64.one⟩ ∧
    sanitiseMod ⟨F64.infOf true, F64.infOf true, F64.infOf true⟩ = ⟨F64.one, F64.zero, F64.zero⟩ ∧
    sanitiseMod ⟨F64.int (-2), F64.int 20, F64.int (-1)⟩ = ⟨F64.one, F64.int 10, F64.zero⟩ ∧
    sanitiseMod ⟨F64.int 100, F64.int (-20), F64.int 2⟩ = ⟨F64.int 16, F64.int (-10), F64.one⟩ ∧
    sanitiseMod ⟨F64.lit ⟨1, 100⟩, F64.zero, F64.one⟩ = ⟨F64.lit ⟨625, 10000⟩, F64.zero, F64.one⟩ := by decide +kernel

/-- Vector V7: a glide of 48 frames from 60 to 72. -/
theorem test_glide_step :
    let w := ({ Voice.reset with pitch := F64.int 60 } : Voice).setPitch (F64.int 48000)
      { Params.powerOn with glide := F64.one } (F64.int 72) true
    w.glideRem = 48 ∧ w.glideStep = F64.lit ⟨25, 100⟩ ∧ w.glideFrame.pitch = F64.lit ⟨6025, 100⟩ := by decide +kernel

/-! ### Commands, one step each -/

/-- The block right after `RESET 512, 48000.0`. -/
def ready : State := State.reset.afterReset 512 (F64.int 48000)

/-- `ready` in another voice mode. -/
def inMode (m : VoiceMode) : State := { ready with g := { ready.g with voiceMode := m } }

/-- A held voice in Sustain. -/
def heldVoice (note : Nat) (level : F64) : Voice :=
  { Voice.reset with note := note, velRaw := 100, amp := ⟨.sustain, level, F64.zero, 0, F64.zero⟩ }

/-- A voice in Release. -/
def releasingVoice (level : F64) : Voice :=
  { Voice.reset with note := 60, velRaw := 100, isReleasing := true, amp := ⟨.release, level, F64.zero, 0, F64.zero⟩ }

/-- `ready` with every slot holding the same voice. -/
def everySlot (w : Voice) : State := ready.setVoices (Vector.replicate 33 w)

theorem test_power_on_status : State.reset.status0 = 0 ∧ State.reset.status1 = 0 ∧ State.reset.status2 = 0 := by
  decide +kernel

theorem test_nop : step { ready with cmd := [0x00000000] } = .next { ready with cmd := [], cmdPos := 1 } := rfl

theorem test_reset_status : ready.status0 = 0x00000001 ∧ ready.status1 = 0 ∧ ready.g.fs = ⟨0x40E7700000000000⟩ := by
  decide +kernel

theorem test_reset_checks :
    rateOk ⟨0x40AF400000000000⟩ = false ∧ rateOk ⟨0x4117700000000000⟩ = true ∧ rateOk ⟨0x40BF400000000000⟩ = true ∧
    (State.reset.raise .badOperand).status0 = 0x00010042 ∧ (State.reset.raise .badValue).status0 = 0x00010062 := by
  decide +kernel

theorem test_clear_status : execClearStatus (ready.raise .illegalOpcode) = .next ready := rfl

/-- 95_test_vectors.md 2.3, first two rows. -/
theorem test_note_on :
    (ready.noteOn 60 100).status0 = 0x00000101 ∧ (ready.noteOn 60 100).status1 = 0x00000001 ∧
    ((ready.noteOn 60 100).voice 0).velT = ⟨0x3FE93264C993264D⟩ ∧
    ((ready.noteOn 60 100).noteOn 60 90).status1 = 0x00000003 := by decide +kernel

/-- 41_note_commands.md R222: the released voice stays busy. -/
theorem test_note_off :
    ((ready.noteOn 60 100).noteOff 60).status0 = 0x00000101 ∧
    (((ready.noteOn 60 100).noteOff 60).voice 0).lifecycle = .releasing ∧
    (((ready.noteOn 60 100).noteOff 61).voice 0).lifecycle = .active := by decide +kernel

theorem test_controller_events :
    execCc 64 127 ready = .next ready ∧ execPitchBend 16383 ready = .next ready ∧
    execProgramChange 5 ready = .next ready ∧ execAftertouch 127 ready = .next ready := ⟨rfl, rfl, rfl, rfl⟩

/-- 95_test_vectors.md 2.3: a switch releases, sets MODE, and leaves the voices busy. -/
theorem test_set_voice_mode :
    (State.reset.switchVoiceMode .legato).status0 = 0x00008000 ∧
    ((ready.noteOn 60 100).switchVoiceMode .mono).status0 = 0x00004101 ∧
    (((ready.noteOn 60 100).switchVoiceMode .mono).voice 0).lifecycle = .releasing := by decide +kernel

/-- 95_test_vectors.md 2.4. -/
theorem test_param_conversions :
    (ParamReg.osc .one .oct).stored ⟨0x3FDFFFFFFFFFFFFF⟩ = F64.one ∧
    (ParamReg.osc .one .oct).stored (F64.lit ⟨-5, 10⟩) = F64.zero ∧
    (ParamReg.osc .one .oct).stored (F64.infOf true) = F64.int (-3) ∧
    ParamReg.filterType.stored (F64.lit ⟨37, 10⟩) = F64.int 3 ∧ ParamReg.filterEnable.stored (F64.infOf true) = F64.zero ∧
    (ParamReg.env .amp .tA).stored (F64.int 20000) = F64.int 10000 ∧ ParamReg.cutoff.stored ⟨1⟩ = F64.int 20 := by
  decide +kernel

theorem test_param_write :
    (ready.writeParam .cutoff (F64.int 50000)).p = { Params.powerOn with cutoff := F64.int 20000 } ∧
    ParamReg.ofIndex 0x4C = some (.env .filt .sens) ∧ ParamReg.ofIndex 0x45 = none := by decide +kernel

/-- A RENDER with no sounding voice emits zeros (95_test_vectors.md 2.5). -/
theorem test_render_silence :
    (ready.renderBlock false 4).out = List.replicate 4 ⟨F64.zero, F64.zero⟩ := by decide +kernel

/-- Program 5 of 95_test_vectors.md: 20 active voices with 5 releasing give `relMul` 8 and four fades, the quietest first. -/
theorem test_hard_cap :
    let v : Vector Voice 33 := Vector.ofFn (fun i =>
      if i.val < 5 then releasingVoice (F64.nat (9 - i.val)) else if i.val < 20 then heldVoice 70 F64.one else Voice.reset)
    activeCount v = 20 ∧ hardCapSlots v 20 = [4, 3, 2, 1] ∧
    (ready.setVoices v).housekeeping.status0 = 0x03001401 ∧ (ready.setVoices v).housekeeping.status2 = 0x1E := by
  decide +kernel

/-- 49_voice_pool.md R492: the quietest releasing voice, the lowest index of equals. -/
theorem test_steal_candidate :
    stealCandidate (Vector.replicate 33 (heldVoice 60 F64.half)) = 0 ∧
    stealCandidate ((Vector.replicate 33 (heldVoice 60 F64.half)).set 7 (releasingVoice F64.one)) = 7 := by decide +kernel

/-- Vector A7: the seventeenth note drops the oldest, and a held note moves to the top. -/
theorem test_note_stack :
    stackPush (List.range' 50 16) 66 = List.range' 51 16 ∧
    stackPush [51, 52, 55, 56] 55 = [51, 52, 56, 55] ∧ stackTop [51, 52] = some 52 := by decide

/-- 49_voice_pool.md R514: the top note gives way to the one before it, at the velocity of the last trigger. -/
theorem test_mono_note_off :
    let s := ((inMode .mono).noteOn 60 100).noteOn 64 80
    (s.noteOff 64).g.stack = [60] ∧ ((s.noteOff 64).voice 32).note = 60 ∧ ((s.noteOff 64).voice 32).velRaw = 80 ∧
    ((s.noteOff 60).voice 32).note = 64 := by decide +kernel

/-- Vector A6's frame: a MONO retrigger holds the old level as a floor of 240 frames. -/
theorem test_mono_retrigger :
    let w := (((inMode .mono).setVoice 32 (heldVoice 60 F64.half)).noteOn 64 80).voice 32
    w.amp.phase = .attack ∧ w.amp.floor = F64.half ∧ w.amp.floorRem = 240 ∧ w.pitch = F64.int 64 := by decide +kernel

/-! ### Witnesses: states and operands that meet the hypotheses of the statements -/

/-- `ready` with a command stream. -/
def withCmd (ws : List Word) : State := { ready with cmd := ws }

/-- A modulation frame of neutral values. -/
def plainMod : ModFrame := ⟨F64.one, F64.zero, F64.one⟩

/-- EncodedCommandDecodesToItself: every operand at the top of its field. -/
theorem test_wit_well_formed :
    ∀ i ∈ [Instr.nop, .reset 65535 F64.one, .noteOn 127 127, .noteOff 127, .cc 127 127, .pitchBend 16383,
      .programChange 127, .aftertouch 127, .paramWrite 255 F64.one, .setVoiceMode 3, .render true 65535, .clearStatus],
      i.WellFormed := by decide

/-- DecodedWordsAreTheEncoding. -/
theorem test_wit_decodes : decode [0x2001FFFF, 0x00000000] = .command (.render true 65535) 1 := by decide

/-- HeaderIsLegalExactlyByItsRow: a header on each side of the equivalence. -/
theorem test_wit_header_rows :
    (∃ f ∈ headerForms, (0x11000003 : Word) &&& f.2.1 = f.1) ∧ ¬∃ f ∈ headerForms, (0x11000004 : Word) &&& f.2.1 = f.1 := by decide

/-- BadHeaderIsRejected, first clause: unassigned opcodes next to assigned ones. -/
theorem test_wit_illegal_opcodes :
    (∀ f ∈ headerForms, (0x08000000 : Word) &&& 0xFF000000 ≠ f.1) ∧
    (∀ f ∈ headerForms, (0x12000000 : Word) &&& 0xFF000000 ≠ f.1) ∧
    ∀ f ∈ headerForms, (0xFF000000 : Word) &&& 0xFF000000 ≠ f.1 := by decide

/-- BadHeaderIsRejected, second clause: the lowest reserved bit of a one-word and of a three-word command. -/
theorem test_wit_reserved_bits :
    (∃ f ∈ headerForms, (0x20020000 : Word) &&& 0xFF000000 = f.1 ∧ (0x20020000 : Word) &&& f.2.1 ≠ f.1 ∧
      f.2.2 ≤ (withCmd [0x20020000]).cmd.length) ∧
    ∃ f ∈ headerForms, (0x01010000 : Word) &&& 0xFF000000 = f.1 ∧ (0x01010000 : Word) &&& f.2.1 ≠ f.1 ∧
      f.2.2 ≤ (withCmd [0x01010000, 0, 0]).cmd.length := by decide

/-- StepRunsTheDecodedCommand. -/
theorem test_wit_step_runs :
    (Instr.noteOn 60 100).WellFormed ∧ (withCmd [0x02003C64, 0x20000200]).cmd = encode (.noteOn 60 100) ++ [0x20000200] :=
  ⟨by decide, by decide⟩

/-- BlockWaitsOnlyForInput: each of the three waits occurs. -/
theorem test_wit_waits :
    step State.reset = .fault .idle ∧ step (withCmd [0x01000200, 0x00000000]) = .fault .awaitPayload ∧
    step (withCmd [0x20010200]) = .fault .awaitModulation := ⟨rfl, rfl, rfl⟩

/-- StepAdvancesThroughTheStream, OutputGrowsOnlyByRender, OnlyClearStatusClearsErrors: a one-word and a three-word command
complete, a RENDER emits, and an error stands before a command that is not CLEAR_STATUS. -/
theorem test_wit_steps :
    (∃ t, step (withCmd [0x02003C64]) = .next t) ∧ (∃ t, step (withCmd [0x10000032, 0x00000000, 0x408F4000]) = .next t) ∧
    (∃ t, step (withCmd [0x20000001]) = .next t ∧ t.out.length = 1) ∧
    ∃ t, step ((withCmd [0x02003C64]).raise .badValue) = .next t ∧ ((withCmd [0x02003C64]).raise .badValue).s.errCode ≠ 0 ∧
      decode ((withCmd [0x02003C64]).raise .badValue).cmd ≠ .command .clearStatus 1 :=
  ⟨⟨_, rfl⟩, ⟨_, rfl⟩, ⟨_, rfl, by decide +kernel⟩, ⟨_, rfl, by decide, by decide⟩⟩

/-- ErrorIsRecorded: a first error, a later one, and a full count. -/
theorem test_errors_are_recorded :
    (Status.clear.record .badOperand).errCode = 4 ∧ ((Status.clear.record .badOperand).record .badValue).errCode = 4 ∧
    (Status.record ⟨1, 254⟩ .badValue).errCount = 255 ∧ (Status.record ⟨1, 255⟩ .badValue).errCount = 255 := by decide

/-- RejectedCommandHasNoOtherEffect: a NOTE_ON before the first RESET. -/
theorem test_wit_rejected :
    ∃ t, exec (.noteOn 60 1) State.reset = .next t ∧ t.s ≠ State.reset.s ∧ Instr.noteOn 60 1 ≠ .clearStatus :=
  ⟨_, rfl, by decide, by decide⟩

/-- StatusWordsShowTheState. -/
theorem test_wit_config : ConfigInv ready.g := by
  refine ⟨fun _ => ⟨?_, ?_, ?_⟩, .inl rfl⟩ <;> decide +kernel

/-- ResetSilencesAndConfigures: both ends of both ranges. -/
theorem test_wit_reset_accepts :
    (1 ≤ 1 ∧ 1 ≤ 4096) ∧ (1 ≤ 4096 ∧ 4096 ≤ 4096) ∧
    ∀ sr ∈ [F64.int 8000, F64.int 384000],
      sr.isFinite = true ∧ (F64.int 8000).le sr = true ∧ sr.le (F64.int 384000) = true := by decide +kernel

/-- ResetRejectsBadOperands: each rejected form, next to the limit it breaks. -/
theorem test_wit_reset_rejects :
    (0 = 0 ∨ 4096 < 0) ∧ (4097 = 0 ∨ 4096 < 4097) ∧ (F64.zeroOf true).isZero = true ∧ F64.isZero ⟨1⟩ = true ∧
    F64.isNaN ⟨0x7FF8000000000000⟩ = true ∧ (F64.infOf false).isInf = true ∧
    F64.lt ⟨0x40BF3FFFFFFFFFFF⟩ (F64.int 8000) = true ∧ (F64.int 384000).lt ⟨0x4117700000000001⟩ = true := by decide +kernel

/-- VoiceModeSwitchReleasesEveryVoice: the current mode, and another. -/
theorem test_wit_mode_switch : VoiceMode.poly = ready.g.voiceMode ∧ VoiceMode.legato ≠ ready.g.voiceMode := by decide

/-- UnconfiguredBlockRejectsSound. -/
theorem test_wit_unconfigured : State.reset.g.configured = false ∧ (1 : Nat) ≠ 0 := by decide

/-- EveryPolyNoteSounds: a pool with every voice busy. -/
theorem test_wit_full_pool :
    let s := everySlot (heldVoice 60 F64.half)
    s.g.configured = true ∧ s.g.voiceMode = .poly ∧ (∀ j ∈ poolSlots, (s.voice j).busy = true) ∧
    (s.voice 0).sounding = true := by decide +kernel

/-- PolyNoteTakesTheLowestIdleVoice: only the last pool voice is free; then only the last is marked for recycling. -/
theorem test_wit_lowest_idle :
    (let s := (everySlot (heldVoice 60 F64.half)).setVoice 31 Voice.reset
     s.g.configured = true ∧ s.g.voiceMode = .poly ∧ (1 : Nat) ≠ 0 ∧ (31 : Slot) ∈ poolSlots ∧
       (s.voice 31).sounding = false ∧ ∀ j : Slot, j < 31 → (s.voice j).sounding = true) ∧
    (let s := (everySlot (heldVoice 60 F64.half)).setVoice 31 ((releasingVoice F64.one).fadeStart (F64.int 48000))
     s.g.configured = true ∧ s.g.voiceMode = .poly ∧ (∀ j ∈ poolSlots, (s.voice j).sounding = true) ∧
       (s.voice 31).forceRecycle = true ∧ ∀ j : Slot, j < 31 → (s.voice j).forceRecycle = false) := by decide +kernel

/-- PolyNoteStealsTheQuietestVoice, first branch: one releasing voice. -/
theorem test_wit_steal_releasing :
    let s := (everySlot (heldVoice 60 F64.half)).setVoice 31 (releasingVoice F64.one)
    s.g.configured = true ∧ s.g.voiceMode = .poly ∧ (∀ j ∈ poolSlots, (s.voice j).busy = true) ∧
    IsQuietest s.v (fun w => w.releasing = true) 31 := by
  unfold IsQuietest
  decide +kernel

/-- PolyNoteStealsTheQuietestVoice, second branch: all held, and equal levels go to the lowest index. -/
theorem test_wit_steal_held :
    let s := everySlot (heldVoice 60 F64.half)
    s.g.configured = true ∧ s.g.voiceMode = .poly ∧ (∀ j ∈ poolSlots, (s.voice j).busy = true) ∧
    (∀ j ∈ poolSlots, (s.voice j).releasing = false) ∧ IsQuietest s.v (fun _ => True) 0 := by
  unfold IsQuietest
  decide +kernel

/-- TriggerStartsANote, ReleaseStartsFromTheEffectiveLevel: from free, and from sounding with and without a level to hold. -/
theorem test_wit_trigger :
    Voice.reset.sounding = false ∧ (heldVoice 60 F64.half).sounding = true ∧
    F64.zero.lt ((heldVoice 60 F64.half).effA.mul F64.one) = true ∧
    F64.zero.lt ((heldVoice 60 F64.zero).effA.mul F64.one) = false ∧
    F64.zero.lt (heldVoice 60 F64.half).filt.eff = false ∧
    F64.zero.lt ({ heldVoice 60 F64.half with filt := ⟨.decay, F64.one, F64.zero, 0, F64.zero⟩ } : Voice).filt.eff = true := by
  decide +kernel

/-- PolyNoteOffReleasesEveryHeldVoice: two voices hold the note. -/
theorem test_wit_poly_note_off :
    (everySlot (heldVoice 60 F64.half)).g.voiceMode = .poly ∧
    ∀ i ∈ poolSlots, ((everySlot (heldVoice 60 F64.half)).voice i).sounding = true ∧
      ((everySlot (heldVoice 60 F64.half)).voice i).note = 60 ∧
      ((everySlot (heldVoice 60 F64.half)).voice i).isReleasing = false := by decide +kernel

/-- StackPushKeepsTheNewestNotes: a stack one short of full, a full one, and a note already held. -/
theorem test_wit_stack_push :
    (List.range 15).Nodup ∧ (List.range 15).length < 16 ∧ 99 ∉ List.range 15 ∧
    (List.range 16).Nodup ∧ (List.range 16).length = 16 ∧ 99 ∉ List.range 16 ∧
    List.range 3 = [0] ++ 1 :: [2] ∧ (List.range 3).length ≤ 16 := by decide

/-- MonoNoteRetriggersTheMonoVoice, LegatoNoteOnlyMovesThePitch: with and without a held note, with and without a glide. -/
theorem test_wit_mono_notes :
    (inMode .mono).g.configured = true ∧ (inMode .mono).g.voiceMode = .mono ∧ (1 : Nat) ≠ 0 ∧
    ((inMode .legato).setStack [60]).g.configured = true ∧ (inMode .legato).g.configured = true ∧
    (inMode .legato).g.voiceMode = .legato ∧ (inMode .legato).g.stack = [] ∧
    ((inMode .legato).setStack [60]).g.stack ≠ [] ∧ F64.zero.lt (inMode .legato).p.glide = false ∧
    F64.zero.lt ((inMode .legato).writeParam .glide F64.one).p.glide = true := by decide +kernel

/-- MonoNoteOffReturnsToThePreviousNote: a note not held, one below the top, the top of two, and the last one. -/
theorem test_wit_mono_note_off :
    let s := (inMode .mono).setStack [60, 64]
    (s.g.voiceMode = .mono ∨ s.g.voiceMode = .legato) ∧ 72 ∉ s.g.stack ∧
    (s.g.stack = [60] ++ [64] ∧ 60 ∈ s.g.stack ∧ (60 : Nat) ≠ 64) ∧ (s.g.stack = [] ++ [60, 64] ∧ 64 ∉ [] ++ [60]) ∧
    ((inMode .mono).setStack [60]).g.stack = [60] := by decide

/-- HeldNotesKeepTheirVoices: as many notes as the pool has voices. -/
theorem test_wit_held_notes :
    let is : List Instr := (List.range 31).map (fun n => .noteOn n 1) ++ [.render false 0, .noteOn 127 127]
    ready.g.configured = true ∧ ready.g.voiceMode = .poly ∧ (∀ i ∈ poolSlots, (ready.voice i).sounding = false) ∧
    (∀ i ∈ is, playsOn i = true) ∧ (notesStarted is).length = 32 := by decide +kernel

/-- HeldNotesKeepTheirVoices: a list that meets every hypothesis and runs to a next state. -/
theorem test_wit_held_notes_run :
    let is : List Instr := [.noteOn 60 100, .render false 1, .noteOn 60 100]
    ready.g.configured = true ∧ ready.g.voiceMode = .poly ∧ (∀ i ∈ poolSlots, (ready.voice i).sounding = false) ∧
    (∀ i ∈ is, playsOn i = true) ∧ (notesStarted is).length ≤ 32 ∧ ∃ t, execAll is ready = .next t :=
  ⟨rfl, rfl, by decide +kernel, by decide, by decide, _, rfl⟩

/-- ParamWriteStoresOneRegister, StoredValueIsInRange: an infinity is a number here. -/
theorem test_wit_param_number : (F64.infOf true).isNaN = false ∧ F64.isNaN ⟨0x0000000000000001⟩ = false := by decide

/-- ParamWriteChecksIndexThenValue: the ends of the implemented ranges, indices beside them, and a NaN. -/
theorem test_wit_param_index :
    (∀ idx ∈ [0x00, 0x0D, 0x10, 0x1D, 0x20, 0x24, 0x30, 0x34, 0x40, 0x44, 0x48, 0x4C, 0x50, 0x51],
      ∃ r ∈ ParamReg.all, r.index = idx) ∧
    (∀ idx ∈ [0x0E, 0x0F, 0x1E, 0x25, 0x2F, 0x35, 0x3F, 0x45, 0x47, 0x4D, 0x4F, 0x52, 0xFF],
      ¬∃ r ∈ ParamReg.all, r.index = idx) ∧ F64.isNaN ⟨0x7FF0000000000001⟩ = true := by decide

/-- OnlyParamWriteWritesRegisters: a step that writes the cutoff. -/
theorem test_wit_param_step :
    ∃ t, step (withCmd [0x10000032, 0x00000000, 0x408F4000]) = .next t ∧
      t.p ≠ (withCmd [0x10000032, 0x00000000, 0x408F4000]).p := ⟨_, rfl, by decide +kernel⟩

/-- RenderEmitsItsFrames, SilentRenderEmitsZeros: one frame, a whole block, and a block with its modulation present. -/
theorem test_wit_render :
    ready.g.configured = true ∧ 1 ≤ 512 ∧ 512 ≤ ready.g.blockSize ∧ 1 ≤ 1 ∧ 1 ≤ ready.g.blockSize ∧
    2 ≤ ({ ready with modIn := [plainMod, plainMod] } : State).modIn.length ∧
    ∀ i : Slot, (ready.voice i).sounding = false := by decide +kernel

/-- RenderOfNoneTooManyOrTooFew: one frame too many, and one modulation frame too few. -/
theorem test_wit_render_limits :
    ready.g.blockSize < 513 ∧ 512 ≤ ready.g.blockSize ∧
    ({ ready with modIn := List.replicate 511 plainMod } : State).modIn.length < 512 := by decide +kernel

/-- ModulationIsBounded: a value for every clause. -/
theorem test_wit_modulation :
    F64.isFinite ⟨0x7FF8000000000000⟩ = false ∧ (F64.zeroOf true).le F64.zero = true ∧
    F64.isNaN ⟨0x7FF8000000000000⟩ = true ∧ (F64.int 17).isFinite = true ∧ (F64.int 16).lt (F64.int 17) = true ∧
    F64.zero.lt (F64.lit ⟨6, 100⟩) = true ∧ (F64.lit ⟨6, 100⟩).lt (F64.lit ⟨625, 10000⟩) = true ∧
    (F64.int 10).lt (F64.int 11) = true ∧ (F64.int (-11)).lt (F64.int (-10)) = true ∧
    F64.one.lt (F64.infOf false) = true ∧ (F64.int (-1)).lt F64.zero = true ∧
    (F64.lit ⟨625, 10000⟩).le (F64.lit ⟨625, 10000⟩) = true ∧ (F64.int 16).le (F64.int 16) = true ∧
    (F64.int (-10)).le (F64.zeroOf true) = true ∧ (F64.zeroOf true).le (F64.int 10) = true ∧
    F64.zero.le (F64.zeroOf true) = true ∧ (F64.zeroOf true).le F64.one = true := by decide +kernel

/-- DisabledFilterPassesAndHolds, SyncRestartsOscillatorTwo: a bool register at each of its values. -/
theorem test_wit_bool_registers :
    (ready.writeParam .filterEnable F64.zero).p.filterEnable = F64.zero ∧ ready.p.sync = F64.zero ∧
    (ready.writeParam .sync F64.one).p.sync = F64.one ∧ ready.p.subDirect = F64.zero ∧
    (ready.writeParam .subDirect F64.one).p.subDirect = F64.one := by decide +kernel

/-- A voice at note 69 whose oscillators are one step from the end of a cycle. -/
def nearWrap : Voice :=
  let osc : OscState := { copies := Vector.replicate 8 ⟨0xFFFFFFFF, F64.half, 5⟩, pw := F64.half }
  { heldVoice 69 F64.one with pitch := F64.int 69, osc1 := osc, osc2 := osc }

/-- SyncRestartsOscillatorTwo: with sync on, a master that finishes its cycle over an oscillator 2 whose phases are not 0.
Nothing is assumed of `Exp2` (00_scope.md R12), so its value at 0 is a hypothesis here: 1, as of the real function. -/
theorem test_wit_wrapped_master (h : Config.exp2 F64.zero = F64.one) :
    let p := Params.powerOn.set .sync F64.one
    p.sync = F64.one ∧
    (copyFrames (F64.int 48000) nearWrap.pitch F64.one nearWrap.vel p.osc1 nearWrap.osc1)[0].wrapped = true ∧
    nearWrap.osc2.copies[0].ph ≠ 0 ∧ nearWrap.osc2.copies[0].wt ≠ F64.zero := by
  refine ⟨by decide +kernel, ?_, by decide +kernel, by decide +kernel⟩
  have hf : copyFreq (OscParams.powerOn F64.one) (F64.int 69) F64.one
      (unison (OscParams.powerOn F64.one) (OscParams.powerOn F64.one).copies 0).cents = F64.int 440 := by
    have he : ∀ e : F64, (e.div (F64.int 12)).daz = F64.zero → tuned e F64.one = F64.int 440 := by
      intro e h0
      unfold tuned F64.exp2
      rw [h0, h]
      decide +kernel
    exact he _ (by decide +kernel)
  have hw : waveformOf (OscParams.powerOn F64.one).wave = .saw := by decide +kernel
  have hn : 0 < (OscParams.powerOn F64.one).copies := by decide +kernel
  have hq : (Params.powerOn.set .sync F64.one).osc1 = OscParams.powerOn F64.one := by decide +kernel
  have hp : nearWrap.pitch = F64.int 69 := by decide +kernel
  rw [hq, hp]
  unfold copyFrames copyFrame
  simp only [Vector.getElem_ofFn, hw, hn, if_true, fixedFrame_wrapped, hf]
  have ha : ∀ ph : Phase, ph = 0xFFFFFFFF →
      decide (advance ph (phaseStep (phaseInc (F64.int 48000) (F64.int 440))) < ph) = true := by
    rintro _ rfl
    decide +kernel
  exact ha _ (by simp [nearWrap])

/-- FloorEndsAtExactlyZero: the floor of one frame and of 240. -/
theorem test_wit_floor :
    1 ≤ nS (F64.int 48000) (F64.lit ⟨5, 1000⟩) ∧ F64.zero.lt F64.half = true ∧ 1 ≤ 1 ∧
    1 ≤ (List.replicate 1 (F64.int 48000, F64.one, 1, Params.powerOn.amp)).length := by decide +kernel

/-- GlideLandsOnItsTarget: a glide time above 0, and 0. -/
theorem test_wit_glide :
    F64.zero.lt (Params.powerOn.set .glide F64.one).glide = true ∧ F64.zero.lt Params.powerOn.glide = false ∧
    nSms (F64.int 48000) (Params.powerOn.set .glide F64.one).glide ≤ 48 := by decide +kernel

/-- FadedVoiceIsFreedInTime: a releasing voice, enough frames, and the state right after the fade starts. -/
theorem test_wit_fade :
    (releasingVoice F64.half).releasing = true ∧
    nS (F64.int 48000) (F64.lit ⟨1, 1000⟩) ≤ (List.replicate 48 plainMod).length ∧
    (voiceAfter ready.g ready.p [] ((releasingVoice F64.half).fadeStart (F64.int 48000))).lifecycle = .fading := by
  decide +kernel

/-- OnlyTheCurrentPhasesAdvance, FixedPhaseWrapsOncePerCycle: every waveform is selected by its number, and copies 1 to 7 are
above the power-on `uniN`. -/
theorem test_wit_waveforms :
    [0, 1, 2, 3, 4, 5, 6].map (fun n => waveformOf (F64.nat n)) =
      [.sine, .saw, .square, .triangle, .pulse, .fm, .wavetable] ∧
    (OscParams.powerOn F64.one).uniN.floorNat ≤ (1 : Fin 8).val := by decide +kernel

/-- EnvelopeSegmentsEndInOrder: each phase is one an envelope can be in. -/
theorem test_wit_phases :
    [EnvPhase.idle, .attack, .decay, .sustain, .release].map (fun ph => (⟨ph, F64.half, F64.zero, 0, F64.zero⟩ : Env).phase) =
      [.idle, .attack, .decay, .sustain, .release] := by decide

/-- UnisonDetunesInOppositePairs: the smallest and the largest number of copies with a pair. -/
theorem test_wit_unison :
    let q := OscParams.powerOn F64.one
    3 ≤ 3 ∧ 1 ≤ 1 ∧ 2 * 1 ≤ 3 - 1 ∧ (unison q 3 2).cents.isNaN = false ∧ (unison q 3 1).cents.isNaN = false ∧
    2 * 3 ≤ 8 - 1 ∧ (unison q 8 6).cents.isNaN = false ∧ (unison q 8 5).cents.isNaN = false ∧
    (F64.one.mul (((F64.nat 3).div (F64.nat (8 / 2))).mul (q.uniWidth.div (F64.int 100)))).isNaN = false := by
  decide +kernel

/-- HousekeepingFadesTheQuietest: of the five releasing voices of Program 5, voice 0 is not faded and voice 1 is. -/
theorem test_wit_housekeeping :
    let s := ready.setVoices (Vector.ofFn (fun i : Slot =>
      if i.val < 5 then releasingVoice (F64.nat (9 - i.val)) else if i.val < 20 then heldVoice 70 F64.one else Voice.reset))
    let cands := poolSlots.filter (fun i => (s.voice i).releasing && !(s.voice i).fading)
    (∀ i ∈ poolSlots, (s.voice i).effA.isNaN = false) ∧ (0 : Slot) ∈ cands ∧ (1 : Slot) ∈ cands ∧
    (s.housekeeping.voice 1).fading = true ∧ (s.housekeeping.voice 0).fading = false := by decide +kernel

/-- The registers at power-on are in range. -/
theorem power_on_registers_hold : ParamInv Params.powerOn := by
  intro r
  cases r with
  | osc o' r => cases o' <;> cases r <;>
      refine ⟨by decide +kernel, by decide +kernel, by decide +kernel, fun h => ?_, by decide +kernel⟩ <;>
      first
      | exact ⟨0, by decide⟩ | exact ⟨1, by decide⟩ | (exfalso; revert h; decide)
  | env o' r => cases o' <;> cases r <;>
      refine ⟨by decide +kernel, by decide +kernel, by decide +kernel, fun h => ?_, by decide +kernel⟩ <;>
      first
      | exact ⟨0, by decide⟩ | exact ⟨1, by decide⟩ | (exfalso; revert h; decide)
  | _ =>
      refine ⟨by decide +kernel, by decide +kernel, by decide +kernel, fun h => ?_, by decide +kernel⟩
      first
      | exact ⟨0, by decide⟩ | exact ⟨1, by decide⟩ | exact ⟨-1, by decide⟩ | (exfalso; revert h; decide)

/-- The invariant says nothing about the command stream. -/
theorem inv_withCmd {s : State} (h : Inv s) (ws : List Word) : Inv { s with cmd := ws } := h.of_eq rfl rfl rfl rfl

/-- EveryStepKeepsTheInvariant, LifecycleFollowsTheTable: the block with a note sounding and a command waiting meets the
invariant. -/
theorem test_wit_invariant (ws : List Word) : Inv { ready.noteOn 60 100 with cmd := ws } := by
  have hv : ∀ i : Slot, ready.voice i = Voice.reset := fun i => by simp [State.voice, ready, State.afterReset]
  have h : Inv ready :=
    { params := power_on_registers_hold
      status := ⟨by decide, by decide⟩
      config := test_wit_config
      stack := ⟨by decide, by decide, by decide, fun _ => rfl⟩
      voices := fun i => by rw [hv]; exact voiceInv_reset
      mono := by rw [MonoInv, hv]; exact ⟨rfl, fun h => absurd rfl h⟩
      unconfigured := fun h => absurd h (by decide)
      poolGlide := fun i _ => by rw [hv]; rfl }
  exact inv_withCmd (h.noteOn rfl (by decide) (by decide)) ws

/-- LifecycleFollowsTheTable: such a block takes a step, by a command that is not a RESET and by one that is. -/
theorem test_wit_invariant_steps :
    (∃ t, step { ready.noteOn 60 100 with cmd := [0x20000040] } = .next t) ∧
    (∃ t, step { ready.noteOn 60 100 with cmd := [0x01000040, 0x00000000, 0x40E77000] } = .next t) ∧
    nextIsReset { ready.noteOn 60 100 with cmd := [0x20000040] } = false ∧
    nextIsReset { ready.noteOn 60 100 with cmd := [0x01000040, 0x00000000, 0x40E77000] } = true :=
  ⟨⟨_, rfl⟩, ⟨_, rfl⟩, by decide, by decide⟩

end Sys2Proof.Tests
end

section
/-! PROOFS. What a write leaves in a parameter register (42_param_write.md R262): the range, the integers and the zeros of
10_state.md R40. -/

namespace Sys2Proof.F64

/-- Finite data lie strictly between the infinities. -/
theorem key_bounds {x : F64} (h : x.isFinite = true) : -(2047 * 2 ^ 52) < x.key ∧ x.key < 2047 * 2 ^ 52 := by
  rw [isFinite_iff] at h
  unfold key
  split
  · omega
  · split <;> omega

/-- A datum between two finite ones is finite. -/
theorem isFinite_of_between {lo y hi : F64} (hlo : lo.isFinite = true) (hhi : hi.isFinite = true)
    (h1 : lo.le y = true) (h2 : y.le hi = true) : y.isFinite = true := by
  obtain ⟨-, -, k1⟩ := le_parts h1
  obtain ⟨-, -, k2⟩ := le_parts h2
  obtain ⟨b1, -⟩ := key_bounds hlo
  obtain ⟨-, b2⟩ := key_bounds hhi
  rw [isFinite_iff]
  have between : -(2047 * 2 ^ 52) < y.key ∧ y.key < 2047 * 2 ^ 52 := ⟨by omega, by omega⟩
  unfold key at between
  by_cases hz : y.isZero = true
  · rw [isZero_iff] at hz
    omega
  · rw [if_neg hz] at between
    split at between <;> omega

/-- A finite datum is no infinity. -/
theorem isInf_of_isFinite {x : F64} (h : x.isFinite = true) : x.isInf = false := by
  rw [isFinite_iff] at h
  exact decide_eq_false (by simp only [infMag]; omega)

/-- A clamped datum is the datum or one of the bounds, subnormals read as zeros (00_scope.md R13). -/
theorem clamp_cases {x lo hi : F64} (hx : x.isNaN = false) (hlo : lo.isNaN = false) (hhi : hi.isNaN = false) :
    x.clamp lo hi = x.daz ∨ x.clamp lo hi = lo.daz ∨ x.clamp lo hi = hi.daz := by
  obtain ⟨hmax, -, hn⟩ := max_ordered hx hlo
  obtain ⟨hmin, -, -⟩ := min_ordered hn hhi
  rcases hmin with h | h
  · rcases hmax with h' | h'
    · exact .inl (by rw [clamp, h, h', daz_daz])
    · exact .inr (.inl (by rw [clamp, h, h', daz_daz]))
  · exact .inr (.inr h)

/-- `floor` of a number is a number. -/
theorem isNaN_floor {x : F64} (h : x.isNaN = false) : x.floor.isNaN = false := by
  rcases floor_cases h with ⟨-, e⟩ | ⟨s, e⟩ | ⟨n, e⟩ <;> rw [e]
  · exact h
  · exact isNaN_zeroOf s
  · exact isNaN_int n

end Sys2Proof.F64

namespace Sys2Proof.Machine

/-! ### The last line of R262: no negative zero -/

theorem plusZero_of_isZero {y : F64} (h : y.isZero = true) : plusZero y = F64.zero := by rw [plusZero, if_pos h]

theorem plusZero_of_not_isZero {y : F64} (h : y.isZero = false) : plusZero y = y := by
  rw [plusZero, if_neg (by rw [h]; decide)]

/-- A zero of either sign is stored as `+0.0`. -/
theorem plusZero_zero {y : F64} (h : (plusZero y).isZero = true) : plusZero y = F64.zero := by
  cases hz : y.isZero with
  | true => exact plusZero_of_isZero hz
  | false => rw [plusZero_of_not_isZero hz, hz] at h; cases h

/-- Comparisons do not see the sign of a zero. -/
theorem plusZero_between {lo y hi : F64} (h1 : lo.le y = true) (h2 : y.le hi = true) :
    lo.le (plusZero y) = true ∧ (plusZero y).le hi = true := by
  cases hz : y.isZero with
  | false => rw [plusZero_of_not_isZero hz]; exact ⟨h1, h2⟩
  | true =>
    obtain ⟨hlo, -, k1⟩ := F64.le_parts h1
    obtain ⟨-, hhi, k2⟩ := F64.le_parts h2
    have hk : y.key = F64.zero.key := by rw [F64.key, if_pos hz]; decide
    rw [hk] at k1 k2
    rw [plusZero_of_isZero hz]
    exact ⟨(F64.le_iff hlo F64.isNaN_zero).mpr k1, (F64.le_iff F64.isNaN_zero hhi).mpr k2⟩

theorem zero_eq_int : F64.zero = F64.int 0 := by decide

/-- An integer stays an integer. -/
theorem plusZero_int (n : Int) : ∃ k : Int, plusZero (F64.int n) = F64.int k := by
  cases hz : (F64.int n).isZero with
  | true => exact ⟨0, by rw [plusZero_of_isZero hz, zero_eq_int]⟩
  | false => exact ⟨n, plusZero_of_not_isZero hz⟩

/-! ### The ranges of 10_state.md R40 -/

/-- Every range is finite, and its lowest value is not above its highest. -/
theorem range_ordered (r : ParamReg) :
    r.range.1.isFinite = true ∧ r.range.2.isFinite = true ∧ r.range.1.le r.range.2 = true := by
  have table : ∀ r ∈ ParamReg.all,
      r.range.1.isFinite = true ∧ r.range.2.isFinite = true ∧ r.range.1.le r.range.2 = true := by decide +kernel
  exact table r r.mem_all

/-- The bounds of an int or enum register are integers. -/
theorem range_int {r : ParamReg} (h : r.kind = .int ∨ r.kind = .enum) :
    ∃ a b : Int, r.range = (F64.int a, F64.int b) := by
  cases r with
  | osc o r =>
    cases r with
    | wave => exact ⟨0, 6, by rw [← zero_eq_int]; rfl⟩
    | oct => exact ⟨-3, 3, rfl⟩
    | uniN => exact ⟨1, 8, rfl⟩
    | _ => exact absurd h (by simp [ParamReg.kind, OscReg.kind])
  | subWave => exact ⟨0, 3, by rw [← zero_eq_int]; rfl⟩
  | filterType => exact ⟨0, 3, by rw [← zero_eq_int]; rfl⟩
  | subOct => exact ⟨-2, 0, by rw [← zero_eq_int]; rfl⟩
  | _ => exact absurd h (by simp [ParamReg.kind])

/-- The range of a bool register is 0 to 1. -/
theorem range_bool {r : ParamReg} (h : r.kind = .bool) : r.range = (F64.zero, F64.one) := by
  have table : ∀ r ∈ ParamReg.all, r.kind = .bool → r.range = (F64.zero, F64.one) := by decide +kernel
  exact table r r.mem_all h

/-! ### The three conversions of R262 -/

/-- A clamped number is stored within its bounds. -/
theorem clamped_between {x lo hi : F64} (hx : x.isNaN = false) (h : lo.le hi = true) :
    lo.le (plusZero (x.clamp lo hi)) = true ∧ (plusZero (x.clamp lo hi)).le hi = true :=
  plusZero_between (F64.clamp_range hx h).1 (F64.clamp_range hx h).2

/-- A floor clamped to integer bounds is stored as an integer: finite bounds shut the infinities out. -/
theorem clamped_floor_int {x : F64} {a b : Int} (hx : x.isNaN = false) (ha : (F64.int a).isFinite = true)
    (hb : (F64.int b).isFinite = true) (hab : (F64.int a).le (F64.int b) = true) :
    ∃ n : Int, plusZero (x.floor.clamp (F64.int a) (F64.int b)) = F64.int n := by
  have hf := F64.isNaN_floor hx
  rcases F64.clamp_cases hf (F64.isNaN_int a) (F64.isNaN_int b) with h | h | h
  · rcases F64.floor_cases hx with ⟨hi, e⟩ | ⟨s, e⟩ | ⟨n, e⟩
    · obtain ⟨h1, h2⟩ := F64.clamp_range hf hab
      have hfin := F64.isFinite_of_between ha hb h1 h2
      rw [h, F64.isFinite_daz, e] at hfin
      rw [F64.isInf_of_isFinite hfin] at hi
      cases hi
    · exact ⟨0, by rw [h, e, plusZero_of_isZero (by rw [F64.isZero_daz, F64.isZero_zeroOf]), zero_eq_int]⟩
    · rw [h, e, F64.daz_int]
      exact plusZero_int n
  · rw [h, F64.daz_int]
    exact plusZero_int a
  · rw [h, F64.daz_int]
    exact plusZero_int b

/-- What each kind of register stores (42_param_write.md R262). -/
theorem stored_real {r : ParamReg} (h : r.kind = .real) (x : F64) :
    r.stored x = plusZero (x.daz.clamp r.range.1 r.range.2) := by
  rw [ParamReg.stored, h]; rfl

theorem stored_integral {r : ParamReg} (h : r.kind = .int ∨ r.kind = .enum) (x : F64) :
    r.stored x = plusZero ((x.daz.add F64.half).floor.clamp r.range.1 r.range.2) := by
  rcases h with h | h <;> (rw [ParamReg.stored, h]; rfl)

theorem stored_bool {r : ParamReg} (h : r.kind = .bool) (x : F64) :
    r.stored x = F64.zero ∨ r.stored x = F64.one := by
  simp only [ParamReg.stored, h, convert]
  split
  · exact .inr (by decide)
  · exact .inl (by decide)

/-- What a write of a number stores (42_param_write.md R262), kind by kind. -/
theorem regHolds_stored (r : ParamReg) {x : F64} (hx : x.isNaN = false) : RegHolds r (r.stored x) := by
  obtain ⟨hlo, hhi, hle⟩ := range_ordered r
  have hd : x.daz.isNaN = false := by rw [F64.isNaN_daz, hx]
  have integral : r.kind = .int ∨ r.kind = .enum → RegHolds r (r.stored x) := fun hk => by
    have ha : (x.daz.add F64.half).isNaN = false := F64.isNaN_add_finite hd (by decide)
    obtain ⟨h1, h2⟩ := clamped_between (F64.isNaN_floor ha) hle
    obtain ⟨a, b, hr⟩ := range_int hk
    rw [stored_integral hk]
    refine ⟨h1, h2, plusZero_zero, fun _ => ?_, fun hb => by rw [hb] at hk; simp at hk⟩
    rw [hr] at hlo hhi hle ⊢
    exact clamped_floor_int ha hlo hhi hle
  cases hk : r.kind with
  | real =>
    obtain ⟨h1, h2⟩ := clamped_between hd hle
    rw [stored_real hk]
    exact ⟨h1, h2, plusZero_zero, fun h => by rw [hk] at h; simp at h, fun h => by rw [hk] at h; cases h⟩
  | int => exact integral (.inl hk)
  | enum => exact integral (.inr hk)
  | bool =>
    have hr := range_bool hk
    have notInt : ¬(r.kind = .int ∨ r.kind = .enum) := by rw [hk]; decide
    rcases stored_bool hk x with h | h <;> rw [h]
    · exact ⟨by rw [hr]; decide, by rw [hr]; decide, by decide, fun h' => absurd h' notInt, fun _ => .inl rfl⟩
    · exact ⟨by rw [hr]; decide, by rw [hr]; decide, by decide, fun h' => absurd h' notInt, fun _ => .inr rfl⟩

/-- Settles O34, by the three conversions of R262. -/
theorem storedValueIsInRange : Obligations.StoredValueIsInRange := fun r _ hx => regHolds_stored r hx

/-- Every power-on value is one that a write can store: writing it again leaves it as it is (10_state.md R40). -/
theorem stored_powerOn (r : ParamReg) :
    (Params.powerOn.get r).isNaN = false ∧ r.stored (Params.powerOn.get r) = Params.powerOn.get r := by
  have table : ∀ r ∈ ParamReg.all, (Params.powerOn.get r).isNaN = false ∧
      r.stored (Params.powerOn.get r) = Params.powerOn.get r := by decide +kernel
  exact table r r.mem_all

/-- The registers at power-on are in range. -/
theorem paramInv_powerOn : ParamInv Params.powerOn := fun r => by
  obtain ⟨hn, hs⟩ := stored_powerOn r
  rw [← hs]
  exact regHolds_stored r hn

end Sys2Proof.Machine
end

section
/-! PROOFS. The words of a command decode to it (30_encoding.md R132 to R134), so a step runs it; and how far a step moves
through the command stream (10_state.md R32). -/

namespace Sys2Proof

/-! ### The head of a command -/

/-- The operand bits of a command's header (30_encoding.md R132). -/
def Instr.operandBits : Instr → Nat
  | .nop | .clearStatus => 0
  | .reset bs _ => bs
  | .noteOn note vel => note * 2 ^ 8 + vel
  | .noteOff note => note * 2 ^ 8
  | .cc num val => num * 2 ^ 8 + val
  | .pitchBend v14 => v14
  | .programChange b | .aftertouch b => b
  | .paramWrite idx _ => idx
  | .setVoiceMode mode => mode
  | .render modin nf => (if modin then 2 ^ 16 else 0) + nf

/-- The words behind a command's header: those of its binary64 operand, low word first (30_encoding.md R134). -/
def Instr.payloadWords : Instr → List Word
  | .reset _ x | .paramWrite _ x => [BitVec.ofNat 32 x.bits.toNat, BitVec.ofNat 32 (x.bits.toNat / 2 ^ 32)]
  | _ => []

/-- A command's words are its header and its payload. -/
theorem encode_eq (i : Instr) : encode i = header i.op i.operandBits :: i.payloadWords := by cases i <;> rfl

/-- The words of a command are as many as its length. -/
theorem length_encode (i : Instr) : (encode i).length = i.words := by cases i <;> rfl

theorem op_lt (i : Instr) : i.op < 2 ^ 8 := by cases i <;> simp [Instr.op]

/-- The operands of a well-formed command stay below the opcode (30_encoding.md R130). -/
theorem operandBits_lt {i : Instr} (h : i.WellFormed) : i.operandBits < 2 ^ 24 := by
  cases i <;> simp only [wf_nop, wf_clearStatus, wf_reset, wf_noteOn, wf_noteOff, wf_cc, wf_pitchBend, wf_programChange,
    wf_aftertouch, wf_paramWrite, wf_setVoiceMode, wf_render, Instr.operandBits] at h ⊢
  case render => split <;> omega
  all_goals omega

theorem opcode_encode {i : Instr} (h : i.WellFormed) : opcode (header i.op i.operandBits) = i.op :=
  opcode_header (op_lt i) (operandBits_lt h)

theorem toNat_encode {i : Instr} (h : i.WellFormed) :
    (header i.op i.operandBits).toNat = i.op * 2 ^ 24 + i.operandBits :=
  toNat_header (op_lt i) (operandBits_lt h)

/-- A well-formed command sets no reserved bit (30_encoding.md R135). -/
theorem accepts_encode {i : Instr} (h : i.WellFormed) {r : OpRow} (hr : rowOf i.op = some r) :
    r.accepts (header i.op i.operandBits) = true := by
  obtain ⟨hmem, hop⟩ := rowOf_some hr
  have hn := toNat_encode h
  rw [accepts_iff _ r hmem, hop]
  generalize header i.op i.operandBits = w at hn ⊢
  cases i <;> simp only [wf_nop, wf_clearStatus, wf_reset, wf_noteOn, wf_noteOff, wf_cc, wf_pitchBend, wf_programChange,
    wf_aftertouch, wf_paramWrite, wf_setVoiceMode, wf_render, Instr.op, Instr.operandBits] at h hn ⊢
  case render => split at hn <;> omega
  all_goals omega

/-- Every opcode of a command has its row (30_encoding.md R131). -/
theorem exists_rowOf_op (i : Instr) : ∃ r, rowOf i.op = some r := by
  cases i <;> exact ⟨_, rfl⟩

/-- A field of a header below its opcode is a field of the operand bits (30_encoding.md R134). -/
theorem field_encode {i : Instr} (h : i.WellFormed) {hi lo : Nat} (hhi : hi < 24) (hlo : lo ≤ hi) :
    field (header i.op i.operandBits) hi lo = i.operandBits / 2 ^ lo % 2 ^ (hi + 1 - lo) := by
  have split : i.op * 2 ^ 24 = 2 ^ lo * (2 ^ (hi + 1 - lo) * (2 ^ (23 - hi) * i.op)) := by
    rw [← mul_assoc, ← mul_assoc, ← pow_add, ← pow_add, mul_comm i.op]
    congr 2
    omega
  rw [field, toNat_encode h, split, Nat.mul_add_div (by positivity), Nat.mul_add_mod]

/-- The operands are read back out of a command's header and payload (30_encoding.md R134). -/
theorem operands_encode {i : Instr} (h : i.WellFormed) (rest : List Word) :
    operands (header i.op i.operandBits) ((i.payloadWords ++ rest).getD 0 0) ((i.payloadWords ++ rest).getD 1 0) =
      some i := by
  have hf := @field_encode i h
  rw [operands, opcode_encode h]
  generalize header i.op i.operandBits = w at hf ⊢
  cases i <;> simp only [wf_nop, wf_clearStatus, wf_reset, wf_noteOn, wf_noteOff, wf_cc, wf_pitchBend, wf_programChange,
    wf_aftertouch, wf_paramWrite, wf_setVoiceMode, wf_render, Instr.operandBits] at h hf
  case nop => rfl
  case clearStatus => rfl
  case reset bs sr =>
    refine congrArg some (congrArg₂ Instr.reset ?_ (payload_words sr))
    rw [hf (by decide) (by decide)]
    omega
  case paramWrite idx x =>
    refine congrArg some (congrArg₂ Instr.paramWrite ?_ (payload_words x))
    rw [hf (by decide) (by decide)]
    omega
  case render modin nf =>
    cases modin
    · refine congrArg some (congrArg₂ Instr.render (decide_eq_false ?_) ?_) <;>
      · rw [hf (by decide) (by decide), if_neg (by decide)]
        omega
    · refine congrArg some (congrArg₂ Instr.render (decide_eq_true ?_) ?_) <;>
      · rw [hf (by decide) (by decide), if_pos rfl]
        omega
  all_goals
    simp only [Instr.op, Option.some.injEq, Instr.noteOn.injEq, Instr.noteOff.injEq, Instr.cc.injEq, Instr.pitchBend.injEq,
      Instr.programChange.injEq, Instr.aftertouch.injEq, Instr.setVoiceMode.injEq, hf, Nat.reduceLT, Nat.reduceLeDiff]
    omega

/-- A header that its row accepts, with its words present, is decoded by its operands (40_system_commands.md R200). -/
theorem decode_of_accepted {w : Word} {rest : List Word} {r : OpRow} {i : Instr} (hr : rowOf (opcode w) = some r)
    (hlen : lengthOf (opcode w) ≤ rest.length + 1) (ha : r.accepts w = true)
    (ho : operands w (rest.getD 0 0) (rest.getD 1 0) = some i) :
    decode (w :: rest) = .command i (lengthOf (opcode w)) := by
  simp only [decode, hr, ha, ho, if_neg (Nat.not_lt.mpr hlen), if_true]

/-- The words of a well-formed command decode to it, whatever follows in the stream (30_encoding.md R132 to R134). -/
theorem decode_encode {i : Instr} (h : i.WellFormed) (rest : List Word) :
    decode (encode i ++ rest) = .command i i.words := by
  obtain ⟨r, hr⟩ := exists_rowOf_op i
  have hlen : i.words ≤ (i.payloadWords ++ rest).length + 1 := by
    rw [← length_encode, encode_eq, List.length_append, List.length_cons]
    omega
  have ho := opcode_encode h
  have hd := decode_of_accepted (by rwa [ho]) (by rwa [ho]) (accepts_encode h hr) (operands_encode h rest)
  rwa [ho, ← List.cons_append, ← encode_eq] at hd

end Sys2Proof

namespace Sys2Proof.Machine

variable {s t : State}

/-- Settles O6: the words of a command decode to it, and the step consumes them before it runs the command. -/
theorem stepRunsTheDecodedCommand : Obligations.StepRunsTheDecodedCommand := by
  intro s i rest hw hs
  have hdrop : s.cmd.drop i.words = rest := by rw [hs, ← length_encode i, List.drop_left]
  have hd : decode s.cmd = .command i i.words := by rw [hs]; exact decode_encode hw rest
  rw [step, runCommand, hd, ← hdrop]
  rfl

/-! ### How far a step moves -/

/-- An unassigned opcode is one word long (30_encoding.md R133, R137). -/
theorem lengthOf_of_no_row {op : Nat} (h : rowOf op = none) : lengthOf op = 1 := by
  refine if_neg ?_
  rintro (rfl | rfl)
  · exact absurd h (by decide)
  · exact absurd h (by decide)

/-- A step that answers a next state took the words of the header's opcode, and they had all arrived (10_state.md R32). -/
theorem step_consumes (h : step s = .next t) :
    ∃ w rest, s.cmd = w :: rest ∧ lengthOf (opcode w) ≤ s.cmd.length ∧
      t.cmd = s.cmd.drop (lengthOf (opcode w)) ∧ t.cmdPos = s.cmdPos + lengthOf (opcode w) := by
  rcases step_cases h with ⟨w, rest, hc, hr, rfl⟩ | ⟨w, rest, r, hc, -, -, hl, rfl⟩ | ⟨i, hd, -, hl, he⟩
  · rw [← lengthOf_of_no_row hr]
    exact ⟨w, rest, hc, by rw [lengthOf_of_no_row hr, hc]; exact Nat.le_add_left _ _, rfl, rfl⟩
  · exact ⟨w, rest, hc, hl, rfl, rfl⟩
  · obtain ⟨w, rest, -, hc, -, -, hlen, -⟩ := decode_command hd
    obtain ⟨h1, h2⟩ := exec_cmd he
    rw [hlen] at hl h1 h2
    exact ⟨w, rest, hc, hl, h1, h2⟩

/-- Settles O8, by the length of each kind of header. -/
theorem stepAdvancesThroughTheStream : Obligations.StepAdvancesThroughTheStream := by
  intro s t h
  obtain ⟨w, rest, hc, hl, h1, h2⟩ := step_consumes h
  rw [opcode_eq] at hl h1 h2
  exact ⟨w, rest, _, hc, rfl, hl, h1, h2⟩

/-! ### Which command writes registers -/

/-- A command that changes a register is an accepted PARAM_WRITE, and it changes nothing else (42_param_write.md R265). -/
theorem exec_writes_registers {i : Instr} (h : exec i s = .next t) (hp : t.p ≠ s.p) :
    (∃ idx x, i = .paramWrite idx x) ∧ t = { s with p := t.p } := by
  cases i with
  | nop => exact absurd (congrArg State.p (next_inj h)) hp
  | cc => exact absurd (congrArg State.p (next_inj h)) hp
  | pitchBend => exact absurd (congrArg State.p (next_inj h)) hp
  | programChange => exact absurd (congrArg State.p (next_inj h)) hp
  | aftertouch => exact absurd (congrArg State.p (next_inj h)) hp
  | clearStatus => exact absurd (congrArg State.p (next_inj h)) hp
  | noteOff note => exact absurd (next_inj h ▸ (noteOff_frame s note).1) hp
  | noteOn note vel =>
    rcases execNoteOn_cases h with ⟨-, rfl⟩ | ⟨-, -, rfl⟩ | ⟨-, -, rfl⟩
    · exact absurd (noteOff_frame s note).1 hp
    · exact absurd rfl hp
    · exact absurd (noteOn_frame s note vel).1 hp
  | reset bs sr => rcases execReset_cases h with ⟨-, rfl⟩ | ⟨-, -, rfl⟩ | ⟨-, -, rfl⟩ <;> exact absurd rfl hp
  | setVoiceMode m =>
    rcases execSetVoiceMode_cases h with ⟨-, rfl⟩ | ⟨m', -, rfl⟩
    · exact absurd rfl hp
    · exact absurd (switchVoiceMode_frame s m').1 hp
  | paramWrite idx x =>
    refine ⟨⟨idx, x, rfl⟩, ?_⟩
    rcases execParamWrite_cases h with ⟨-, rfl⟩ | ⟨r, -, ⟨-, rfl⟩ | ⟨-, rfl⟩⟩
    · exact absurd rfl hp
    · exact absurd rfl hp
    · rfl
  | render m nf =>
    rcases execRender_cases h with ⟨-, rfl⟩ | ⟨-, -, rfl⟩ | ⟨-, -, rfl⟩ | ⟨-, -, -, -, rfl⟩
    · exact absurd rfl hp
    · exact absurd rfl hp
    · exact absurd rfl hp
    · exact absurd (renderBlock_frame s m nf).1 hp

/-- Settles O36: a rejected header changes no register, and of the commands only PARAM_WRITE does. -/
theorem onlyParamWriteWritesRegisters : Obligations.OnlyParamWriteWritesRegisters := by
  intro s t h hp
  rcases step_cases h with ⟨w, rest, -, -, rfl⟩ | ⟨w, rest, r, -, -, -, -, rfl⟩ | ⟨i, hd, -, -, he⟩
  · exact absurd rfl hp
  · exact absurd rfl hp
  · obtain ⟨⟨idx, x, rfl⟩, ht⟩ := exec_writes_registers he hp
    exact ⟨⟨idx, x, hd⟩, ht⟩

end Sys2Proof.Machine
end

section
/-! PROOFS. The invariant of the block (Safety.lean): it holds at power-on, and every step keeps it. -/

namespace Sys2Proof.Machine

variable {s t : State}

/-- Every command keeps the invariant. -/
theorem Inv.exec (h : Inv s) {i : Instr} (hw : i.WellFormed) (he : Machine.exec i s = .next t) : Inv t := by
  cases i with
  | nop => rw [next_inj he]; exact h
  | cc => rw [next_inj he]; exact h
  | pitchBend => rw [next_inj he]; exact h
  | programChange => rw [next_inj he]; exact h
  | aftertouch => rw [next_inj he]; exact h
  | clearStatus => rw [next_inj he]; exact h.withStatus ⟨by decide, by decide⟩
  | noteOff note => rw [next_inj he]; exact h.noteOff note
  | noteOn note vel =>
    obtain ⟨hn, hv⟩ := wf_noteOn.mp hw
    rcases execNoteOn_cases he with ⟨-, rfl⟩ | ⟨-, -, rfl⟩ | ⟨hv0, hc, rfl⟩
    · exact h.noteOff note
    · exact h.raise _
    · exact h.noteOn hc hn ⟨Nat.one_le_iff_ne_zero.mpr hv0, hv⟩
  | reset bs sr =>
    rcases execReset_cases he with ⟨-, rfl⟩ | ⟨-, -, rfl⟩ | ⟨hb, hr, rfl⟩
    · exact h.raise _
    · exact h.raise _
    · exact h.afterReset hb hr
  | setVoiceMode mode =>
    rcases execSetVoiceMode_cases he with ⟨-, rfl⟩ | ⟨m, -, rfl⟩
    · exact h.raise _
    · exact h.switchVoiceMode m
  | paramWrite idx x =>
    rcases execParamWrite_cases he with ⟨-, rfl⟩ | ⟨r, -, ⟨-, rfl⟩ | ⟨hx, rfl⟩⟩
    · exact h.raise _
    · exact h.raise _
    · exact h.writeParam (regHolds_stored r hx)
  | render modin nf =>
    rcases execRender_cases he with ⟨-, rfl⟩ | ⟨-, -, rfl⟩ | ⟨-, -, rfl⟩ | ⟨hc, -, -, -, rfl⟩
    · exact h.raise _
    · exact h.raise _
    · exact h
    · exact h.renderBlock hc modin nf

/-- Settles O58: consuming words and raising an error keep the invariant, and so does every command. -/
theorem everyStepKeepsTheInvariant : Obligations.EveryStepKeepsTheInvariant := by
  intro s t h hstep
  rcases step_cases hstep with ⟨w, rest, -, -, rfl⟩ | ⟨w, rest, r, -, -, -, -, rfl⟩ | ⟨i, -, hw, -, he⟩
  · exact (h.consume _).raise _
  · exact (h.consume _).raise _
  · exact (h.consume _).exec hw he

/-! ### Power-on -/

@[simp] theorem voice_powerOn (i : Slot) : State.reset.voice i = Voice.reset := by
  simp [State.voice, State.reset]

/-- Settles O57, part by part: nothing sounds, the registers hold their defaults and no error is recorded. -/
theorem powerOnMeetsTheInvariant : Obligations.PowerOnMeetsTheInvariant where
  params := paramInv_powerOn
  status := ⟨by decide, by decide⟩
  config := ⟨fun h => absurd h (by decide), .inl rfl⟩
  stack := ⟨by decide, by decide, by decide, fun _ => rfl⟩
  voices i := by rw [voice_powerOn]; exact voiceInv_reset
  mono := ⟨by rw [voice_powerOn]; rfl, fun h => absurd rfl h⟩
  unconfigured _ := ⟨rfl, fun i => by rw [voice_powerOn]; rfl⟩
  poolGlide i _ := by rw [voice_powerOn]; rfl

/-- Every status word reads 0 at power-on: no flag, no error, and a release multiplier of 1 (10_state.md R61, R62). -/
theorem status_powerOn (a : Nat) : State.reset.status a = 0 := by
  match a with
  | 0 => decide +kernel
  | 1 => decide +kernel
  | 2 => decide +kernel
  | _ + 3 => rfl

/-- Settles O17, field by field; the 50 registers are a finite table. -/
theorem powerOnState : Obligations.PowerOnState := by
  refine ⟨rfl, fun r => ?_, fun i => ?_, rfl, status_powerOn, rfl, rfl, rfl, rfl, rfl⟩
  · have hr := r.mem_all
    revert r
    decide +kernel
  · rw [voice_powerOn]
    exact ⟨rfl, rfl⟩

end Sys2Proof.Machine
end

section
/-! PROOFS. The status words bit by bit (10_state.md R61, R62). -/

namespace Sys2Proof.Machine

variable (s : State)

/-! ### Masks of the pool voices -/

/-- The number whose bit `i` is `f i`, for the slots of a list (the sum behind `poolMask`). -/
def slotMask (f : Slot → Bool) (is : List Slot) : Nat := is.foldr (fun i acc => 2 ^ i.val * bit (f i) + acc) 0

theorem slotMask_cons (f : Slot → Bool) (i : Slot) (is : List Slot) :
    slotMask f (i :: is) = 2 ^ i.val * bit (f i) + slotMask f is := rfl

theorem poolMask_eq (f : Voice → Bool) : poolMask s f = BitVec.ofNat 32 (slotMask (fun i => f (s.voice i)) poolSlots) := rfl

theorem testBit_bit (b : Bool) (i : Nat) : (2 ^ i * bit b).testBit i = b := by
  cases b <;> simp [bit]

/-- A mask of slots from `k` up has no bit below `k`. -/
theorem dvd_slotMask (f : Slot → Bool) (k : Nat) (is : List Slot) (h : ∀ i ∈ is, k ≤ i.val) : 2 ^ k ∣ slotMask f is := by
  induction is with
  | nil => exact Nat.dvd_zero _
  | cons i is ih =>
    rw [slotMask_cons]
    exact Nat.dvd_add ((Nat.pow_dvd_pow 2 (h i List.mem_cons_self)).mul_right _)
      (ih fun j hj => h j (List.mem_cons_of_mem _ hj))

/-- Each slot of an ascending list has its own bit. -/
theorem testBit_slotMask (f : Slot → Bool) (is : List Slot) (hs : is.Pairwise (· < ·)) {j : Slot} (hj : j ∈ is) :
    (slotMask f is).testBit j.val = f j := by
  induction is with
  | nil => cases hj
  | cons i is ih =>
    obtain ⟨hlt, hs⟩ := List.pairwise_cons.mp hs
    obtain ⟨q, hq⟩ := dvd_slotMask f (i.val + 1) is fun k hk => hlt k hk
    have hsmall : 2 ^ i.val * bit (f i) < 2 ^ (i.val + 1) := by
      have := Nat.two_pow_pos i.val
      cases f i <;> simp [bit, Nat.pow_succ]
    rw [slotMask_cons, hq, Nat.add_comm, Nat.testBit_two_pow_mul_add _ hsmall]
    rcases List.mem_cons.mp hj with rfl | hj
    · rw [if_pos (Nat.lt_succ_self _), testBit_bit]
    · have hij : i.val < j.val := hlt j hj
      rw [if_neg (by omega), ← ih hs hj, hq, Nat.testBit_two_pow_mul]
      simp [hij]

/-- Bit `i` of a mask is its predicate of pool voice `i` (10_state.md R61). -/
theorem getLsbD_poolMask (f : Voice → Bool) {i : Slot} (hi : i ∈ poolSlots) :
    (poolMask s f).getLsbD i.val = f (s.voice i) := by
  have hlt : i.val < 32 := (mem_poolSlots i).mp hi
  rw [poolMask_eq, BitVec.getLsbD_ofNat, testBit_slotMask _ _ poolSlots_sorted hi, decide_eq_true hlt, Bool.true_and]

/-! ### STATUS0 -/

theorem bit_le (b : Bool) : bit b ≤ 1 := by cases b <;> decide

theorem activeCount_le (v : Vector Voice 33) : activeCount v ≤ 33 := List.countP_le_length

theorem code_le (m : VoiceMode) : m.code ≤ 2 := by cases m <;> decide

/-- The release multiplier is 2 to the number that STATUS0 shows, which fits in its field (10_state.md R31, R61). -/
theorem relMul_eq_two_pow {g : Global} (h : ConfigInv g) : 2 ^ Nat.log2 g.relMul = g.relMul ∧ Nat.log2 g.relMul ≤ 4 := by
  obtain ⟨-, h | h | h | h | h⟩ := h <;> rw [h] <;> decide

/-- The layout of STATUS0: fields within their widths lie side by side, and each is read back (10_state.md R61). -/
theorem field_of_layout {w : Word} {a b c d e f g h : Nat}
    (hw : w = BitVec.ofNat 32
      (a + 2 ^ 1 * b + 2 ^ 2 * c + 2 ^ 4 * d + 2 ^ 8 * e + 2 ^ 14 * f + 2 ^ 16 * g + 2 ^ 24 * h))
    (ha : a ≤ 1) (hb : b ≤ 1) (hc : c ≤ 1) (hd : d < 2 ^ 4) (he : e ≤ 33) (hf : f ≤ 2) (hg : g < 2 ^ 8) (hh : h ≤ 4) :
    field w 0 0 = a ∧ field w 1 1 = b ∧ field w 2 2 = c ∧ field w 3 3 = 0 ∧ field w 7 4 = d ∧ field w 13 8 = e ∧
    field w 15 14 = f ∧ field w 23 16 = g ∧ field w 26 24 = h ∧ field w 31 27 = 0 := by
  have hn := congrArg BitVec.toNat hw
  rw [BitVec.toNat_ofNat, Nat.mod_eq_of_lt (by omega)] at hn
  simp only [field, hn]
  omega

/-- Addresses 3 and above read 0 (10_state.md R62). -/
theorem status_of_ge {a : Nat} (h : 3 ≤ a) : s.status a = 0 := by
  match a, h with
  | _ + 3, _ => rfl

/-- Settles O13: the fields by the layout of STATUS0, the masks bit by bit. -/
theorem statusWordsShowTheState : Obligations.StatusWordsShowTheState := by
  intro s h
  obtain ⟨hpow, hlog⟩ := relMul_eq_two_pow h
  obtain ⟨configured, error, busy, zero3, code, active, mode, count, relMul, zero27⟩ :=
    field_of_layout (w := s.status0) rfl (bit_le _) (bit_le _) (bit_le _) s.s.errCode.isLt (activeCount_le s.v) (code_le _)
      s.s.errCount.isLt hlog
  exact ⟨configured, error, busy, zero3, code, active, mode, count, by rw [relMul, hpow], zero27,
    fun i hi => ⟨getLsbD_poolMask s _ hi, getLsbD_poolMask s _ hi⟩, rfl, rfl, rfl, fun a ha => status_of_ge s ha⟩

end Sys2Proof.Machine
end

section
/-! PROOFS. A step moves a voice's lifecycle state only as the table of 49_voice_pool.md R520 allows. -/

namespace Sys2Proof.Machine

variable {s t : State} {w : Voice}

/-! ### The lifecycle state by its flags (10_state.md R58) -/

/-- The lifecycle state is read from three flags. -/
theorem lifecycle_congr {w' : Voice} (hs : w'.sounding = w.sounding) (hf : w'.fading = w.fading)
    (hr : w'.isReleasing = w.isReleasing) : w'.lifecycle = w.lifecycle := by
  rw [Voice.lifecycle, Voice.lifecycle, hs, hf, hr]

theorem lifecycle_of_fading (hs : w.sounding = true) (hf : w.fading = true) : w.lifecycle = .fading := by
  rw [Voice.lifecycle, hs, hf]; rfl

theorem lifecycle_of_releasing (hs : w.sounding = true) (hf : w.fading = false) (hr : w.isReleasing = true) :
    w.lifecycle = .releasing := by
  rw [Voice.lifecycle, hs, hf, hr]; rfl

theorem lifecycle_of_held (h : Held w) : w.lifecycle = .active := by
  rw [Voice.lifecycle, (sounding_iff w).mpr h.idle, h.fading, h.releasing]; rfl

/-! ### The table -/

theorem lifecycleMay_refl (l : Lifecycle) : lifecycleMay l l = true := by cases l <;> rfl

/-- A note may start on a voice in any state (the column ACTIVE of R520). -/
theorem lifecycleMay_active (l : Lifecycle) : lifecycleMay l .active = true := by cases l <;> rfl

/-- What a RENDER may do: a releasing voice fades or ends, a fading one ends, and nothing else changes. -/
def renderMay : Lifecycle → Lifecycle → Bool
  | .free, .free | .active, .active => true
  | .releasing, .releasing | .releasing, .fading | .releasing, .free => true
  | .fading, .fading | .fading, .free => true
  | _, _ => false

theorem renderMay_refl (l : Lifecycle) : renderMay l l = true := by cases l <;> rfl

/-- Frame after frame a RENDER does no more than it may do in one. -/
theorem renderMay_trans {a b c : Lifecycle} (h1 : renderMay a b = true) (h2 : renderMay b c = true) :
    renderMay a c = true := by
  revert h1 h2
  cases a <;> cases b <;> cases c <;> decide

theorem lifecycleMay_of_renderMay {a b : Lifecycle} (h : renderMay a b = true) : lifecycleMay a b = true := by
  revert h
  cases a <;> cases b <;> decide

/-! ### The operations on a voice -/

theorem lifecycle_started (w : Voice) (s : State) (note vel : Nat) (xS : Decimal) (b : Bool) :
    (w.started s note vel xS b).lifecycle = .active :=
  lifecycle_of_held (held_started w s note vel xS b).1

/-- A change of pitch is no change of state. -/
theorem lifecycle_setPitch (w : Voice) (fs : F64) (p : Params) (x : F64) (b : Bool) :
    (w.setPitch fs p x b).lifecycle = w.lifecycle :=
  lifecycle_congr (by simp [Voice.sounding]) (by simp) (by simp)

/-- A release leaves FREE and FADING voices where they are. -/
theorem lifecycleMay_release (w : Voice) : lifecycleMay w.lifecycle w.release.lifecycle = true := by
  obtain ⟨hf, -, hs, -⟩ := release_keeps w
  cases hsound : w.sounding with
  | false => rw [Voice.release, if_neg (by rw [hsound]; decide)]; exact lifecycleMay_refl _
  | true =>
    have hr : w.release.isReleasing = true := by rw [Voice.release, if_pos hsound]
    rw [hsound] at hs
    cases hfade : w.fading with
    | true =>
      rw [lifecycle_of_fading hsound hfade, lifecycle_of_fading hs (hf.trans hfade)]
      rfl
    | false =>
      rw [lifecycle_of_releasing hs (hf.trans hfade) hr, Voice.lifecycle, hsound, hfade]
      cases w.isReleasing <;> rfl

/-- A frame of a voice: a releasing or fading voice may end, and every other stays (48_voice.md R458). -/
theorem renderMay_voiceSample (h : VoiceInv w) (g : Global) (p : Params) (m : ModFrame) :
    renderMay w.lifecycle (voiceSample g p m w).1.lifecycle = true := by
  cases hs : w.sounding with
  | false => rw [voiceSample_free hs]; exact renderMay_refl _
  | true =>
    cases hf : w.fading with
    | true =>
      rw [lifecycle_of_fading hs hf]
      rcases voiceSample_fading hs hf g p m with hfree | ⟨hs', hf', -⟩
      · rw [lifecycle_free_iff.mpr hfree]; rfl
      · rw [lifecycle_of_fading hs' hf']; rfl
    | false =>
      rcases voiceSample_notFading hs hf g p m with ⟨hfree, hidle⟩ | ⟨hs', hf', hr', -⟩
      · have hph : w.amp.phase = .release := by
          by_contra hne
          exact (envStep_not_idle ((sounding_iff w).mp hs) hne _ _ _ _).1 hidle
        have hr := (h.held ((sounding_iff w).mp hs)).mpr hph
        rw [lifecycle_of_releasing hs hf hr, lifecycle_free_iff.mpr hfree]; rfl
      · rw [lifecycle_congr (hs'.trans hs.symm) (hf'.trans hf.symm) hr']; exact renderMay_refl _

/-- The housekeeping fades only voices that are releasing (49_voice_pool.md R501). -/
theorem renderMay_housekeeping (s : State) (i : Slot) :
    renderMay (s.voice i).lifecycle (s.housekeeping.voice i).lifecycle = true := by
  rw [housekeeping_voice]
  split
  · rename_i hi
    obtain ⟨-, hr, hf⟩ := hardCapSlots_mem hi
    obtain ⟨hs, hr⟩ := Bool.and_eq_true_iff.mp hr
    rw [State.voice_eq, lifecycle_of_releasing hs hf hr,
      lifecycle_of_fading (w := Voice.fadeStart s.g.fs s.v[i]) hs rfl]
    rfl
  · exact renderMay_refl _

/-! ### The commands -/

/-- Between two states every voice changes its lifecycle state as the table allows. -/
def FollowsTable (s t : State) : Prop := ∀ i : Slot, lifecycleMay (s.voice i).lifecycle (t.voice i).lifecycle = true

/-- Voices that stand still follow the table. -/
theorem followsTable_of_voices (h : t.v = s.v) : FollowsTable s t := fun i => by
  rw [State.voice, State.voice, h]; exact lifecycleMay_refl _

/-- One slot changed as the table allows. -/
theorem followsTable_setVoice (st : List Nat) {i : Slot} (h : lifecycleMay (s.voice i).lifecycle w.lifecycle = true) :
    FollowsTable s ((s.setStack st).setVoice i w) := fun j => by
  by_cases hij : i = j
  · subst hij; rwa [voice_setVoice_same]
  · rw [voice_setVoice_ne _ hij, voice_setStack]; exact lifecycleMay_refl _

theorem followsTable_noteOn (s : State) (note vel : Nat) : FollowsTable s (s.noteOn note vel) := by
  unfold State.noteOn
  split
  · rw [polyNoteOn_eq]
    exact followsTable_setVoice s.g.stack (by rw [lifecycle_started]; exact lifecycleMay_active _)
  · rw [monoNoteOn_eq]
    exact followsTable_setVoice _ (by rw [lifecycle_started]; exact lifecycleMay_active _)
  · rw [legatoNoteOn_eq]
    refine followsTable_setVoice _ ?_
    split
    · rw [lifecycle_started]; exact lifecycleMay_active _
    · rw [lifecycle_setPitch]; exact lifecycleMay_refl _

theorem followsTable_monoNoteOff (s : State) (note : Nat) : FollowsTable s (s.monoNoteOff note) := by
  rcases monoNoteOff_cases s note with ⟨-, e⟩ | ⟨-, -, e⟩ | ⟨-, prev, -, e⟩ | ⟨-, -, e⟩ <;> rw [e]
  · exact followsTable_of_voices rfl
  · exact followsTable_of_voices rfl
  · refine followsTable_setVoice _ ?_
    split
    · rw [lifecycle_started]; exact lifecycleMay_active _
    · rw [lifecycle_setPitch]; exact lifecycleMay_refl _
  · exact followsTable_setVoice _ (lifecycleMay_release _)

theorem followsTable_noteOff (s : State) (note : Nat) : FollowsTable s (s.noteOff note) := by
  unfold State.noteOff
  split
  · intro i
    rw [voice_polyNoteOff]
    split
    · exact lifecycleMay_release _
    · exact lifecycleMay_refl _
  · exact followsTable_monoNoteOff s note
  · exact followsTable_monoNoteOff s note

theorem followsTable_switchVoiceMode (s : State) (m : VoiceMode) : FollowsTable s (s.switchVoiceMode m) := by
  rcases switchVoiceMode_cases s m with ⟨-, e⟩ | ⟨-, e⟩ <;> rw [e]
  · exact followsTable_of_voices rfl
  · intro i
    rw [switch_voice]
    exact lifecycleMay_release _

/-- A rendered block: the housekeeping, then frame after frame, do what a RENDER may do (43_render.md R290). -/
theorem followsTable_renderBlock (h : Inv s) (modin : Bool) (nf : Nat) : FollowsTable s (s.renderBlock modin nf) := by
  intro i
  rw [renderBlock_voice]
  have kept := renderFrames_keeps (g := s.housekeeping.g) (p := s.p)
    (P := fun j w => VoiceInv w ∧ renderMay (s.voice j).lifecycle w.lifecycle = true)
    (fun _ m _ hw => ⟨voiceInv_voiceSample hw.1 _ _ m, renderMay_trans hw.2 (renderMay_voiceSample hw.1 _ _ m)⟩)
    (blockMods s modin nf) s.housekeeping.v (fun j => ⟨voiceInv_housekeeping h j, renderMay_housekeeping s j⟩) i
  exact lifecycleMay_of_renderMay kept.2

/-- Every command but RESET follows the table. -/
theorem followsTable_exec (h : Inv s) {i : Instr} (hi : ∀ bs sr, i ≠ .reset bs sr) (he : exec i s = .next t) :
    FollowsTable s t := by
  cases i with
  | nop => exact followsTable_of_voices (congrArg State.v (next_inj he))
  | cc => exact followsTable_of_voices (congrArg State.v (next_inj he))
  | pitchBend => exact followsTable_of_voices (congrArg State.v (next_inj he))
  | programChange => exact followsTable_of_voices (congrArg State.v (next_inj he))
  | aftertouch => exact followsTable_of_voices (congrArg State.v (next_inj he))
  | clearStatus => rw [next_inj he]; exact followsTable_of_voices rfl
  | noteOff note => rw [next_inj he]; exact followsTable_noteOff s note
  | noteOn note vel =>
    rcases execNoteOn_cases he with ⟨-, rfl⟩ | ⟨-, -, rfl⟩ | ⟨-, -, rfl⟩
    · exact followsTable_noteOff s note
    · exact followsTable_of_voices rfl
    · exact followsTable_noteOn s note vel
  | reset bs sr => exact absurd rfl (hi bs sr)
  | setVoiceMode mode =>
    rcases execSetVoiceMode_cases he with ⟨-, rfl⟩ | ⟨m, -, rfl⟩
    · exact followsTable_of_voices rfl
    · exact followsTable_switchVoiceMode s m
  | paramWrite idx x =>
    rcases execParamWrite_cases he with ⟨-, rfl⟩ | ⟨r, -, ⟨-, rfl⟩ | ⟨-, rfl⟩⟩ <;> exact followsTable_of_voices rfl
  | render modin nf =>
    rcases execRender_cases he with ⟨-, rfl⟩ | ⟨-, -, rfl⟩ | ⟨-, -, rfl⟩ | ⟨-, -, -, -, rfl⟩
    · exact followsTable_of_voices rfl
    · exact followsTable_of_voices rfl
    · exact followsTable_of_voices rfl
    · exact followsTable_renderBlock h modin nf

/-- A RESET leaves every voice as it was, or frees every voice (70_reset_and_hazards.md R601). -/
theorem execReset_voices {bs : Nat} {sr : F64} (he : execReset bs sr s = .next t) :
    t.v = s.v ∨ ∀ i : Slot, (t.voice i).lifecycle = .free := by
  rcases execReset_cases he with ⟨-, rfl⟩ | ⟨-, -, rfl⟩ | ⟨-, -, rfl⟩
  · exact .inl rfl
  · exact .inl rfl
  · exact .inr fun i => by rw [voice_afterReset]; rfl

/-- The next command is a RESET exactly when the stream decodes to one. -/
theorem nextIsReset_iff {i : Instr} {len : Nat} (hd : decode s.cmd = .command i len) :
    nextIsReset s = true ↔ ∃ bs sr, i = .reset bs sr := by
  rw [nextIsReset, hd]
  cases i <;> simp

/-- Settles O56: a rejected header and every command but RESET follow the table, and RESET frees all voices or none. -/
theorem lifecycleFollowsTheTable : Obligations.LifecycleFollowsTheTable := by
  intro s t h hstep
  rcases step_cases hstep with ⟨w, rest, -, -, rfl⟩ | ⟨w, rest, r, -, -, -, -, rfl⟩ | ⟨i, hd, -, -, he⟩
  · exact ⟨fun _ => followsTable_of_voices rfl, fun _ => .inl rfl⟩
  · exact ⟨fun _ => followsTable_of_voices rfl, fun _ => .inl rfl⟩
  · refine ⟨fun hn => ?_, fun hn => ?_⟩
    · have hi : ∀ bs sr, i ≠ .reset bs sr := fun bs sr e => by
        rw [(nextIsReset_iff hd).mpr ⟨bs, sr, e⟩] at hn; cases hn
      exact followsTable_exec (s := s.consume i.words) (h.consume _) hi he
    · obtain ⟨bs, sr, rfl⟩ := (nextIsReset_iff hd).mp hn
      exact execReset_voices (s := s.consume _) he

end Sys2Proof.Machine
end

section
/-! PROOFS. The output stream only grows, and only a RENDER adds to it (20_memory.md R100, R106). -/

namespace Sys2Proof.Machine

variable {s t : State}

/-- A rendered block appends one frame for each frame it was asked for (43_render.md R290). -/
theorem renderBlock_out {modin : Bool} {nf : Nat} (h : modin = true → nf ≤ s.modIn.length) :
    ∃ frames : List Frame, (s.renderBlock modin nf).out = s.out ++ frames ∧ frames.length = nf := by
  refine ⟨(renderFrames s.housekeeping.g s.housekeeping.p (blockMods s modin nf) s.housekeeping.v).2, ?_, ?_⟩
  · exact congrArg (· ++ _) (housekeeping_out s)
  · rw [renderFrames_length, blockMods_length s modin nf h]

/-- A command emits nothing, or it is a RENDER that appends the frames it was asked for (20_memory.md R106). -/
theorem exec_out {i : Instr} (h : exec i s = .next t) :
    t.out = s.out ∨
    ∃ modin nf, i = .render modin nf ∧ ∃ frames : List Frame, t.out = s.out ++ frames ∧ frames.length = nf := by
  cases i with
  | nop => exact .inl (congrArg State.out (next_inj h))
  | cc => exact .inl (congrArg State.out (next_inj h))
  | pitchBend => exact .inl (congrArg State.out (next_inj h))
  | programChange => exact .inl (congrArg State.out (next_inj h))
  | aftertouch => exact .inl (congrArg State.out (next_inj h))
  | clearStatus => exact .inl (by rw [next_inj h])
  | noteOff note =>
    obtain ⟨-, -, -, -, -, -, hout, -⟩ := noteOff_frame s note
    exact .inl (next_inj h ▸ hout)
  | noteOn note vel =>
    obtain ⟨-, -, -, -, -, -, hoff, -⟩ := noteOff_frame s note
    obtain ⟨-, -, -, -, -, -, hon, -⟩ := noteOn_frame s note vel
    rcases execNoteOn_cases h with ⟨-, rfl⟩ | ⟨-, -, rfl⟩ | ⟨-, -, rfl⟩
    · exact .inl hoff
    · exact .inl (raise_out s _)
    · exact .inl hon
  | reset bs sr =>
    rcases execReset_cases h with ⟨-, rfl⟩ | ⟨-, -, rfl⟩ | ⟨-, -, rfl⟩
    · exact .inl (raise_out s _)
    · exact .inl (raise_out s _)
    · exact .inl (afterReset_out s bs sr)
  | setVoiceMode mode =>
    rcases execSetVoiceMode_cases h with ⟨-, rfl⟩ | ⟨m, -, rfl⟩
    · exact .inl (raise_out s _)
    · obtain ⟨-, -, -, -, -, -, hout⟩ := switchVoiceMode_frame s m
      exact .inl hout
  | paramWrite idx x =>
    rcases execParamWrite_cases h with ⟨-, rfl⟩ | ⟨r, -, ⟨-, rfl⟩ | ⟨-, rfl⟩⟩
    · exact .inl (raise_out s _)
    · exact .inl (raise_out s _)
    · exact .inl (writeParam_out s r x)
  | render modin nf =>
    rcases execRender_cases h with ⟨-, rfl⟩ | ⟨-, -, rfl⟩ | ⟨-, -, rfl⟩ | ⟨-, -, -, hmod, rfl⟩
    · exact .inl (raise_out s _)
    · exact .inl (raise_out s _)
    · exact .inl rfl
    · exact .inr ⟨modin, nf, rfl, renderBlock_out hmod⟩

/-- A step emits nothing, or the command it took is a RENDER that appends the frames it was asked for. -/
theorem step_out (h : step s = .next t) :
    t.out = s.out ∨
    ∃ modin nf, decode s.cmd = .command (.render modin nf) 1 ∧
      ∃ frames : List Frame, t.out = s.out ++ frames ∧ frames.length = nf := by
  rcases step_cases h with ⟨w, rest, -, -, rfl⟩ | ⟨w, rest, r, -, -, -, -, rfl⟩ | ⟨i, hd, -, -, he⟩
  · exact .inl (raise_out _ _)
  · exact .inl (raise_out _ _)
  · rcases exec_out he with ht | ⟨modin, nf, rfl, hframes⟩
    · exact .inl ht
    · exact .inr ⟨modin, nf, hd, hframes⟩

/-- Settles O9: a step that emits nothing appends the empty list, and any other took a RENDER. -/
theorem outputGrowsOnlyByRender : Obligations.OutputGrowsOnlyByRender := by
  intro s t h
  rcases step_out h with ht | ⟨modin, nf, hd, frames, ht, hlen⟩
  · exact ⟨[], by rw [ht, List.append_nil], fun hne => absurd rfl hne⟩
  · exact ⟨frames, ht, fun _ => ⟨modin, nf, hd, hlen⟩⟩

end Sys2Proof.Machine
end

section
/-! PROOFS. The encoding of commands (30_encoding.md): decoding and encoding undo each other, the rows of R135 are exactly
what the decoder accepts, and a header outside them is rejected. -/

namespace Sys2Proof

variable {w w1 w2 : Word} {rest : List Word} {r : OpRow} {i : Instr}

/-! ### The opcode map and the statements' table -/

/-- The table of the statements is the opcode map with the lengths of R133. -/
theorem headerForms_eq :
    headerForms = opTable.map fun r => (r.pattern, r.mask, lengthOf (opcode r.pattern)) := by decide

theorem mem_headerForms {f : Word × Word × Nat} :
    f ∈ headerForms ↔ ∃ r ∈ opTable, (r.pattern, r.mask, lengthOf (opcode r.pattern)) = f := by
  rw [headerForms_eq, List.mem_map]

/-- No two rows share an opcode, so each row is the one its opcode finds (30_encoding.md R131). -/
theorem rowOf_of_mem (hr : r ∈ opTable) : rowOf (opcode r.pattern) = some r := by
  have table : ∀ r ∈ opTable, rowOf (opcode r.pattern) = some r := by decide
  exact table r hr

/-- A row's pattern is its opcode alone. -/
theorem pattern_toNat (hr : r ∈ opTable) : r.pattern.toNat = 2 ^ 24 * opcode r.pattern := by
  have table : ∀ r ∈ opTable, r.pattern.toNat = 2 ^ 24 * opcode r.pattern := by decide
  exact table r hr

/-- A header under the mask of its opcode bits is a row's pattern exactly when it carries the row's opcode. -/
theorem masked_opcode (hr : r ∈ opTable) : w &&& 0xFF000000 = r.pattern ↔ opcode w = opcode r.pattern := by
  rw [masked_high w _ _ 24 8 rfl (by decide), pattern_toNat hr, opcode_eq w]
  exact Nat.mul_right_inj (by decide)

/-- A row's mask covers the opcode bits: a header it accepts carries its opcode. -/
theorem rowOf_of_accepts (hr : r ∈ opTable) (ha : r.accepts w = true) : rowOf (opcode w) = some r := by
  obtain ⟨hop, -⟩ := (accepts_iff w r hr).mp ha
  rw [opcode_eq, hop, rowOf_of_mem hr]

/-- Every assigned opcode spells a command. -/
theorem exists_operands (hr : rowOf (opcode w) = some r) (w1 w2 : Word) : ∃ i, operands w w1 w2 = some i := by
  obtain ⟨hmem, hop⟩ := rowOf_some hr
  simp only [opTable, List.mem_cons, List.not_mem_nil, or_false] at hmem
  rcases hmem with rfl | rfl | rfl | rfl | rfl | rfl | rfl | rfl | rfl | rfl | rfl | rfl <;>
    (rw [operands, ← hop]; exact ⟨_, rfl⟩)

/-! ### Decoded words are the encoding -/

/-- Behind its opcode, a header its row accepts holds the operands cut out of it and nothing else (30_encoding.md R132,
R135). -/
theorem header_of_operands (hr : rowOf (opcode w) = some r) (ha : r.accepts w = true)
    (ho : operands w w1 w2 = some i) : header i.op i.operandBits = w := by
  obtain ⟨hwf, hop⟩ := operands_wellFormed ho
  obtain ⟨hmem, hrop⟩ := rowOf_some hr
  apply BitVec.eq_of_toNat_eq
  rw [toNat_encode hwf]
  rw [accepts_iff w r hmem, hrop, ← hop] at ha
  rw [operands, ← hop] at ho
  cases i <;> simp only [Instr.op, Instr.operandBits, field, Option.some.injEq, Instr.reset.injEq, Instr.noteOn.injEq,
    Instr.noteOff.injEq, Instr.cc.injEq, Instr.pitchBend.injEq, Instr.programChange.injEq, Instr.aftertouch.injEq,
    Instr.paramWrite.injEq, Instr.setVoiceMode.injEq, Instr.render.injEq, Nat.zero_mul, Nat.zero_add] at ho ha ⊢
  case render modin nf =>
    obtain ⟨hm, rfl⟩ := ho
    cases modin
    · have bit := of_decide_eq_false hm
      rw [if_neg (by decide)]
      omega
    · have bit := of_decide_eq_true hm
      rw [if_pos rfl]
      omega
  all_goals omega

/-- The payload of a command is the words its opcode takes behind the header (30_encoding.md R133, R134). -/
theorem payloadWords_of_operands (ho : operands w w1 w2 = some i) : i.payloadWords = [w1, w2].take (i.words - 1) := by
  obtain ⟨-, hop⟩ := operands_wellFormed ho
  obtain ⟨hlo, hhi⟩ := words_payload w1 w2
  rw [operands, ← hop] at ho
  cases i
  case reset bs sr =>
    obtain ⟨-, rfl⟩ := Instr.reset.inj (Option.some.inj ho)
    rw [Instr.payloadWords, hlo, hhi]
    rfl
  case paramWrite idx x =>
    obtain ⟨-, rfl⟩ := Instr.paramWrite.inj (Option.some.inj ho)
    rw [Instr.payloadWords, hlo, hhi]
    rfl
  all_goals rfl

/-- The words of a command are one or three (30_encoding.md R133). -/
theorem lengthOf_eq (op : Nat) : lengthOf op = 1 ∨ lengthOf op = 3 := by
  unfold lengthOf
  split
  · exact .inr rfl
  · exact .inl rfl

/-- When a command's words have all arrived, the defaults of missing payload words are not read. -/
theorem take_getD {op : Nat} (hlen : lengthOf op ≤ rest.length + 1) :
    [rest.getD 0 0, rest.getD 1 0].take (lengthOf op - 1) = rest.take (lengthOf op - 1) := by
  rcases lengthOf_eq op with h | h <;> rw [h] at hlen ⊢
  · rfl
  · match rest, hlen with
    | _ :: _ :: _, _ => rfl

/-- The words the decoder takes for a command are its encoding (30_encoding.md R132 to R134). -/
theorem take_of_decode {ws : List Word} {len : Nat} (h : decode ws = .command i len) : ws.take len = encode i := by
  obtain ⟨w, rest, r, rfl, hr, ha, -, -, ho⟩ := decode_command h
  obtain ⟨-, rfl, hle⟩ := decode_wellFormed h
  rw [encode_eq, header_of_operands hr ha ho, payloadWords_of_operands ho, Instr.words, take_getD hle]
  exact List.take_cons (by rcases lengthOf_eq i.op with h | h <;> rw [h] <;> decide)

/-! ### Rejected headers -/

/-- An unassigned opcode is rejected whatever follows it (30_encoding.md R137). -/
theorem decode_of_no_row (hr : rowOf (opcode w) = none) : decode (w :: rest) = .illegalOpcode := by
  simp only [decode, hr]

/-- A header its row does not accept is rejected when its words have arrived (30_encoding.md R133, R136). -/
theorem decode_of_not_accepted (hr : rowOf (opcode w) = some r) (hlen : lengthOf (opcode w) ≤ rest.length + 1)
    (ha : r.accepts w = false) : decode (w :: rest) = .reservedBits (lengthOf (opcode w)) := by
  simp only [decode, hr, ha, if_neg (Nat.not_lt.mpr hlen), Bool.false_eq_true, if_false]

/-- A header that carries the opcode of no row has no row. -/
theorem rowOf_eq_none (h : ∀ f ∈ headerForms, w &&& 0xFF000000 ≠ f.1) : rowOf (opcode w) = none := by
  rw [Option.eq_none_iff_forall_ne_some]
  intro r hr
  obtain ⟨hmem, hop⟩ := rowOf_some hr
  exact h _ (mem_headerForms.mpr ⟨r, hmem, rfl⟩) ((masked_opcode hmem).mpr hop.symm)

/-! ### The obligations -/

/-- Settles O1, by the round trip of the header's fields and of the payload words. -/
theorem encodedCommandDecodesToItself : Obligations.EncodedCommandDecodesToItself :=
  fun _ rest hw => decode_encode hw rest

/-- Settles O2: an accepted header is its opcode over its operands, and the payload words are those of its datum. -/
theorem decodedWordsAreTheEncoding : Obligations.DecodedWordsAreTheEncoding := by
  intro ws i len h
  obtain ⟨hwf, hlen, -⟩ := decode_wellFormed h
  exact ⟨hwf, hlen, take_of_decode h⟩

/-- Settles O3: the decoder's row for a header is the only row that can accept it, and an accepted header spells a
command. -/
theorem headerIsLegalExactlyByItsRow : Obligations.HeaderIsLegalExactlyByItsRow := by
  intro w w1 w2 rest
  constructor
  · rintro ⟨i, len, h⟩
    obtain ⟨_, _, r, ⟨rfl, rfl⟩, hr, ha, -⟩ := decode_command h
    exact ⟨_, mem_headerForms.mpr ⟨r, (rowOf_some hr).1, rfl⟩, of_decide_eq_true ha⟩
  · rintro ⟨f, hf, hm⟩
    obtain ⟨r, hmem, rfl⟩ := mem_headerForms.mp hf
    have ha : r.accepts w = true := decide_eq_true hm
    have hr := rowOf_of_accepts hmem ha
    have hlen : lengthOf (opcode w) ≤ (w1 :: w2 :: rest).length + 1 := by
      simp only [List.length_cons]
      rcases lengthOf_eq (opcode w) with h | h <;> omega
    obtain ⟨i, ho⟩ := exists_operands hr w1 w2
    exact ⟨i, _, decode_of_accepted hr hlen ha ho⟩

/-- A well-formed command and its words determine each other (30_encoding.md R132 to R134). -/
theorem encode_decode_eq {ws : List Word} (hw : i.WellFormed) (he : encode i = ws) :
    encode i = ws ∧ decode ws = .command i i.words := by
  refine ⟨he, ?_⟩
  rw [← he, ← List.append_nil (encode i)]
  exact decode_encode hw []

/-- Settles O5: the words are computed by the encoder, and the decoder undoes it. -/
theorem workedEncodings : Obligations.WorkedEncodings := by
  have thousand : F64.int 1000 = ⟨0x408F400000000000⟩ := by decide
  obtain ⟨noteE, noteD⟩ := encode_decode_eq (i := .noteOn 60 100) (ws := [0x02003C64]) (by decide) (by decide)
  obtain ⟨paramE, paramD⟩ := encode_decode_eq (i := .paramWrite 0x32 ⟨0x408F400000000000⟩)
    (ws := [0x10000032, 0x00000000, 0x408F4000]) (by decide) (by decide)
  obtain ⟨resetE, resetD⟩ := encode_decode_eq (i := .reset 512 (F64.int 48000))
    (ws := [0x01000200, 0x00000000, 0x40E77000]) (by decide) (by decide)
  obtain ⟨renderE, renderD⟩ := encode_decode_eq (i := .render true 256) (ws := [0x20010100]) (by decide) (by decide)
  rw [← thousand] at paramD
  exact ⟨noteE, noteD, paramE, paramD, resetE, resetD, renderE, renderD⟩

end Sys2Proof

namespace Sys2Proof.Machine

/-- Settles O4: a header without a row, and a header with a row that does not accept it. -/
theorem badHeaderIsRejected : Obligations.BadHeaderIsRejected := by
  intro s w rest hc
  constructor
  · intro h
    have hd : decode s.cmd = .illegalOpcode := by rw [hc]; exact decode_of_no_row (rowOf_eq_none h)
    have hdrop : s.cmd.drop 1 = rest := by rw [hc]; rfl
    rw [step, runCommand, hd, ← hdrop]
    rfl
  · intro f hf hop hm hlen
    obtain ⟨r, hmem, rfl⟩ := mem_headerForms.mp hf
    have hw := (masked_opcode hmem).mp hop
    simp only [← hw, hc, List.length_cons] at hlen
    have hd : decode s.cmd = .reservedBits (lengthOf (opcode r.pattern)) := by
      rw [hc, ← hw]
      exact decode_of_not_accepted (by rw [hw]; exact rowOf_of_mem hmem) hlen (decide_eq_false hm)
    rw [step, runCommand, hd]
    rfl

end Sys2Proof.Machine
end

section
/-! PROOFS. The system commands (40_system_commands.md): RESET by its operands, and how the status fields move. -/

namespace Sys2Proof.F64

variable {x y : F64}

theorem le_eq_false_of_lt (h : x.lt y = true) : y.le x = false := by
  obtain ⟨hx, hy, hk⟩ := lt_parts h
  rw [← Bool.not_eq_true, le_iff hy hx]
  omega

theorem key_of_isZero (h : x.isZero = true) : x.key = 0 := if_pos h

end Sys2Proof.F64

namespace Sys2Proof.Machine

variable {s t : State}

/-! ### RESET (R202, R601) -/

section Reset

variable {bs : Nat} {sr : F64}

/-- The rates that RESET takes, with the limits of 00_scope.md R8 as numbers. -/
theorem rateOk_iff :
    rateOk sr = true ↔ sr.isFinite = true ∧ (F64.int 8000).le sr = true ∧ sr.le (F64.int 384000) = true := by
  rw [rateOk, Bool.and_eq_true, Bool.and_eq_true, and_assoc]
  exact Iff.rfl

theorem execReset_of_bad_blockSize (h : ¬(1 ≤ bs ∧ bs ≤ 4096)) :
    execReset bs sr s = .next (s.raise .badOperand) := if_pos h

theorem execReset_of_bad_rate (hb : 1 ≤ bs ∧ bs ≤ 4096) (hr : rateOk sr = false) :
    execReset bs sr s = .next (s.raise .badValue) :=
  (if_neg (not_not.mpr hb)).trans (if_pos (by rw [hr]; rfl))

theorem execReset_of_accepted (hb : 1 ≤ bs ∧ bs ≤ 4096) (hr : rateOk sr = true) :
    execReset bs sr s = .next (s.afterReset bs sr) :=
  (if_neg (not_not.mpr hb)).trans (if_neg (by rw [hr]; decide))

/-- No zero, NaN or infinity is a rate, and none below or above the limits. -/
theorem rateOk_eq_false (h : sr.isZero = true ∨ sr.isNaN = true ∨ sr.isInf = true ∨ sr.lt (F64.int 8000) = true ∨
    (F64.int 384000).lt sr = true) : rateOk sr = false := by
  rw [← Bool.not_eq_true, rateOk_iff]
  rintro ⟨hfin, hlo, hhi⟩
  rcases h with hz | hn | hi | hlt | hgt
  · obtain ⟨-, -, hk⟩ := F64.le_parts hlo
    rw [F64.key_of_isZero hz] at hk
    exact absurd hk (by decide)
  · exact absurd hn (Bool.eq_false_iff.mp (F64.isNaN_of_isFinite hfin))
  · exact absurd hi (Bool.eq_false_iff.mp (F64.isInf_of_isFinite hfin))
  · exact absurd hlo (Bool.eq_false_iff.mp (F64.le_eq_false_of_lt hlt))
  · exact absurd hhi (Bool.eq_false_iff.mp (F64.le_eq_false_of_lt hgt))

/-- An accepted RESET silences every slot (R601). -/
theorem activeCount_afterReset : activeCount (s.afterReset bs sr).v = 0 := by
  refine List.countP_eq_zero.mpr fun i _ => ?_
  rw [← State.voice_eq, voice_afterReset]
  decide

end Reset

/-! ### The status fields (60_exceptions.md R560, R562) -/

theorem errCount_le_record (x : Status) (e : CmdError) : x.errCount.toNat ≤ (x.record e).errCount.toNat := by
  have hx := x.errCount.isLt
  unfold Status.record
  dsimp only
  split
  · rw [BitVec.toNat_add, show (1 : BitVec 8).toNat = 1 from rfl]
    omega
  · exact Nat.le_of_lt_succ hx

theorem errCode_record_of_ne_zero {x : Status} (h : x.errCode ≠ 0) (e : CmdError) :
    (x.record e).errCode = x.errCode := if_neg h

/-- A command leaves the status fields alone, or it is CLEAR_STATUS, or it was rejected with an error that it may raise
(60_exceptions.md R560, R561). -/
theorem exec_status {i : Instr} (h : exec i s = .next t) :
    t.s = s.s ∨ i = .clearStatus ∨ ∃ e, mayRaise i e = true ∧ t = s.raise e := by
  cases i with
  | nop => exact .inl (congrArg State.s (next_inj h))
  | cc => exact .inl (congrArg State.s (next_inj h))
  | pitchBend => exact .inl (congrArg State.s (next_inj h))
  | programChange => exact .inl (congrArg State.s (next_inj h))
  | aftertouch => exact .inl (congrArg State.s (next_inj h))
  | clearStatus => exact .inr (.inl rfl)
  | noteOff note =>
    obtain ⟨-, hstatus, -⟩ := noteOff_frame s note
    exact .inl (next_inj h ▸ hstatus)
  | noteOn note vel =>
    obtain ⟨-, hoff, -⟩ := noteOff_frame s note
    obtain ⟨-, hon, -⟩ := noteOn_frame s note vel
    rcases execNoteOn_cases h with ⟨-, rfl⟩ | ⟨hv, -, rfl⟩ | ⟨-, -, rfl⟩
    · exact .inl hoff
    · exact .inr (.inr ⟨.notConfigured, decide_eq_true hv, rfl⟩)
    · exact .inl hon
  | reset bs sr =>
    rcases execReset_cases h with ⟨-, rfl⟩ | ⟨-, -, rfl⟩ | ⟨-, -, rfl⟩
    · exact .inr (.inr ⟨_, rfl, rfl⟩)
    · exact .inr (.inr ⟨_, rfl, rfl⟩)
    · exact .inl (afterReset_s s bs sr)
  | setVoiceMode mode =>
    rcases execSetVoiceMode_cases h with ⟨-, rfl⟩ | ⟨m, -, rfl⟩
    · exact .inr (.inr ⟨_, rfl, rfl⟩)
    · obtain ⟨-, hstatus, -⟩ := switchVoiceMode_frame s m
      exact .inl hstatus
  | paramWrite idx x =>
    rcases execParamWrite_cases h with ⟨-, rfl⟩ | ⟨r, -, ⟨-, rfl⟩ | ⟨-, rfl⟩⟩
    · exact .inr (.inr ⟨_, rfl, rfl⟩)
    · exact .inr (.inr ⟨_, rfl, rfl⟩)
    · exact .inl (writeParam_s s r x)
  | render modin nf =>
    rcases execRender_cases h with ⟨-, rfl⟩ | ⟨-, -, rfl⟩ | ⟨-, -, rfl⟩ | ⟨-, -, -, -, rfl⟩
    · exact .inr (.inr ⟨_, rfl, rfl⟩)
    · exact .inr (.inr ⟨_, rfl, rfl⟩)
    · exact .inl rfl
    · obtain ⟨-, hstatus, -⟩ := renderBlock_frame s modin nf
      exact .inl hstatus

/-- A step leaves the status fields alone, records one error in them, or takes a CLEAR_STATUS. -/
theorem step_status (h : step s = .next t) :
    t.s = s.s ∨ (∃ e, t.s = s.s.record e) ∨ decode s.cmd = .command .clearStatus 1 := by
  rcases step_cases h with ⟨w, rest, -, -, rfl⟩ | ⟨w, rest, r, -, -, -, -, rfl⟩ | ⟨i, hd, -, -, he⟩
  · exact .inr (.inl ⟨_, rfl⟩)
  · exact .inr (.inl ⟨_, rfl⟩)
  · rcases exec_status he with hs | rfl | ⟨e, -, rfl⟩
    · exact .inl hs
    · exact .inr (.inr hd)
    · exact .inr (.inl ⟨e, rfl⟩)

/-! ### The obligations -/

/-- Settles O12: any other step keeps the status fields or records an error, which neither lowers the count nor replaces a
code. -/
theorem onlyClearStatusClearsErrors : Obligations.OnlyClearStatusClearsErrors := by
  refine ⟨fun s => rfl, fun s t h hne => ?_⟩
  rcases step_status h with hs | ⟨e, hs⟩ | hclear
  · rw [hs]
    exact ⟨le_rfl, fun _ => rfl⟩
  · rw [hs]
    exact ⟨errCount_le_record s.s e, fun hc => errCode_record_of_ne_zero hc e⟩
  · exact absurd hclear hne

/-- Settles O14: each of the five meanings answers its own state. -/
theorem eventsWithoutEffect : Obligations.EventsWithoutEffect :=
  fun _ _ _ => ⟨rfl, rfl, rfl, rfl, rfl⟩

/-- Settles O15: such operands are accepted, and every slot then holds its reset value. -/
theorem resetSilencesAndConfigures : Obligations.ResetSilencesAndConfigures := by
  intro s bs sr hpos hmax hfin hlo hhi
  refine ⟨s.afterReset bs sr, execReset_of_accepted ⟨hpos, hmax⟩ (rateOk_iff.mpr ⟨hfin, hlo, hhi⟩), rfl, fun i => ?_,
    activeCount_afterReset, rfl, rfl, rfl, rfl, rfl, rfl, rfl⟩
  rw [voice_afterReset]
  exact ⟨rfl, rfl⟩

/-- Settles O16: the block size is checked first, and no such rate is taken. -/
theorem resetRejectsBadOperands : Obligations.ResetRejectsBadOperands := by
  intro s bs sr
  constructor
  · intro hb
    exact execReset_of_bad_blockSize (by omega)
  · intro hpos hmax hr
    exact execReset_of_bad_rate ⟨hpos, hmax⟩ (rateOk_eq_false hr)

end Sys2Proof.Machine
end

section
/-! PROOFS. The sounding commands by their guards: NOTE_ON of velocity 0 (41_note_commands.md R221), and NOTE_ON and
RENDER before the first RESET (70_reset_and_hazards.md R603). -/

namespace Sys2Proof.Machine

variable {s : State}

theorem execNoteOn_zero (s : State) (note : Nat) : execNoteOn note 0 s = execNoteOff note s := if_pos rfl

theorem execNoteOn_of_unconfigured {note vel : Nat} (hv : vel ≠ 0) (hc : s.g.configured = false) :
    execNoteOn note vel s = .next (s.raise .notConfigured) :=
  (if_neg hv).trans (if_pos (by rw [hc]; rfl))

theorem execRender_of_unconfigured {modin : Bool} {nf : Nat} (hc : s.g.configured = false) :
    execRender modin nf s = .next (s.raise .notConfigured) := if_pos (by rw [hc]; rfl)

/-! ### The obligations -/

/-- Settles O19: the velocity is tested before the configuration, and a NOTE_OFF keeps the status fields. -/
theorem velocityZeroIsNoteOff : Obligations.VelocityZeroIsNoteOff := by
  intro s note
  obtain ⟨-, hstatus, -⟩ := noteOff_frame s note
  exact ⟨execNoteOn_zero s note, s.noteOff note, execNoteOn_zero s note, hstatus⟩

/-- Settles O20: both commands test the configuration before any effect. -/
theorem unconfiguredBlockRejectsSound : Obligations.UnconfiguredBlockRejectsSound :=
  fun _ hc => ⟨fun _ _ hv => execNoteOn_of_unconfigured hv hc, fun _ _ => execRender_of_unconfigured hc⟩

end Sys2Proof.Machine
end

section
/-! PROOFS. PARAM_WRITE by its checks and its effect (42_param_write.md R260, R261), and the worked conversions of R267. -/

namespace Sys2Proof.Machine

variable {s : State} {idx : Nat} {x : F64}

/-! ### The implemented indices (R261) -/

/-- The list of R261. -/
abbrev ImplementedIndex (idx : Nat) : Prop :=
  idx ≤ 0x0D ∨ (0x10 ≤ idx ∧ idx ≤ 0x1D) ∨ (0x20 ≤ idx ∧ idx ≤ 0x24) ∨ (0x30 ≤ idx ∧ idx ≤ 0x34) ∨
    (0x40 ≤ idx ∧ idx ≤ 0x44) ∨ (0x48 ≤ idx ∧ idx ≤ 0x4C) ∨ (0x50 ≤ idx ∧ idx ≤ 0x51)

/-- The indices of the registers are the listed ones, the highest of which is 0x51. -/
theorem implementedIndex_iff : ImplementedIndex idx ↔ ∃ r : ParamReg, r.index = idx := by
  constructor
  · intro h
    have listed : ∀ i < 0x52, ImplementedIndex i → ∃ r ∈ ParamReg.all, r.index = i := by decide
    obtain ⟨r, -, hr⟩ := listed idx (by omega) h
    exact ⟨r, hr⟩
  · rintro ⟨r, rfl⟩
    have table : ∀ r ∈ ParamReg.all, ImplementedIndex r.index := by decide
    exact table r r.mem_all

theorem ParamReg.ofIndex_eq_none (h : ¬∃ r : ParamReg, r.index = idx) : ParamReg.ofIndex idx = none :=
  List.find?_eq_none.mpr fun r _ he => h ⟨r, of_decide_eq_true he⟩

/-! ### PARAM_WRITE by its checks (R260) -/

theorem execParamWrite_of_no_register (h : ¬∃ r : ParamReg, r.index = idx) :
    execParamWrite idx x s = .next (s.raise .badParamIndex) := by
  rw [execParamWrite, ParamReg.ofIndex_eq_none h]
  rfl

theorem execParamWrite_of_nan (r : ParamReg) (hx : x.isNaN = true) :
    execParamWrite r.index x s = .next (s.raise .badValue) := by
  rw [execParamWrite, ParamReg.ofIndex_index]
  exact if_pos hx

theorem execParamWrite_of_number (r : ParamReg) (hx : x.isNaN = false) :
    execParamWrite r.index x s = .next (s.writeParam r x) := by
  rw [execParamWrite, ParamReg.ofIndex_index]
  exact if_neg (by rw [hx]; decide)

/-! ### A zero at a bound of zero -/

/-- Which of two zeros of unlike sign `min` gives is free (log entry 4), and R262's last line hides the choice. -/
theorem plusZero_min_zeros {y hi : F64} (hy : y.isZero = true) (hhi : hi.isZero = true) :
    plusZero (y.min hi) = F64.zero := by
  obtain ⟨h, -, -⟩ := F64.min_ordered (F64.isNaN_of_isZero hy) (F64.isNaN_of_isZero hhi)
  apply plusZero_of_isZero
  rcases h with h | h <;> rw [h, F64.isZero_daz]
  · exact hy
  · exact hhi

/-- A sustain level of -0.0 dB stands at the top of its range, which is +0.0. -/
theorem stored_sdB_negZero (e : EnvId) : (ParamReg.env e .sdB).stored (F64.zeroOf true) = F64.zero := by
  rw [stored_real rfl]
  cases e <;> exact plusZero_min_zeros (by decide +kernel) (by decide)

/-! ### The obligations -/

/-- Settles O32: the write is one `Params.set`, which the register file's laws read back. -/
theorem paramWriteStoresOneRegister : Obligations.ParamWriteStoresOneRegister := by
  intro s r x hx
  exact ⟨s.writeParam r x, execParamWrite_of_number r hx, Params.get_set_same s.p r _,
    fun r' hr => Params.get_set_ne s.p hr _, rfl, rfl, rfl, rfl, rfl, rfl, rfl, rfl⟩

/-- Settles O33: the register is looked up before the value is read. -/
theorem paramWriteChecksIndexThenValue : Obligations.ParamWriteChecksIndexThenValue := by
  intro s idx x
  refine ⟨implementedIndex_iff, fun h => ?_, fun h hx => ?_⟩
  · exact execParamWrite_of_no_register (mt implementedIndex_iff.mpr h)
  · obtain ⟨r, rfl⟩ := implementedIndex_iff.mp h
    exact execParamWrite_of_nan r hx

/-- Settles O35: every conversion but that of -0.0 evaluates, and the two rejected writes follow from their checks. -/
theorem workedConversions : Obligations.WorkedConversions := by
  have rejected (s : State) : exec (.paramWrite 0x32 ⟨0x7FF8000000000000⟩) s = .next (s.raise .badValue) ∧
      exec (.paramWrite 0x0E F64.one) s = .next (s.raise .badParamIndex) :=
    ⟨execParamWrite_of_nan (x := ⟨0x7FF8000000000000⟩) .cutoff (by decide),
      execParamWrite_of_no_register (idx := 0x0E) (x := F64.one) (mt implementedIndex_iff.mpr (by decide))⟩
  refine ⟨?_, ?_, ?_, ?_, ?_, ?_, ?_, ?_, ?_, stored_sdB_negZero .amp, ?_, ?_, rejected⟩ <;> decide +kernel

end Sys2Proof.Machine
end

section
/-! PROOFS. RENDER by its guards, a block as its frames, and a block with no sounding voice (43_render.md R290 to R294,
R297, R298). -/

namespace Sys2Proof.Machine

variable {s : State} {modin : Bool} {nf : Nat}

/-! ### RENDER by its guards (R290, R291, R294) -/

theorem execRender_of_zero (hc : s.g.configured = true) : execRender modin 0 s = .next s := by
  simp [execRender, hc]

theorem execRender_of_too_many (hc : s.g.configured = true) (h : s.g.blockSize < nf) :
    execRender modin nf s = .next (s.raise .badOperand) :=
  (if_neg (by rw [hc]; decide)).trans (if_pos h)

theorem execRender_of_missing_modulation (hc : s.g.configured = true) (hb : nf ≤ s.g.blockSize)
    (hm : s.modIn.length < nf) : execRender true nf s = .fault .awaitModulation := by
  have h1 : ¬s.g.blockSize < nf := by omega
  have h2 : nf ≠ 0 := by omega
  simp [execRender, hc, h1, h2, hm]

theorem execRender_of_ready (hc : s.g.configured = true) (h1 : 1 ≤ nf) (hb : nf ≤ s.g.blockSize)
    (hm : modin = true → nf ≤ s.modIn.length) : execRender modin nf s = .next (s.renderBlock modin nf) := by
  have hb' : ¬s.g.blockSize < nf := by omega
  have h0 : nf ≠ 0 := by omega
  have hm' : (modin && decide (s.modIn.length < nf)) = false := by
    cases modin with
    | false => rfl
    | true => exact decide_eq_false (by have := hm rfl; omega)
  simp [execRender, hc, hb', h0, hm']

/-! ### A rendered block -/

/-- The voices and the frames of a rendered block. -/
theorem renderBlock_v (s : State) (modin : Bool) (nf : Nat) :
    (s.renderBlock modin nf).v =
      (renderFrames s.housekeeping.g s.housekeeping.p (blockMods s modin nf) s.housekeeping.v).1 := rfl

theorem renderBlock_out_eq (s : State) (modin : Bool) (nf : Nat) :
    (s.renderBlock modin nf).out = s.out ++
      (renderFrames s.housekeeping.g s.housekeeping.p (blockMods s modin nf) s.housekeeping.v).2 :=
  congrArg (· ++ _) (housekeeping_out s)

/-- Two vectors of slots that agree at every slot are equal. -/
theorem voices_ext {v u : Vector Voice 33} (h : ∀ i : Slot, v[i] = u[i]) : v = u :=
  Vector.ext fun i hi => h ⟨i, hi⟩

theorem renderFrames_append (g : Global) (p : Params) (ms ns : List ModFrame) (v : Vector Voice 33) :
    renderFrames g p (ms ++ ns) v =
      ((renderFrames g p ns (renderFrames g p ms v).1).1,
       (renderFrames g p ms v).2 ++ (renderFrames g p ns (renderFrames g p ms v).1).2) := by
  induction ms generalizing v with
  | nil => rfl
  | cons m ms ih => simp only [List.cons_append, renderFrames, ih]

/-- A slot of a block is what its own record becomes under the same frames. -/
theorem getElem_renderFrames (g : Global) (p : Params) (ms : List ModFrame) (v : Vector Voice 33) (i : Slot) :
    (renderFrames g p ms v).1[i] = voiceAfter g p ms v[i] := by
  induction ms generalizing v with
  | nil => rfl
  | cons m ms ih =>
    rw [renderFrames, ih, getElem_mixFrame]
    rfl

theorem allSlots_eq_finRange : allSlots = List.finRange 33 := by decide

/-- A frame is the sum of the slots' samples (R298). -/
theorem mixFrame_frame (g : Global) (p : Params) (m : ModFrame) (v : Vector Voice 33) :
    (mixFrame g p m v).2 = (List.finRange 33).foldl
      (fun acc i => ⟨acc.l.add (voiceSample g p m v[i]).2.l, acc.r.add (voiceSample g p m v[i]).2.r⟩)
      ⟨F64.zero, F64.zero⟩ := by
  simp only [mixFrame, sumFrames, voiceFrames, getElem_ofFn_slot, allSlots_eq_finRange]

/-! ### No sounding voice -/

section Silent

variable {v : Vector Voice 33}

/-- The frame of a block with no sounding voice. -/
def silence : Frame := ⟨F64.zero, F64.zero⟩

theorem mixFrame_silent (h : ∀ i : Slot, v[i].sounding = false) (g : Global) (p : Params) (m : ModFrame) :
    mixFrame g p m v = (v, silence) := by
  have zeros : F64.zero.add F64.zero = F64.zero := by decide
  refine Prod.ext (voices_ext fun i => ?_) ?_
  · rw [getElem_mixFrame, voiceSample_free (h i)]
  · rw [mixFrame_frame]
    simp only [voiceSample_free (h _)]
    exact List.foldlRecOn (motive := (· = silence)) _ _ rfl fun acc hacc i _ => by rw [hacc, silence, zeros]

theorem renderFrames_silent (h : ∀ i : Slot, v[i].sounding = false) (g : Global) (p : Params) (ms : List ModFrame) :
    renderFrames g p ms v = (v, List.replicate ms.length silence) := by
  induction ms with
  | nil => rfl
  | cons m ms ih => simp only [renderFrames, mixFrame_silent h, ih, List.length_cons, List.replicate_succ]

theorem activeCount_silent (h : ∀ i : Slot, v[i].sounding = false) : activeCount v = 0 :=
  List.countP_eq_zero.mpr fun i _ => by rw [h i]; decide

/-- The hard cap finds no releasing voice. -/
theorem housekeeping_silent (h : ∀ i : Slot, (s.voice i).sounding = false) : s.housekeeping.v = s.v :=
  voices_ext fun i => by
    rw [← State.voice_eq, ← State.voice_eq, housekeeping_voice, if_neg]
    intro hi
    obtain ⟨-, hrel, -⟩ := hardCapSlots_mem hi
    rw [Voice.releasing, ← State.voice_eq, h i] at hrel
    cases hrel

end Silent

/-! ### The obligations -/

/-- Settles O38: the guards are tested in this order, and a wait is no next state. -/
theorem renderOfNoneTooManyOrTooFew : Obligations.RenderOfNoneTooManyOrTooFew :=
  fun _ _ _ hc => ⟨execRender_of_zero hc, execRender_of_too_many hc, execRender_of_missing_modulation hc⟩

/-- Settles O37: past its guards a RENDER is `State.renderBlock`. -/
theorem renderEmitsItsFrames : Obligations.RenderEmitsItsFrames := by
  intro s modin nf hc h1 hb hm
  obtain ⟨hp, hs, hcmd, hpos, hg, hmod, hmodPos⟩ := renderBlock_frame s modin nf
  have hout := renderBlock_out_eq s modin nf
  refine ⟨s.renderBlock modin nf, execRender_of_ready hc h1 hb hm, ?_, ?_, ?_, hmod, hmodPos, rfl, ?_, hp, hs, hcmd,
    hpos⟩
  · rw [renderBlock_v, hout, List.drop_left]
    rfl
  · rw [hout, List.take_left]
  · rw [hout, List.length_append, renderFrames_length, blockMods_length s modin nf hm]
  · rw [hg]

/-- Settles O39: neither the housekeeping nor a frame changes a FREE voice, and a sum of +0.0 is +0.0. -/
theorem silentRenderEmitsZeros : Obligations.SilentRenderEmitsZeros := by
  intro s modin nf hc h1 hb hm hfree
  obtain ⟨-, -, -, -, hg, hmod, -⟩ := renderBlock_frame s modin nf
  have hblock := renderFrames_silent hfree s.housekeeping.g s.housekeeping.p (blockMods s modin nf)
  rw [blockMods_length s modin nf hm] at hblock
  refine ⟨s.renderBlock modin nf, execRender_of_ready hc h1 hb hm, ?_, ?_, ?_, ?_⟩
  · rw [renderBlock_out_eq, housekeeping_silent hfree, hblock]
    rfl
  · rw [renderBlock_v, housekeeping_silent hfree, hblock]
  · rw [hg, activeCount_silent hfree]
    rfl
  · rw [hmod]
    cases modin <;> rfl

/-- Settles O40: the fold over `allSlots` runs from slot 0 to slot 32. -/
theorem frameIsTheOrderedSum : Obligations.FrameIsTheOrderedSum :=
  fun g p m v => ⟨mixFrame_frame g p m v, getElem_mixFrame g p m v⟩

/-- Settles O41, by induction on the modulation frames. -/
theorem blockIsRenderedFrameByFrame : Obligations.BlockIsRenderedFrameByFrame :=
  fun g p ms ns v => ⟨getElem_renderFrames g p ms v, renderFrames_append g p ms ns v⟩

end Sys2Proof.Machine
end

section
/-! PROOFS. The sanitised modulation frame (43_render.md R295), and what modulation leaves alone in a voice (R296). -/

namespace Sys2Proof.F64

variable {x y lo hi : F64}

/-! ### What `clamp` answers below, above and within its bounds (00_scope.md R13) -/

/-- The place of a datum that is no zero shows its sign and its magnitude. -/
theorem eq_of_key_eq (hx : x.isZero = false) (h : x.key = y.key) : x = y := by
  have hm := (isZero_iff x).not.mp (by rw [hx]; decide)
  have hy : y.isZero = false := Bool.eq_false_iff.mpr fun hy => by
    rw [key_of_isZero hy] at h
    simp only [key, hx, Bool.false_eq_true, if_false] at h
    split at h <;> omega
  have hm' := (isZero_iff y).not.mp (by rw [hy]; decide)
  simp only [key, hx, hy, Bool.false_eq_true, if_false] at h
  cases hsx : x.sign <;> cases hsy : y.sign <;>
    simp only [hsx, hsy, Bool.false_eq_true, if_false, if_true] at h
  · exact ext_mag (hsx.trans hsy.symm) (by omega)
  · omega
  · omega
  · exact ext_mag (hsx.trans hsy.symm) (by omega)

theorem daz_lt (x y : F64) : x.daz.lt y = x.lt y := by rw [lt, lt, isNaN_daz, key_daz]

theorem lt_daz (x y : F64) : x.lt y.daz = x.lt y := by rw [lt, lt, isNaN_daz, key_daz]

theorem lt_or_key_eq_of_le (h : x.le y = true) : x.lt y = true ∨ x.key = y.key := by
  obtain ⟨hx, hy, hk⟩ := le_parts h
  rw [lt_iff hx hy]
  omega

protected theorem le_of_lt (h : x.lt y = true) : x.le y = true := by
  obtain ⟨hx, hy, hk⟩ := lt_parts h
  exact (le_iff hx hy).mpr (by omega)

protected theorem lt_of_lt_of_le {z : F64} (h1 : x.lt y = true) (h2 : y.le z = true) : x.lt z = true := by
  obtain ⟨hx, -, k1⟩ := lt_parts h1
  obtain ⟨-, hz, k2⟩ := le_parts h2
  exact (lt_iff hx hz).mpr (by omega)

protected theorem lt_trans {z : F64} (h1 : x.lt y = true) (h2 : y.lt z = true) : x.lt z = true :=
  F64.lt_of_lt_of_le h1 (F64.le_of_lt h2)

theorem not_isZero_of_zero_lt (h : zero.lt x = true) : x.isZero = false := by
  obtain ⟨-, -, hk⟩ := lt_parts h
  refine Bool.eq_false_iff.mpr fun hz => ?_
  rw [key_of_isZero hz] at hk
  exact absurd hk (by decide)

theorem lt_of_le_eq_false (hx : x.isNaN = false) (hy : y.isNaN = false) (h : x.le y = false) : y.lt x = true := by
  rw [← Bool.not_eq_true, le_iff hx hy] at h
  rw [lt_iff hy hx]
  omega

theorem clamp_of_lt (h : lo.lt hi = true) (hx : x.lt lo = true) : x.clamp lo hi = lo.daz := by
  rw [clamp, max_of_lt hx, min_of_lt (by rw [daz_lt, h]), daz_daz]

theorem clamp_of_gt (h : lo.lt hi = true) (hx : hi.lt x = true) : x.clamp lo hi = hi.daz := by
  obtain ⟨hlo, hhi, k1⟩ := lt_parts h
  obtain ⟨-, hx', k2⟩ := lt_parts hx
  rw [clamp, max_of_gt ((lt_iff hlo hx').mpr (by omega)), min_of_gt (by rw [lt_daz, hx])]

/-- At a bound that is a zero, which zero is answered is free (log entry 4); at any other the datum is the bound. -/
theorem clamp_of_between (hlo : lo.isZero = false) (hhi : hi.isZero = false) (h1 : lo.le x = true)
    (h2 : x.le hi = true) : x.clamp lo hi = x.daz := by
  obtain ⟨-, hx, -⟩ := le_parts h1
  have lower : x.max lo = x.daz := by
    rcases lt_or_key_eq_of_le h1 with h | h
    · exact max_of_gt h
    · exact max_of_daz_eq hx (by rw [eq_of_key_eq hlo h])
  have upper : x.daz.min hi = x.daz.daz := by
    rcases lt_or_key_eq_of_le h2 with h | h
    · exact min_of_lt (by rw [daz_lt, h])
    · exact min_of_daz_eq (by rw [isNaN_daz, hx]) (by rw [eq_of_key_eq hhi h.symm, daz_daz])
  rw [clamp, lower, upper, daz_daz]

/-- Within its bounds a datum is clamped to an equal number, zero bounds included. -/
theorem clamp_eq_of_between (h1 : lo.le x = true) (h2 : x.le hi = true) : (x.clamp lo hi).eq x = true := by
  obtain ⟨hlo, hx, k1⟩ := le_parts h1
  obtain ⟨-, hhi, k2⟩ := le_parts h2
  obtain ⟨-, kmax, nmax⟩ := max_ordered hx hlo
  obtain ⟨-, kmin, nmin⟩ := min_ordered nmax hhi
  have hk : (x.clamp lo hi).key = x.key := by
    rw [clamp, kmin, kmax]
    omega
  have hn : (x.clamp lo hi).isNaN = false := nmin
  simp [eq, hk, hn, hx]

end Sys2Proof.F64

namespace Sys2Proof.Machine

/-! ### `SanitiseMod`, value by value (R295) -/

section Sanitise

variable {m : ModFrame}

/-- The lowest pitch ratio. -/
def minRatio : F64 := F64.lit ⟨625, 10000⟩

theorem sanitise_ratio_neutral (h : m.pitchRatio.isFinite = false ∨ m.pitchRatio.le F64.zero = true) :
    (sanitiseMod m).pitchRatio = F64.one := by
  rcases h with h | h <;> simp [sanitiseMod, h]

theorem sanitise_ratio_clamp (hf : m.pitchRatio.isFinite = true) (hp : F64.zero.lt m.pitchRatio = true) :
    (sanitiseMod m).pitchRatio = m.pitchRatio.clamp minRatio (F64.int 16) := by
  simp only [sanitiseMod, hf, F64.le_eq_false_of_lt hp]
  rfl

theorem sanitise_offset_neutral (h : m.cutoffOct.isFinite = false) : (sanitiseMod m).cutoffOct = F64.zero := by
  simp [sanitiseMod, h]

theorem sanitise_offset_clamp (h : m.cutoffOct.isFinite = true) :
    (sanitiseMod m).cutoffOct = m.cutoffOct.clamp (F64.int (-10)) (F64.int 10) := by
  simp only [sanitiseMod, h]
  rfl

theorem sanitise_gain_neutral (h : m.ampGain.isNaN = true) : (sanitiseMod m).ampGain = F64.one := by
  simp [sanitiseMod, h]

theorem sanitise_gain_clamp (h : m.ampGain.isNaN = false) :
    (sanitiseMod m).ampGain = m.ampGain.clamp F64.zero F64.one := by
  simp only [sanitiseMod, h]
  rfl

/-! ### The bounds -/

theorem ratio_bounds_lt : minRatio.lt (F64.int 16) = true := by decide +kernel

theorem zero_lt_minRatio : F64.zero.lt minRatio = true := by decide +kernel

theorem minRatio_finite : minRatio.isFinite = true := by decide +kernel

theorem minRatio_not_zero : minRatio.isZero = false := by decide +kernel

theorem offset_bounds_lt : (F64.int (-10)).lt (F64.int 10) = true := by decide +kernel

theorem gain_bounds_lt : F64.zero.lt F64.one = true := by decide

theorem sanitise_ratio_between (m : ModFrame) :
    minRatio.le (sanitiseMod m).pitchRatio = true ∧ (sanitiseMod m).pitchRatio.le (F64.int 16) = true := by
  by_cases h : m.pitchRatio.isFinite = false ∨ m.pitchRatio.le F64.zero = true
  · rw [sanitise_ratio_neutral h]
    decide +kernel
  · simp only [not_or, Bool.not_eq_false, Bool.not_eq_true] at h
    obtain ⟨hf, hle⟩ := h
    have hn := F64.isNaN_of_isFinite hf
    rw [sanitise_ratio_clamp hf (F64.lt_of_le_eq_false hn F64.isNaN_zero hle)]
    exact F64.clamp_range hn (F64.le_of_lt ratio_bounds_lt)

theorem sanitise_offset_between (m : ModFrame) :
    (F64.int (-10)).le (sanitiseMod m).cutoffOct = true ∧ (sanitiseMod m).cutoffOct.le (F64.int 10) = true := by
  cases h : m.cutoffOct.isFinite with
  | false =>
    rw [sanitise_offset_neutral h]
    decide +kernel
  | true =>
    rw [sanitise_offset_clamp h]
    exact F64.clamp_range (F64.isNaN_of_isFinite h) (F64.le_of_lt offset_bounds_lt)

theorem sanitise_gain_between (m : ModFrame) :
    F64.zero.le (sanitiseMod m).ampGain = true ∧ (sanitiseMod m).ampGain.le F64.one = true := by
  cases h : m.ampGain.isNaN with
  | true =>
    rw [sanitise_gain_neutral h]
    decide
  | false =>
    rw [sanitise_gain_clamp h]
    exact F64.clamp_range h (F64.le_of_lt gain_bounds_lt)

/-! ### A value outside its bounds, and one within them -/

theorem sanitise_ratio_above (hf : m.pitchRatio.isFinite = true) (h : (F64.int 16).lt m.pitchRatio = true) :
    (sanitiseMod m).pitchRatio = F64.int 16 := by
  have hp : F64.zero.lt m.pitchRatio = true := F64.lt_trans (by decide) h
  rw [sanitise_ratio_clamp hf hp, F64.clamp_of_gt ratio_bounds_lt h, F64.daz_int]

theorem sanitise_ratio_below (hp : F64.zero.lt m.pitchRatio = true) (h : m.pitchRatio.lt minRatio = true) :
    (sanitiseMod m).pitchRatio = minRatio := by
  have hf := F64.isFinite_of_between F64.isFinite_zero minRatio_finite (F64.le_of_lt hp) (F64.le_of_lt h)
  rw [sanitise_ratio_clamp hf hp, F64.clamp_of_lt ratio_bounds_lt h, F64.daz_of_not_isZero minRatio_not_zero]

theorem sanitise_ratio_within (h1 : minRatio.le m.pitchRatio = true) (h2 : m.pitchRatio.le (F64.int 16) = true) :
    (sanitiseMod m).pitchRatio = m.pitchRatio := by
  have hp := F64.lt_of_lt_of_le zero_lt_minRatio h1
  have hf := F64.isFinite_of_between minRatio_finite (by decide) h1 h2
  rw [sanitise_ratio_clamp hf hp, F64.clamp_of_between minRatio_not_zero (by decide) h1 h2,
    F64.daz_of_not_isZero (F64.not_isZero_of_zero_lt hp)]

theorem sanitise_offset_above (hf : m.cutoffOct.isFinite = true) (h : (F64.int 10).lt m.cutoffOct = true) :
    (sanitiseMod m).cutoffOct = F64.int 10 := by
  rw [sanitise_offset_clamp hf, F64.clamp_of_gt offset_bounds_lt h, F64.daz_int]

theorem sanitise_offset_below (hf : m.cutoffOct.isFinite = true) (h : m.cutoffOct.lt (F64.int (-10)) = true) :
    (sanitiseMod m).cutoffOct = F64.int (-10) := by
  rw [sanitise_offset_clamp hf, F64.clamp_of_lt offset_bounds_lt h, F64.daz_int]

theorem sanitise_offset_within (h1 : (F64.int (-10)).le m.cutoffOct = true)
    (h2 : m.cutoffOct.le (F64.int 10) = true) : (sanitiseMod m).cutoffOct = m.cutoffOct.daz := by
  have hf := F64.isFinite_of_between (by decide) (by decide) h1 h2
  rw [sanitise_offset_clamp hf, F64.clamp_of_between (by decide) (by decide) h1 h2]

theorem sanitise_gain_above (h : F64.one.lt m.ampGain = true) : (sanitiseMod m).ampGain = F64.one := by
  obtain ⟨-, hn, -⟩ := F64.lt_parts h
  rw [sanitise_gain_clamp hn, F64.clamp_of_gt gain_bounds_lt h]
  exact F64.daz_int 1

theorem sanitise_gain_below (h : m.ampGain.lt F64.zero = true) : (sanitiseMod m).ampGain = F64.zero := by
  obtain ⟨hn, -, -⟩ := F64.lt_parts h
  rw [sanitise_gain_clamp hn, F64.clamp_of_lt gain_bounds_lt h, F64.daz_zero]

theorem sanitise_gain_within (h1 : F64.zero.le m.ampGain = true) (h2 : m.ampGain.le F64.one = true) :
    (sanitiseMod m).ampGain.eq m.ampGain = true := by
  obtain ⟨-, hn, -⟩ := F64.le_parts h1
  rw [sanitise_gain_clamp hn]
  exact F64.clamp_eq_of_between h1 h2

end Sanitise

/-! ### What modulation leaves alone (R296) -/

section Unmodulated

variable (g : Global) (p : Params) (m m' : ModFrame) (w : Voice)

/-- A voice without its oscillator phases and filter states, the only fields that modulation reaches. -/
def Voice.unmodulated (w : Voice) : Voice :=
  { w with
    osc1 := { w.osc1 with copies := Vector.replicate 8 Copy.reset }
    osc2 := { w.osc2 with copies := Vector.replicate 8 Copy.reset }
    subPh := 0, svfL := Svf.reset, svfR := Svf.reset }

theorem oscTwoStart_pw (fs pr : F64) : (oscTwoStart fs p pr w).pw = w.osc2.pw := by
  unfold oscTwoStart
  split <;> rfl

/-- The mix moves phases alone. -/
theorem oscMix_unmodulated (fs pr : F64) : (oscMix fs p pr w).voice.unmodulated = w.unmodulated := by
  rw [oscMix_voice]
  simp only [Voice.unmodulated, oscFrame, oscTwoStart_pw]

/-- Before the end of its frame, a voice has seen the modulation in the mix and in the filter only. -/
theorem frameBody_unmodulated :
    (frameBody g p m w).unmodulated = (((w.glideFrame).smoothFrame g.fs p).envFrame g p).unmodulated :=
  oscMix_unmodulated p _ g.fs m.pitchRatio

/-- The end of a frame reads and writes no other field. -/
theorem endOfFrame_unmodulated : w.endOfFrame.unmodulated = w.unmodulated.endOfFrame := by
  simp only [Voice.endOfFrame, apply_ite Voice.unmodulated]
  rfl

theorem voiceSample_unmodulated :
    (voiceSample g p m w).1.unmodulated = (voiceSample g p m' w).1.unmodulated := by
  cases hs : w.sounding with
  | false => rw [voiceSample_free hs, voiceSample_free hs]
  | true =>
    rw [voiceSample_sounding hs, voiceSample_sounding hs, endOfFrame_unmodulated, endOfFrame_unmodulated,
      frameBody_unmodulated, frameBody_unmodulated]

end Unmodulated

/-! ### The obligations -/

/-- Settles O42, clause by clause from the three values. -/
theorem modulationIsBounded : Obligations.ModulationIsBounded := by
  intro m
  obtain ⟨ratioLo, ratioHi⟩ := sanitise_ratio_between m
  obtain ⟨offsetLo, offsetHi⟩ := sanitise_offset_between m
  obtain ⟨gainLo, gainHi⟩ := sanitise_gain_between m
  exact ⟨ratioLo, ratioHi, offsetLo, offsetHi, gainLo, gainHi, sanitise_ratio_neutral, sanitise_offset_neutral,
    sanitise_gain_neutral, sanitise_ratio_above, sanitise_ratio_below, sanitise_offset_above, sanitise_offset_below,
    sanitise_gain_above, sanitise_gain_below, sanitise_ratio_within, sanitise_offset_within, sanitise_gain_within,
    fun _ _ => rfl⟩

/-- Settles O43: each field named is one of the voice without its phases and filter states. -/
theorem modulationLeavesPitchAndEnvelopes : Obligations.ModulationLeavesPitchAndEnvelopes := by
  intro g p m m' w
  have same {α : Type} (f : Voice → α) :
      f (voiceSample g p m w).1.unmodulated = f (voiceSample g p m' w).1.unmodulated :=
    congrArg f (voiceSample_unmodulated g p m m' w)
  exact ⟨same Voice.pitch, same Voice.pitchTgt, same Voice.glideRem, same Voice.glideStep, same Voice.vel,
    same Voice.velTgt, same Voice.amp, same Voice.filt, same Voice.lifecycle, same Voice.isReleasing,
    same Voice.forceRecycle, same Voice.fading, same Voice.fadeRem, same Voice.fadeLen, same (·.osc1.pw),
    same (·.osc2.pw)⟩

end Sys2Proof.Machine
end

section
/-! PROOFS. The phases of a copy over one frame (44_oscillator.md R320, R323), and oscillator sync in the mix of a voice
(R336, 48_voice.md R452). -/

namespace Sys2Proof.Machine

/-! ### The phases of a copy (R320, R323) -/

/-- A copy whose waveform is not the wavetable adds its step to the fixed-point phase, and reports a cycle when the new
phase is below the old one. -/
theorem copyFrame_fixedPhase (fs f vel pw : F64) {q : OscParams} (h : waveformOf q.wave ≠ .wavetable) (c : Copy) :
    (copyFrame fs f vel pw q c).copy.ph = advance c.ph (phaseStep (phaseInc fs f)) ∧
    (copyFrame fs f vel pw q c).wrapped = decide (advance c.ph (phaseStep (phaseInc fs f)) < c.ph) := by
  rcases copyFrame_cases fs f vel pw q c with ⟨-, -, shape, e⟩ | ⟨-, e⟩ | ⟨hw, -⟩
  · rw [e]
    exact ⟨fixedFrame_ph .., fixedFrame_wrapped ..⟩
  · rw [e]
    exact ⟨fmFrame_ph .., fmFrame_wrapped ..⟩
  · exact absurd hw h

/-- Settles O51, by the representation of the waveform. -/
theorem onlyTheCurrentPhasesAdvance : Obligations.OnlyTheCurrentPhasesAdvance := by
  refine ⟨fun fs f vel pw q c => ?_, fun fs pitch pr vel q o u h =>
    oscFrame_held fs vel q pitch pr o u (Nat.not_lt.mpr h)⟩
  rcases copyFrame_cases fs f vel pw q c with ⟨hfm, hwt, shape, e⟩ | ⟨hfm, e⟩ | ⟨hwt, e⟩
  · rw [e]
    exact ⟨fun _ => ⟨fixedFrame_wt .., fixedFrame_fm ..⟩, fun h => absurd h hfm, fun h => absurd h hwt⟩
  · rw [e, hfm]
    exact ⟨by simp, fun _ => fmFrame_wt .., by simp⟩
  · rw [e, hwt]
    exact ⟨by simp, by simp, fun _ => ⟨wtFrame_ph .., wtFrame_fm ..⟩⟩

/-- Settles O52: the phase of such a copy is `advance` by the step, which wraps at most once. -/
theorem fixedPhaseWrapsOncePerCycle : Obligations.FixedPhaseWrapsOncePerCycle := by
  intro fs f vel pw q c h
  obtain ⟨hph, hwrapped⟩ := copyFrame_fixedPhase fs f vel pw h c
  refine ⟨phaseStep_le _, ?_⟩
  rw [hph, hwrapped]
  simpa only [decide_eq_true_eq] using advance_toNat c.ph (phaseStep_le (phaseInc fs f))

/-! ### Oscillator sync (R336) -/

/-- The number 1 has one datum, so a register that reads as on holds it. -/
theorem isOn_iff (x : F64) : isOn x = true ↔ x = F64.one := by
  constructor
  · intro h
    have hk : F64.one.key = x.key := by
      simp only [isOn, F64.eq, Bool.and_eq_true, decide_eq_true_eq] at h
      exact h.2.symm
    exact (F64.eq_of_key_eq (by decide) hk).symm
  · rintro rfl
    decide

/-- The sync check clears the phases of R336 when copy 0 of oscillator 1 finished a cycle with sync on. -/
theorem oscTwoStart_eq (fs pr : F64) (p : Params) (w : Voice) :
    oscTwoStart fs p pr w =
      if p.sync = F64.one ∧ (copyFrames fs w.pitch pr w.vel p.osc1 w.osc1)[0].wrapped = true
      then w.osc2.synced else w.osc2 := by
  simp only [oscTwoStart, oscFrame, Bool.and_eq_true, isOn_iff]

/-- Settles O53: the start of oscillator 2 is that of the sync check, and the mix is `OscMix` from it. -/
theorem syncRestartsOscillatorTwo : Obligations.SyncRestartsOscillatorTwo := by
  intro fs pr p w _ master cleared start
  have hstart : oscTwoStart fs p pr w = start := oscTwoStart_eq fs pr p w
  clear_value start
  subst hstart
  exact ⟨oscMix_voice fs p pr w, fun h => oscMix_mixed fs p pr w (by rw [h]; decide),
    fun h => oscMix_direct fs p pr w (by rw [h]; decide)⟩

end Sys2Proof.Machine
end

section
/-! PROOFS. The unison copies in pairs (45_unison.md R374 to R377): copies `2j - 1` and `2j` differ in their sign alone. -/

namespace Sys2Proof.F64

/-- An infinity is no zero. -/
theorem isZero_of_isInf {x : F64} (h : x.isInf = true) : x.isZero = false := by
  rw [isInf, decide_eq_true_iff] at h
  rw [isZero, h]
  exact decide_eq_false (not_lt.mpr le_infMag)

@[simp] theorem isNaN_infOf (s : Bool) : (infOf s).isNaN = false := by
  rw [isNaN, magBits_infOf]
  exact decide_eq_false (lt_irrefl _)

/-- A finite factor that is no zero makes no NaN of a number, and no number of a NaN. -/
theorem isNaN_mul_of_isFinite {a : F64} (hf : a.isFinite = true) (hz : a.isZero = false) (x : F64) :
    (a.mul x).isNaN = x.isNaN := by
  have hi : a.isInf = false := by
    rw [isFinite_iff] at hf
    exact decide_eq_false hf.ne
  simp only [mul, isNaN_of_isFinite hf, hi, hz, Bool.false_or]
  cases hn : x.isNaN with
  | true => simp
  | false =>
    cases hx : x.isInf with
    | true => simp [isZero_of_isInf hx]
    | false => simp

/-- Where a product by one is a number, the product by minus one is its negation. -/
theorem neg_one_mul_of_one_mul {x : F64} (h : (one.mul x).isNaN = false) :
    (int (-1)).mul x = (one.mul x).negate := by
  have hx : x.isNaN = false := by rwa [isNaN_mul_of_isFinite (by decide) (by decide)] at h
  exact mul_neg_one (by rw [isNaN_mul_of_isFinite (by decide) (by decide), hx])

end Sys2Proof.F64

namespace Sys2Proof.Machine

/-- The copy of pair `j` of `n` copies on the side of the sign `sg` (45_unison.md R374, R375). -/
def sideCopy (q : OscParams) (n j : Nat) (sg : F64) : UnisonCopy :=
  let r := (F64.nat j).div (F64.nat (n / 2))
  pannedCopy (sg.mul ((r.mul (percent q.uniDetune)).mul (F64.lit Config.uniMaxCents)))
    ((spreadWeight q n).mul (powerComp q n)) (sg.mul (r.mul (percent q.uniWidth)))

section Pairs

variable (q : OscParams) {n j : Nat}

theorem unison_spread (hn : 3 ≤ n) (u : Nat) : unison q n u = unisonSpread q n u := by
  rw [unison, if_neg (by omega), if_neg (by omega)]

theorem unison_centre_cents (hn : 3 ≤ n) : (unison q n 0).cents = F64.zero := by
  rw [unison_spread q hn]
  rfl

/-- The first copy of a pair is on the positive side. -/
theorem unison_odd (hn : 3 ≤ n) (hj : 1 ≤ j) : unison q n (2 * j - 1) = sideCopy q n j F64.one := by
  have hlvl : (2 * j - 1 + 1) / 2 = j := by omega
  rw [unison_spread q hn, unisonSpread, if_neg (by omega), if_pos (by omega), hlvl]
  rfl

/-- The second copy of a pair is on the negative side. -/
theorem unison_even (hn : 3 ≤ n) (hj : 1 ≤ j) : unison q n (2 * j) = sideCopy q n j (F64.int (-1)) := by
  have hlvl : (2 * j + 1) / 2 = j := by omega
  rw [unison_spread q hn, unisonSpread, if_neg (by omega), if_neg (by omega), hlvl]
  rfl

end Pairs

/-- Settles O54: the two copies of a pair are one side copy under the signs 1 and -1, and the product by -1 is the negated
product by 1. -/
theorem unisonDetunesInOppositePairs : Obligations.UnisonDetunesInOppositePairs := by
  intro q
  refine ⟨rfl, fun n hn => ⟨unison_centre_cents q hn, fun j hj _ _ hodd => ?_⟩, ?_⟩
  · rw [unison_odd q hn hj] at hodd ⊢
    rw [unison_even q hn hj]
    exact F64.neg_one_mul_of_one_mul hodd
  · intro n j hn hj _ bl wc ws weight pan angle hpan
    have hneg := F64.neg_one_mul_of_one_mul hpan
    rw [unison_odd q hn hj, unison_even q hn hj]
    exact ⟨rfl, rfl, congrArg (fun x => weight.mul (angle x).cos) hneg,
      congrArg (fun x => weight.mul (angle x).sin) hneg⟩

end Sys2Proof.Machine
end

section
/-! PROOFS. The envelope generator (46_envelope.md): the segment step phase by phase (R403 to R407), and the countdown of
the crossfade floor (R408, R409). -/

namespace Sys2Proof.Machine

/-! ### The segment step of each phase (R403 to R407) -/

/-- The target of Release is the negated ratio of R406. -/
theorem negate_envRatioDR : (F64.lit Config.envRatioDR).negate = F64.lit ⟨-1, 10000⟩ := by decide +kernel

section Segments

variable (fs velT : F64) (relMul : Nat) (q : EnvParams) {e : Env}

/-- The part of an envelope that its segment is about. -/
def Env.segment (e : Env) : EnvPhase × F64 := (e.phase, e.level)

@[simp] theorem Env.segment_mk (ph : EnvPhase) (level floor : F64) (rem : Nat) (fstep : F64) :
    Env.segment ⟨ph, level, floor, rem, fstep⟩ = (ph, level) := rfl

/-- The floor step is no part of the segment: an envelope step takes its phase and level from the segment step. -/
theorem envStep_segment (e : Env) : (envStep fs velT relMul q e).segment = (segmentStep fs velT relMul q e).segment := by
  rw [Env.segment, envStep, floorStep_phase, floorStep_level, Env.segment]

/-- A step of Attack ends at 1 into Decay (R403). -/
theorem segmentStep_attack (h : e.phase = .attack) :
    (segmentStep fs velT relMul q e).segment =
      let r := F64.lit Config.envRatioA
      let level := approach (F64.one.add r) e.level (coef (attackLen fs velT q) r)
      if F64.one.le level then (.decay, F64.one) else (.attack, level) := by
  simp only [segmentStep, h, attackStep, apply_ite Env.segment, Env.segment_mk]

/-- A step of Decay ends at the sustain level into Sustain (R404). -/
theorem segmentStep_decay (h : e.phase = .decay) :
    (segmentStep fs velT relMul q e).segment =
      let r := F64.lit Config.envRatioDR
      let level := approach ((sustainLevel q).sub r) e.level (coef (decayLen fs velT q) r)
      if level.le (sustainLevel q) then (.sustain, sustainLevel q) else (.decay, level) := by
  simp only [segmentStep, h, decayStep, apply_ite Env.segment, Env.segment_mk]

/-- A step of Sustain is at the sustain level of the current registers (R405). -/
theorem segmentStep_sustain (h : e.phase = .sustain) :
    (segmentStep fs velT relMul q e).segment = (.sustain, sustainLevel q) := by
  simp only [segmentStep, h, Env.segment_mk]

/-- A step of Release ends at 0 into Idle (R406). -/
theorem segmentStep_release (h : e.phase = .release) :
    (segmentStep fs velT relMul q e).segment =
      let level := approach (F64.lit Config.envRatioDR).negate e.level
        (coef (releaseLen fs velT relMul q) (F64.lit Config.envRatioDR))
      if level.le (F64.lit Config.envIdle) then (.idle, F64.zero) else (.release, level) := by
  simp only [segmentStep, h, releaseStep, apply_ite Env.segment, Env.segment_mk]

/-- Idle keeps the whole envelope (R407). -/
theorem segmentStep_idle (h : e.phase = .idle) : segmentStep fs velT relMul q e = e := by
  simp only [segmentStep, h]

end Segments

/-! ### The countdown of the floor (R408, R409) -/

@[simp] theorem floorStep_floorRem (e : Env) : (floorStep e).floorRem = e.floorRem - 1 := by
  unfold floorStep
  split
  · rfl
  · omega

/-- An envelope step takes one frame off the floor's count. -/
@[simp] theorem envStep_floorRem (fs velT : F64) (relMul : Nat) (q : EnvParams) (e : Env) :
    (envStep fs velT relMul q e).floorRem = e.floorRem - 1 := by
  rw [envStep, floorStep_floorRem, segmentStep_floorRem]

/-- A trigger with a positive capture counts its floor down over `nX` frames (R409). -/
theorem envTrigger_floorRem {cap : F64} (h : F64.zero.lt cap = true) (nX : Nat) : (envTrigger cap nX).floorRem = nX := by
  rw [envTrigger, if_pos h]

/-- An envelope over a list of frames, each with the rate, velocity, multiplier and registers that it reads. -/
def envSteps (steps : List (F64 × F64 × Nat × EnvParams)) (e : Env) : Env :=
  steps.foldl (fun e k => envStep k.1 k.2.1 k.2.2.1 k.2.2.2 e) e

theorem envSteps_floorRem (steps : List (F64 × F64 × Nat × EnvParams)) (e : Env) :
    (envSteps steps e).floorRem = e.floorRem - steps.length := by
  induction steps generalizing e with
  | nil => rfl
  | cons k ks ih =>
    calc (envSteps ks (envStep k.1 k.2.1 k.2.2.1 k.2.2.2 e)).floorRem
      _ = e.floorRem - 1 - ks.length := by rw [ih, envStep_floorRem]
      _ = e.floorRem - (ks.length + 1) := by omega

theorem envSteps_inv (steps : List (F64 × F64 × Nat × EnvParams)) {e : Env} (h : EnvInv e) :
    EnvInv (envSteps steps e) := by
  induction steps generalizing e with
  | nil => exact h
  | cons k ks ih => exact ih (envStep_inv _ _ _ _ h)

/-! ### The obligations -/

/-- Settles O47, by the segment step of each phase. -/
theorem envelopeSegmentsEndInOrder : Obligations.EnvelopeSegmentsEndInOrder := by
  intro fs velT relMul q e
  have hseg := envStep_segment fs velT relMul q e
  refine ⟨envStep_phase fs velT relMul q e, fun h => ?attack, fun h => ?decay, fun h => ?sustain, fun h => ?release,
    fun h => ?idle⟩
  case attack => exact hseg.trans (segmentStep_attack fs velT relMul q h)
  case decay => exact hseg.trans (segmentStep_decay fs velT relMul q h)
  case sustain => exact hseg.trans (segmentStep_sustain fs velT relMul q h)
  case release =>
    rw [segmentStep_release fs velT relMul q h, negate_envRatioDR] at hseg
    exact hseg
  case idle =>
    rw [segmentStep_idle fs velT relMul q h, Env.segment, Env.segment, h] at hseg
    exact hseg

/-- Settles O48: the count after the frames is `nX` less their number, and a floor whose count is 0 is exactly 0. -/
theorem floorEndsAtExactlyZero : Obligations.FloorEndsAtExactlyZero := by
  intro cap nX steps hnX hcap
  have hrem : (envSteps steps (envTrigger cap nX)).floorRem = nX - steps.length := by
    rw [envSteps_floorRem, envTrigger_floorRem hcap]
  exact ⟨hrem, fun hlen => envSteps_inv steps (envTrigger_inv cap hnX) (by omega)⟩

end Sys2Proof.Machine
end

section
/-! PROOFS. The states of the filter (47_filter.md): what a tick leaves in them (R438, R441), and that a filter switched
off holds them (R440). -/

namespace Sys2Proof.F64

variable {x y : F64}

protected theorem le_of_lt_eq_false (hx : x.isNaN = false) (hy : y.isNaN = false) (h : x.lt y = false) :
    y.le x = true := by
  rw [← Bool.not_eq_true, lt_iff hx hy] at h
  rw [le_iff hy hx]
  omega

theorem isFinite_abs (h : x.isFinite = true) : x.abs.isFinite = true := by
  unfold abs
  split
  · exact isFinite_zero
  · rw [isFinite_iff, magBits_ofMag false x.magBits_lt]
    exact (isFinite_iff x).mp h

end Sys2Proof.F64

namespace Sys2Proof.Machine

/-! ### What a tick leaves in the states (R438, R441) -/

/-- A filter state as sanitising leaves it: `+0.0`, or of a magnitude at or above the flush threshold. -/
def NotTiny (x : F64) : Prop := x = F64.zero ∨ (F64.lit Config.denormT).le x.abs = true

/-- A finite state that the flush keeps has a magnitude, so not being below the threshold it is at or above it. -/
theorem flushState_notTiny {x : F64} (h : x.isFinite = true) : NotTiny (flushState x) := by
  unfold flushState
  split
  case isTrue => exact .inl rfl
  case isFalse hlt =>
    have hx : x.abs.isNaN = false := F64.isNaN_of_isFinite (F64.isFinite_abs h)
    exact .inr (F64.le_of_lt_eq_false hx (F64.isNaN_round ..) (Bool.eq_false_iff.mpr hlt))

/-- Sanitising flushes two finite states, and clears both where one is not finite (R438). -/
theorem sanitise_notTiny (c : Svf) : NotTiny c.sanitise.ic1 ∧ NotTiny c.sanitise.ic2 := by
  unfold Svf.sanitise
  split
  case isTrue h =>
    obtain ⟨h1, h2⟩ := Bool.and_eq_true_iff.mp h
    exact ⟨flushState_notTiny h1, flushState_notTiny h2⟩
  case isFalse => exact ⟨.inl rfl, .inl rfl⟩

/-! ### A filter switched off (R440) -/

theorem filterStage_off {p : Params} (h : isOff p.filterEnable = true) (fs fEff co : F64) (l r : Svf) (x : Frame) :
    filterStage fs p fEff co l r x = (l, r, x) := if_pos h

section Held

variable (g : Global) {p : Params} (m : ModFrame) (w : Voice)

/-- The end of a frame touches no filter, even where it frees the voice (48_voice.md R458, R472). -/
theorem endOfFrame_filters : w.endOfFrame.svfL = w.svfL ∧ w.endOfFrame.svfR = w.svfR := by
  rcases endOfFrame_cases w with h | ⟨-, -, h⟩ | ⟨-, -, -, h⟩ <;> rw [h] <;> exact ⟨rfl, rfl⟩

/-- With the filter off, the stages before it leave the states alone and so does the filter stage. -/
theorem frameBody_filters_off (h : isOff p.filterEnable = true) :
    (frameBody g p m w).svfL = w.svfL ∧ (frameBody g p m w).svfR = w.svfR := by
  simp only [frameBody, filterStage_off h, oscMix_svfL, oscMix_svfR]
  exact ⟨glideFrame_svfL w, glideFrame_svfR w⟩

theorem voiceSample_filters_off (h : isOff p.filterEnable = true) :
    (voiceSample g p m w).1.svfL = w.svfL ∧ (voiceSample g p m w).1.svfR = w.svfR := by
  cases hs : w.sounding with
  | false =>
    rw [voiceSample_free hs]
    exact ⟨rfl, rfl⟩
  | true =>
    obtain ⟨endL, endR⟩ := endOfFrame_filters (frameBody g p m w)
    obtain ⟨bodyL, bodyR⟩ := frameBody_filters_off g m w h
    rw [voiceSample_sounding hs]
    exact ⟨endL.trans bodyL, endR.trans bodyR⟩

end Held

/-! ### The obligations -/

/-- Settles O45: the states of a tick are sanitised ones. -/
theorem filterStatesStayFinite : Obligations.FilterStatesStayFinite := by
  intro k ty x c d
  obtain ⟨finite1, finite2⟩ : SvfInv d := svfTick_finite k ty c x
  obtain ⟨notTiny1, notTiny2⟩ : NotTiny d.ic1 ∧ NotTiny d.ic2 := sanitise_notTiny _
  exact ⟨finite1, finite2, notTiny1, notTiny2⟩

/-- Settles O46: the stage is passed by, and the states hold over a frame of a FREE voice and of a sounding one. -/
theorem disabledFilterPassesAndHolds : Obligations.DisabledFilterPassesAndHolds := by
  intro g p m w x fEff hp
  have hoff : isOff p.filterEnable = true := by rw [hp]; decide
  exact ⟨filterStage_off hoff .., voiceSample_filters_off g m w hoff⟩

end Sys2Proof.Machine
end

section
/-! PROOFS. The operations of the allocator on one voice (48_voice.md R461, R470, R471), the sample of a frame (R456), and
the two countdowns of a voice: its glide (R460) and its hard-cap fade (R458). -/

namespace Sys2Proof.Machine

variable {w : Voice}

/-! ### Trigger and release (R470, R471) -/

theorem envTrigger_of_pos {cap : F64} (h : F64.zero.lt cap = true) (nX : Nat) :
    envTrigger cap nX = ⟨.attack, F64.zero, cap, nX, cap.div (F64.nat nX)⟩ := if_pos h

theorem envTrigger_of_not_pos {cap : F64} (h : F64.zero.lt cap = false) (nX : Nat) :
    envTrigger cap nX = ⟨.attack, F64.zero, F64.zero, 0, F64.zero⟩ := if_neg (by rw [h]; decide)

/-- What a trigger sets on every voice, with the levels captured and the frames of the crossfade (R470). -/
def Voice.renewed (note vel : Nat) (capA capF : F64) (nX : Nat) (w : Voice) : Voice :=
  { w with
    note := note, velRaw := vel, velT := (F64.nat vel).div (F64.int 127), velTgt := (F64.nat vel).div (F64.int 127)
    amp := envTrigger capA nX, filt := envTrigger capF nX
    isReleasing := false, forceRecycle := false, fading := false, fadeRem := 0, fadeLen := 0 }

section Trigger

variable (fs : F64) (p : Params) (note vel : Nat) (xS : F64)

theorem trigger_of_free (h : w.sounding = false) :
    w.trigger fs p note vel xS =
      (w.freshStart p ((F64.nat vel).div (F64.int 127))).renewed note vel F64.zero F64.zero (nS fs xS) := by
  simp only [Voice.trigger, h]
  rfl

theorem trigger_of_sounding (h : w.sounding = true) :
    w.trigger fs p note vel xS = w.renewed note vel (w.amp.eff.mul w.fadeGain) w.filt.eff (nS fs xS) := by
  simp only [Voice.trigger, h]
  rfl

theorem lifecycle_trigger : (w.trigger fs p note vel xS).lifecycle = .active := by
  refine lifecycle_of_held ⟨?_, ?_, rfl, rfl, rfl⟩ <;> simp [Voice.trigger]

end Trigger

theorem release_of_free (h : w.sounding = false) : w.release = w := if_neg (by rw [h]; decide)

theorem release_of_sounding (h : w.sounding = true) :
    w.release = { w with amp := envRelease w.amp, filt := envRelease w.filt, isReleasing := true } := if_pos h

theorem envRelease_of_not_idle {e : Env} (h : e.phase ≠ .idle) :
    envRelease e = ⟨.release, e.level.max e.floor, F64.zero, 0, F64.zero⟩ := if_neg h

/-! ### The sample of a frame (R456) -/

theorem isFinite_silenceBad (x : F64) : (silenceBad x).isFinite = true := by
  unfold silenceBad
  split
  · assumption
  · exact F64.isFinite_zero

/-! ### The glide (R460, R461) -/

section Glide

variable (fs : F64) (p : Params) (target : F64)

/-- A gliding SetPitch leaves the pitch and aims at the target. -/
theorem setPitch_of_glide (h : F64.zero.lt p.glide = true) (w : Voice) :
    w.setPitch fs p target true =
      { w with pitchTgt := target, glideRem := nSms fs p.glide,
               glideStep := (target.sub w.pitch).div (F64.nat (nSms fs p.glide)) } := by
  simp only [Voice.setPitch, h]
  rfl

/-- Any other SetPitch jumps. -/
theorem setPitch_of_jump {mayGlide : Bool} (h : (mayGlide && F64.zero.lt p.glide) = false) (w : Voice) :
    w.setPitch fs p target mayGlide =
      { w with pitch := target, pitchTgt := target, glideRem := 0, glideStep := F64.zero } :=
  if_neg (by rw [h]; decide)

@[simp] theorem glideFrame_glideRem : w.glideFrame.glideRem = w.glideRem - 1 := by
  unfold Voice.glideFrame
  split
  · rfl
  · omega

theorem iterate_glideFrame_glideRem (n : Nat) (w : Voice) : (Voice.glideFrame^[n] w).glideRem = w.glideRem - n := by
  induction n with
  | zero => rfl
  | succ n ih => rw [Function.iterate_succ_apply', glideFrame_glideRem, ih, Nat.sub_sub]

/-- A voice heads for a target: it is there once no frame of its glide remains. -/
def HeadsFor (target : F64) (w : Voice) : Prop := w.pitchTgt = target ∧ (w.glideRem = 0 → w.pitch = target)

variable {fs p target}

/-- The last frame of a glide sets the pitch to the target itself (R460). -/
theorem HeadsFor.glideFrame (h : HeadsFor target w) : HeadsFor target w.glideFrame := by
  obtain ⟨htgt, hpitch⟩ := h
  refine ⟨(glideFrame_pitchTgt w).trans htgt, fun hrem => ?_⟩
  rw [glideFrame_glideRem] at hrem
  unfold Voice.glideFrame
  split
  · exact (if_pos (by omega)).trans htgt
  · exact hpitch (by omega)

theorem HeadsFor.iterate (h : HeadsFor target w) (n : Nat) : HeadsFor target (Voice.glideFrame^[n] w) := by
  induction n with
  | zero => exact h
  | succ n ih => rw [Function.iterate_succ_apply']; exact ih.glideFrame

/-- A glide has at least one frame to go. -/
theorem headsFor_setPitch_of_glide (h : F64.zero.lt p.glide = true) (w : Voice) :
    HeadsFor target (w.setPitch fs p target true) := by
  rw [setPitch_of_glide fs p target h]
  exact ⟨rfl, fun hrem => absurd hrem (Nat.one_le_iff_ne_zero.mp (nSms_pos _ _))⟩

end Glide

/-! ### The hard-cap fade (R458) -/

/-- A voice that a fade takes away: it is FREE, or it fades with `k` frames to go, which is never 0. -/
def FadesAway (k : Nat) (w : Voice) : Prop :=
  w.sounding = false ∨ (w.sounding = true ∧ w.fading = true ∧ w.fadeRem = k ∧ k ≠ 0)

theorem FadesAway.voiceSample {k : Nat} (h : FadesAway k w) (g : Global) (p : Params) (m : ModFrame) :
    FadesAway (k - 1) (voiceSample g p m w).1 := by
  rcases h with hfree | ⟨hs, hf, rfl, -⟩
  · exact .inl (by rw [voiceSample_free hfree]; exact hfree)
  · rcases voiceSample_fading hs hf g p m with hfree | ⟨hs', hf', hne, hrem, -⟩
    · exact .inl hfree
    · exact .inr ⟨hs', hf', hrem, hne⟩

/-- The count of a fade falls by one a frame, whatever the modulation. -/
theorem FadesAway.voiceAfter {k : Nat} (h : FadesAway k w) (g : Global) (p : Params) (ms : List ModFrame) :
    FadesAway (k - ms.length) (voiceAfter g p ms w) := by
  induction ms generalizing k w with
  | nil => exact h
  | cons m ms ih =>
    rw [List.length_cons, Nat.add_comm, ← Nat.sub_sub]
    exact ih (h.voiceSample g p m)

theorem fadesAway_fadeStart (h : w.sounding = true) (fs : F64) :
    FadesAway (nS fs (F64.lit Config.fadeCapS)) (w.fadeStart fs) :=
  .inr ⟨h, rfl, rfl, Nat.one_le_iff_ne_zero.mp (nS_pos _ _)⟩

/-! ### The obligations -/

/-- Settles O24: from free a trigger renews a fresh voice with nothing captured, from sounding the voice as it stands. -/
theorem triggerStartsANote : Obligations.TriggerStartsANote := by
  intro fs p note vel xS w t capA capF fresh
  have kept : t.pitch = w.pitch ∧ t.pitchTgt = w.pitchTgt ∧ t.glideRem = w.glideRem ∧ t.glideStep = w.glideStep := by
    cases hs : w.sounding with
    | false => rw [show t = _ from trigger_of_free fs p note vel xS hs]; exact ⟨rfl, rfl, rfl, rfl⟩
    | true => rw [show t = _ from trigger_of_sounding fs p note vel xS hs]; exact ⟨rfl, rfl, rfl, rfl⟩
  obtain ⟨hpitch, htgt, hrem, hstep⟩ := kept
  refine ⟨rfl, rfl, rfl, rfl, lifecycle_trigger fs p note vel xS, rfl, rfl, rfl, hpitch, htgt, hrem, hstep,
    fun hs => ?free, fun hs => ?sounding⟩
  case free =>
    have cleared (u : Fin 8) : (Vector.replicate 8 Copy.reset)[u] = ⟨0, F64.zero, 0⟩ := by simp [Copy.reset]
    have silent : envTrigger F64.zero (nS fs xS) = fresh := envTrigger_of_not_pos (by decide) _
    rw [show t = _ from trigger_of_free fs p note vel xS hs]
    exact ⟨rfl, fun u => ⟨cleared u, cleared u⟩, rfl, rfl, rfl, rfl, rfl, silent, silent⟩
  case sounding =>
    rw [show t = _ from trigger_of_sounding fs p note vel xS hs]
    exact ⟨rfl, rfl, rfl, rfl, rfl, rfl, fun h => envTrigger_of_pos h _, fun h => envTrigger_of_not_pos h _,
      fun h => envTrigger_of_pos h _, fun h => envTrigger_of_not_pos h _⟩

/-- Settles O25: the amplitude envelope of a sounding voice is not Idle, and each envelope is released by itself. -/
theorem releaseStartsFromTheEffectiveLevel : Obligations.ReleaseStartsFromTheEffectiveLevel := by
  refine fun w => ⟨release_of_free, fun hs => ⟨_, _, release_of_sounding hs, ?_, rfl⟩⟩
  exact envRelease_of_not_idle ((sounding_iff w).mp hs)

/-- Settles O44: a FREE voice gives zeros, and a sounding one a sanitised frame. -/
theorem voiceSampleIsFinite : Obligations.VoiceSampleIsFinite := by
  intro g p m w
  unfold voiceSample
  split
  · exact ⟨isFinite_silenceBad _, isFinite_silenceBad _⟩
  · exact ⟨F64.isFinite_zero, F64.isFinite_zero⟩

/-- Settles O49: the count after `n` frames, and a voice that heads for its target is there when the count is 0. -/
theorem glideLandsOnItsTarget : Obligations.GlideLandsOnItsTarget := by
  intro fs p target w
  have jump (mayGlide : Bool) (h : (mayGlide && F64.zero.lt p.glide) = false) := setPitch_of_jump fs p target h w
  refine ⟨fun hg n => ?_, by rw [jump false rfl], by rw [jump false rfl], fun hg => by rw [jump true hg]⟩
  have hrem : (Voice.glideFrame^[n] (w.setPitch fs p target true)).glideRem = nSms fs p.glide - n := by
    rw [iterate_glideFrame_glideRem, setPitch_of_glide fs p target hg]
  exact ⟨hrem, fun hn => ((headsFor_setPitch_of_glide hg w).iterate n).2 (by omega)⟩

/-- Settles O50: the voice fades away from the fade's length down, and a count of 0 leaves only FREE. -/
theorem fadedVoiceIsFreedInTime : Obligations.FadedVoiceIsFreedInTime := by
  intro g p ms w hr w'
  have hs : w.sounding = true := (Bool.and_eq_true_iff.mp hr).1
  have away : FadesAway (nS g.fs (F64.lit ⟨1, 1000⟩) - ms.length) w' := (fadesAway_fadeStart hs g.fs).voiceAfter g p ms
  rcases away with hfree | ⟨hs', hf', hrem, hne⟩
  · have free := lifecycle_free_iff.mpr hfree
    exact ⟨fun _ => free, .inr free, fun hfad => absurd (free.symm.trans hfad) (by decide)⟩
  · exact ⟨fun hlen => absurd (Nat.sub_eq_zero_of_le hlen) hne, .inl (lifecycle_of_fading hs' hf'), fun _ => hrem⟩

end Sys2Proof.Machine
end

section
/-! PROOFS. The note commands and the voice modes (41_note_commands.md, 49_voice_pool.md R490 to R516): which slot a POLY
note takes, what a NOTE_OFF lets go, what the note stack keeps, and that held notes keep their voices. -/

namespace Sys2Proof.F64

theorem eq_parts {a b : F64} (h : a.eq b = true) : a.isNaN = false ∧ b.isNaN = false ∧ a.key = b.key := by
  simpa [eq, and_assoc] using h

theorem eq_iff {a b : F64} (ha : a.isNaN = false) (hb : b.isNaN = false) : a.eq b = true ↔ a.key = b.key := by
  simp [eq, ha, hb]

end Sys2Proof.F64

namespace Sys2Proof.Machine

variable {s t : State} {note vel : Nat}

/-! ### The allocator by what it finds (R491, R492) -/

/-- The first element of an ascending list that meets a test is the lowest one that does. -/
theorem find?_eq_of_lowest {is : List Slot} {test : Slot → Bool} {i : Slot} (hs : is.Pairwise (· < ·)) (hi : i ∈ is)
    (ht : test i = true) (hlow : ∀ j : Slot, j < i → test j = false) : is.find? test = some i := by
  obtain ⟨before, after, rfl⟩ := List.append_of_mem hi
  refine List.find?_eq_some_iff_append.mpr ⟨ht, before, after, rfl, fun j hj => ?_⟩
  rw [hlow j ((List.pairwise_append.mp hs).2.2 j hj i List.mem_cons_self)]
  rfl

theorem allocatePool_of_free {v : Vector Voice 33} {i : Slot} (hi : i ∈ poolSlots) (hfree : v[i].sounding = false)
    (hlow : ∀ j : Slot, j < i → v[j].sounding = true) : allocatePool v = (i, .free) := by
  have found : poolSlots.find? (fun i => !v[i].sounding) = some i :=
    find?_eq_of_lowest poolSlots_sorted hi (by rw [hfree]; rfl) fun j hj => by rw [hlow j hj]; rfl
  rw [allocatePool, found]

theorem find?_free_eq_none {v : Vector Voice 33} (h : ∀ j ∈ poolSlots, v[j].sounding = true) :
    poolSlots.find? (fun i => !v[i].sounding) = none :=
  List.find?_eq_none.mpr fun j hj => by rw [h j hj]; decide

theorem allocatePool_of_recycle {v : Vector Voice 33} {i : Slot} (hall : ∀ j ∈ poolSlots, v[j].sounding = true)
    (hi : i ∈ poolSlots) (hmark : v[i].forceRecycle = true) (hlow : ∀ j : Slot, j < i → v[j].forceRecycle = false) :
    allocatePool v = (i, .recycle) := by
  rw [allocatePool, find?_free_eq_none hall, find?_eq_of_lowest poolSlots_sorted hi hmark hlow]

theorem busy_iff (w : Voice) : w.busy = true ↔ w.sounding = true ∧ w.forceRecycle = false := by
  rw [Voice.busy, Bool.and_eq_true, Bool.not_eq_true']

theorem allocatePool_of_busy {v : Vector Voice 33} (h : ∀ j ∈ poolSlots, v[j].busy = true) :
    allocatePool v = (stealCandidate v, .steal) := by
  have unmarked : poolSlots.find? (fun i => v[i].forceRecycle) = none :=
    List.find?_eq_none.mpr fun j hj => by rw [((busy_iff _).mp (h j hj)).2]; decide
  rw [allocatePool, find?_free_eq_none fun j hj => ((busy_iff _).mp (h j hj)).1, unmarked]

/-- The quietest voice by the statement's order is the one that `quietest` answers for the voices compared. -/
theorem quietest_of_isQuietest {v : Vector Voice 33} {P : Voice → Prop} {i : Slot} (h : IsQuietest v P i)
    {is : List Slot} (hs : is.Pairwise (· < ·)) (his : ∀ j, j ∈ is ↔ j ∈ poolSlots ∧ P v[j]) :
    quietest v is = some i := by
  obtain ⟨hi, hP, hmin⟩ := h
  have compared : ∀ j ∈ is, v[i].effA.lt v[j].effA = true ∨ (v[i].effA.eq v[j].effA = true ∧ i ≤ j) := fun j hj =>
    hmin j ((his j).mp hj).1 ((his j).mp hj).2
  refine quietest_eq v is hs (fun j hj => ?_) i ((his i).mpr ⟨hi, hP⟩) fun j hj => ?_
  · rcases compared j hj with h | ⟨h, -⟩
    · exact (F64.lt_parts h).2.1
    · exact (F64.eq_parts h).2.1
  · rcases compared j hj with h | ⟨h, hij⟩
    · exact .inl (F64.lt_parts h).2.2
    · exact .inr ⟨(F64.eq_parts h).2.2, hij⟩

theorem stealCandidate_of_releasing {v : Vector Voice 33} {i : Slot}
    (h : IsQuietest v (fun w => w.releasing = true) i) : stealCandidate v = i := by
  rw [stealCandidate, quietest_of_isQuietest h (poolSlots_sorted.filter _) fun j => List.mem_filter]

theorem stealCandidate_of_held {v : Vector Voice 33} {i : Slot} (hheld : ∀ j ∈ poolSlots, v[j].releasing = false)
    (h : IsQuietest v (fun _ => True) i) : stealCandidate v = i := by
  have none_releasing : poolSlots.filter (fun i => v[i].releasing) = [] :=
    List.filter_eq_nil_iff.mpr fun j hj => by rw [hheld j hj]; decide
  rw [stealCandidate, none_releasing, quietest_of_isQuietest h poolSlots_sorted fun j => (and_iff_left trivial).symm]
  rfl

/-! ### NOTE_ON and NOTE_OFF by the voice mode (41_note_commands.md R220, R222) -/

theorem execNoteOn_of_configured (hc : s.g.configured = true) (hv : vel ≠ 0) :
    execNoteOn note vel s = .next (s.noteOn note vel) :=
  (if_neg hv).trans (if_neg (by rw [hc]; decide))

/-- A POLY note is started on the allocator's slot. -/
theorem exec_noteOn_poly (hc : s.g.configured = true) (hm : s.g.voiceMode = .poly) (hv : vel ≠ 0) :
    exec (.noteOn note vel) s = .next (s.setVoice (allocatePool s.v).1
      ((s.voice (allocatePool s.v).1).started s note vel Config.xfStealS false)) := by
  rw [exec, execNoteOn_of_configured hc hv, State.noteOn, hm, polyNoteOn_eq]

theorem noteOff_of_mono (hm : s.g.voiceMode = .mono ∨ s.g.voiceMode = .legato) : s.noteOff note = s.monoNoteOff note := by
  rcases hm with h | h <;> rw [State.noteOff, h]

/-- A voice that sounds as another did leaves the active count as it was. -/
theorem activeCount_setVoice (i : Slot) {w : Voice} (h : w.sounding = (s.voice i).sounding) :
    activeCount (s.setVoice i w).v = activeCount s.v := by
  refine List.countP_congr fun j _ => ?_
  by_cases hij : i = j
  · subst hij
    rw [← State.voice_eq, voice_setVoice_same, h, State.voice_eq]
  · rw [← State.voice_eq, voice_setVoice_ne s hij, State.voice_eq]

theorem started_sounding (w : Voice) (s : State) (note vel : Nat) (xS : Decimal) (b : Bool) :
    (w.started s note vel xS b).sounding = true := (sounding_iff _).mpr (held_started w s note vel xS b).1.idle

/-! ### The voice modes (R516) -/

theorem VoiceMode.ofCode_code (m : VoiceMode) : VoiceMode.ofCode m.code = some m := by cases m <;> rfl

theorem execSetVoiceMode_code (m : VoiceMode) (s : State) :
    execSetVoiceMode m.code s = .next (s.switchVoiceMode m) := by
  rw [execSetVoiceMode, VoiceMode.ofCode_code]

/-! ### The note stack (R510) -/

theorem stackPush_of_room {st : List Nat} {n : Nat} (h : (st.erase n).length ≠ 16) :
    stackPush st n = st.erase n ++ [n] :=
  congrArg (· ++ [n]) (if_neg h)

theorem stackPush_of_full {st : List Nat} {n : Nat} (h : (st.erase n).length = 16) :
    stackPush st n = (st.erase n).tail ++ [n] :=
  congrArg (· ++ [n]) ((if_pos h).trans List.drop_one)

theorem stackTop_append (st : List Nat) (n : Nat) : stackTop (st ++ [n]) = some n := List.getLast?_concat

theorem stackTop_push (st : List Nat) (n : Nat) : stackTop (stackPush st n) = some n := stackTop_append _ _

/-- The last of a list whose value stands nowhere before is what an erasure takes. -/
theorem erase_concat {st : List Nat} {n : Nat} (h : n ∉ st) : (st ++ [n]).erase n = st := by
  rw [List.erase_append_right _ h, List.erase_cons_head, List.append_nil]

/-! ### MONO and LEGATO NOTE_OFF by the place of the note in the stack (R514) -/

theorem monoNoteOff_of_not_held (h : note ∉ s.g.stack) : s.monoNoteOff note = s := if_pos h

theorem monoNoteOff_of_below (hin : note ∈ s.g.stack) (htop : stackTop s.g.stack ≠ some note) :
    s.monoNoteOff note = s.setStack (s.g.stack.erase note) :=
  (if_neg (not_not_intro hin)).trans (if_pos htop)

theorem monoNoteOff_of_top {prev : Nat} (htop : stackTop s.g.stack = some note)
    (hprev : stackTop (s.g.stack.erase note) = some prev) :
    s.monoNoteOff note = (s.setStack (s.g.stack.erase note)).setVoice monoSlot
      (if s.g.voiceMode = .mono then (s.voice monoSlot).started s prev (s.voice monoSlot).velRaw Config.xfRetrigS true
       else (s.voice monoSlot).setPitch s.g.fs s.p (F64.nat prev) true) := by
  rcases monoNoteOff_cases s note with ⟨hnot, -⟩ | ⟨-, hne, -⟩ | ⟨-, prev', hprev', he⟩ | ⟨-, hlast, -⟩
  · exact absurd (stackTop_mem htop) hnot
  · exact absurd htop hne
  · rw [he, Option.some.inj (hprev'.symm.trans hprev)]
  · rw [hlast] at hprev
    cases hprev

theorem monoNoteOff_of_only (htop : stackTop s.g.stack = some note) (hlast : s.g.stack.erase note = []) :
    s.monoNoteOff note = (s.setStack (s.g.stack.erase note)).setVoice monoSlot (s.voice monoSlot).release := by
  rcases monoNoteOff_cases s note with ⟨hnot, -⟩ | ⟨-, hne, -⟩ | ⟨-, prev, hprev, -⟩ | ⟨-, -, he⟩
  · exact absurd (stackTop_mem htop) hnot
  · exact absurd htop hne
  · rw [hlast] at hprev
    cases hprev
  · exact he

/-! ### Held notes and the pool (R495) -/

/-- What a pool slot does for its note: it is held with it, or without a note it is FREE. -/
def SlotPlays : Option Nat → Voice → Prop
  | some note, w => Held w ∧ w.note = note
  | none, w => w.sounding = false

/-- The pool voices play the notes in order, slot `k` the `k`-th. -/
def PoolPlays (notes : List Nat) (s : State) : Prop := ∀ i ∈ poolSlots, SlotPlays notes[i.val]? (s.voice i)

theorem SlotPlays.voiceSample {w : Voice} : ∀ {o : Option Nat}, SlotPlays o w → ∀ (g : Global) (p : Params) (m : ModFrame),
    SlotPlays o (voiceSample g p m w).1
  | some _, ⟨hheld, hnote⟩, g, p, m => ⟨(hheld.voiceSample g p m).1, (hheld.voiceSample g p m).2.trans hnote⟩
  | none, hfree, g, p, m => by rw [voiceSample_free hfree]; exact hfree

theorem SlotPlays.not_releasing {w : Voice} : ∀ {o : Option Nat}, SlotPlays o w → w.releasing = false
  | some _, ⟨hheld, _⟩ => by rw [Voice.releasing, hheld.releasing, Bool.and_false]
  | none, hfree => by rw [Voice.releasing, show w.sounding = false from hfree, Bool.false_and]

/-- The hard cap fades none of them, and no frame ends one. -/
theorem PoolPlays.renderBlock {notes : List Nat} (h : PoolPlays notes s) (modin : Bool) (nf : Nat) :
    PoolPlays notes (s.renderBlock modin nf) := by
  have afterHousekeeping : ∀ i ∈ poolSlots, SlotPlays notes[i.val]? (s.housekeeping.voice i) := fun i hi => by
    rw [housekeeping_voice, if_neg]
    · exact h i hi
    · exact fun hcap => Bool.false_ne_true ((h i hi).not_releasing.symm.trans (hardCapSlots_mem hcap).2.1)
  intro i hi
  rw [renderBlock_voice]
  exact renderFrames_keeps (P := fun i w => i ∈ poolSlots → SlotPlays notes[i.val]? w)
    (fun _ m _ hw hi => (hw hi).voiceSample _ _ m) (blockMods s modin nf) s.housekeeping.v afterHousekeeping i hi

/-- The next note takes the slot behind the others: the slots before it sound, and it is FREE. -/
theorem PoolPlays.allocatePool {notes : List Nat} (h : PoolPlays notes s) (hlen : notes.length < 32) :
    allocatePool s.v = (⟨notes.length, by omega⟩, .free) := by
  refine allocatePool_of_free ((mem_poolSlots _).mpr hlen) ?_ fun j hj => ?_
  · have plays := h ⟨notes.length, by omega⟩ ((mem_poolSlots _).mpr hlen)
    rw [List.getElem?_eq_none le_rfl] at plays
    exact plays
  · have hj' : j.val < notes.length := hj
    have plays := h j ((mem_poolSlots _).mpr (by omega))
    rw [List.getElem?_eq_getElem hj'] at plays
    exact (sounding_iff _).mpr plays.1.idle

theorem PoolPlays.setVoice {notes : List Nat} (h : PoolPlays notes s) {i : Slot} (hi : i.val = notes.length) {w : Voice}
    (hw : Held w) : PoolPlays (notes ++ [w.note]) (s.setVoice i w) := by
  intro j hj
  by_cases hij : i = j
  · subst hij
    rw [voice_setVoice_same, List.getElem?_append_right hi.ge, hi, Nat.sub_self]
    exact ⟨hw, rfl⟩
  · have hne : j.val ≠ notes.length := fun e => hij (Fin.ext (hi.trans e.symm))
    have same : (notes ++ [w.note])[j.val]? = notes[j.val]? := by
      rcases Nat.lt_or_gt_of_ne hne with hlt | hgt
      · exact List.getElem?_append_left hlt
      · rw [List.getElem?_eq_none (by simp; omega), List.getElem?_eq_none hgt.le]
    rw [voice_setVoice_ne s hij, same]
    exact h j hj

/-- A configured block in POLY mode, whose pool plays the notes. -/
structure Playing (notes : List Nat) (s : State) : Prop where
  configured : s.g.configured = true
  poly : s.g.voiceMode = .poly
  pool : PoolPlays notes s

theorem Playing.render {notes : List Nat} (h : Playing notes s) {modin : Bool} {nf : Nat}
    (he : exec (.render modin nf) s = .next t) : Playing notes t := by
  rcases execRender_cases he with ⟨-, rfl⟩ | ⟨-, -, rfl⟩ | ⟨-, -, rfl⟩ | ⟨-, -, -, -, rfl⟩
  · exact ⟨h.configured, h.poly, h.pool⟩
  · exact ⟨h.configured, h.poly, h.pool⟩
  · exact h
  · obtain ⟨-, -, -, -, hg, -⟩ := renderBlock_frame s modin nf
    exact ⟨by rw [hg]; exact h.configured, by rw [hg]; exact h.poly, h.pool.renderBlock modin nf⟩

theorem Playing.noteOn {notes : List Nat} (h : Playing notes s) (hlen : notes.length < 32) (hv : vel ≠ 0)
    (he : exec (.noteOn note vel) s = .next t) : Playing (notes ++ [note]) t := by
  rw [exec_noteOn_poly h.configured h.poly hv, h.pool.allocatePool hlen] at he
  rw [next_inj he]
  obtain ⟨hheld, hnote⟩ := held_started (s.voice ⟨notes.length, by omega⟩) s note vel Config.xfStealS false
  refine ⟨h.configured, h.poly, ?_⟩
  have pool := h.pool.setVoice (i := ⟨notes.length, by omega⟩) rfl hheld
  rwa [hnote] at pool

/-- A list of commands runs through when its first command does, and the others from there. -/
theorem execAll_cons {i : Instr} {is : List Instr} (he : execAll (i :: is) s = .next t) :
    ∃ u, exec i s = .next u ∧ execAll is u = .next t := by
  rw [execAll] at he
  split at he
  · exact ⟨_, ‹_›, he⟩
  · cases he
  · cases he

/-- Command after command the pool plays the notes started so far. -/
theorem Playing.execAll {notes : List Nat} {is : List Instr} (h : Playing notes s) (hplay : ∀ i ∈ is, playsOn i = true)
    (hlen : notes.length + (notesStarted is).length ≤ 32) (he : execAll is s = .next t) :
    Playing (notes ++ notesStarted is) t := by
  induction is generalizing notes s with
  | nil => rw [next_inj he, notesStarted, List.filterMap_nil, List.append_nil]; exact h
  | cons i is ih =>
    have hrest : ∀ i ∈ is, playsOn i = true := fun j hj => hplay j (List.mem_cons_of_mem _ hj)
    have hi := hplay i List.mem_cons_self
    obtain ⟨u, hu, hnext⟩ := execAll_cons he
    cases i with
    | render modin nf => exact ih (h.render hu) hrest hlen hnext
    | noteOn note vel =>
      have started : notesStarted (.noteOn note vel :: is) = note :: notesStarted is := rfl
      rw [started, List.length_cons] at hlen
      have next := ih (h.noteOn (by omega) (of_decide_eq_true hi) hu) hrest
        (by rw [List.length_append, List.length_singleton]; omega) hnext
      rwa [List.append_assoc] at next
    | _ => cases hi

/-! ### The obligations -/

/-- Settles O18: a mode's code names it, and a switch to another mode releases slot by slot. -/
theorem voiceModeSwitchReleasesEveryVoice : Obligations.VoiceModeSwitchReleasesEveryVoice := by
  intro s m
  have switched : exec (.setVoiceMode m.code) s = .next (s.switchVoiceMode m) := execSetVoiceMode_code m s
  obtain ⟨hp, hs, hcmd, hpos, hmod, hmodPos, hout⟩ := switchVoiceMode_frame s m
  rcases switchVoiceMode_cases s m with ⟨hm, he⟩ | ⟨hm, he⟩
  · exact ⟨fun _ => by rw [switched, he], fun hne => absurd hm hne, rfl⟩
  · exact ⟨fun heq => absurd heq hm, fun _ => ⟨_, switched, by rw [he], fun i => by rw [he, switch_voice], hp, hs, hcmd,
      hpos, hmod, hmodPos, hout⟩, rfl⟩

/-- Settles O21: the note starts on the allocator's slot, which is FREE, or marked with no pool voice FREE, or busy like
every pool voice. -/
theorem everyPolyNoteSounds : Obligations.EveryPolyNoteSounds := by
  intro s note vel hc hm hv
  refine ⟨_, allocatePool_mem s.v, _, exec_noteOn_poly hc hm hv, rfl, ?_, ?_, ?_⟩
  · rw [voice_setVoice_same, lifecycle_started]
  · rw [voice_setVoice_same, (held_started ..).2]
  · rcases allocatePool_cases s.v with ⟨i, -, ha, hfree⟩ | ⟨hall, i, -, ha, hmark⟩ | ⟨hbusy, -⟩
    · rw [ha, State.voice_eq, busy_iff, hfree]
      exact ⟨fun h => (Bool.false_ne_true h).elim, fun h => (Bool.false_ne_true h.1).elim⟩
    · rw [ha, State.voice_eq, busy_iff, hmark]
      exact ⟨fun _ => hall, fun h => (Bool.false_ne_true h.2.symm).elim⟩
    · exact ⟨fun _ j hj => ((busy_iff _).mp (hbusy j hj)).1, fun _ => hbusy⟩

/-- Settles O22: the first FREE pool slot is the lowest one, and so is the first marked one when none is FREE. -/
theorem polyNoteTakesTheLowestIdleVoice : Obligations.PolyNoteTakesTheLowestIdleVoice := by
  intro s note vel i hc hm hv hi hidle
  have taken : (allocatePool s.v).1 = i := by
    rcases hidle with ⟨hfree, hlow⟩ | ⟨hall, hmark, hlow⟩
    · rw [allocatePool_of_free hi hfree hlow]
    · rw [allocatePool_of_recycle hall hi hmark hlow]
  rw [exec_noteOn_poly hc hm hv, taken]
  rfl

/-- Settles O23: the quietest voice is the steal candidate, and it sounds before and after. -/
theorem polyNoteStealsTheQuietestVoice : Obligations.PolyNoteStealsTheQuietestVoice := by
  intro s note vel i hc hm hv hbusy hquiet
  have candidate : stealCandidate s.v = i := hquiet.elim stealCandidate_of_releasing fun h => stealCandidate_of_held h.1 h.2
  have hi : i ∈ poolSlots := candidate ▸ stealCandidate_mem s.v
  have taken : (allocatePool s.v).1 = i := by rw [allocatePool_of_busy hbusy, candidate]
  have played := exec_noteOn_poly (note := note) hc hm hv
  rw [taken] at played
  refine ⟨_, played, rfl, activeCount_setVoice i ?_, ?_, ?_⟩
  · rw [started_sounding, ((busy_iff _).mp (hbusy i hi)).1]
  · rw [voice_setVoice_same, lifecycle_started]
  · rw [voice_setVoice_same, (held_started ..).2]

/-- Settles O26: in POLY mode NOTE_OFF is `State.polyNoteOff`, which changes the voices slot by slot. -/
theorem polyNoteOffReleasesEveryHeldVoice : Obligations.PolyNoteOffReleasesEveryHeldVoice := by
  intro s note hm
  have off : exec (.noteOff note) s = .next (s.polyNoteOff note) := by rw [exec, execNoteOff, State.noteOff, hm]
  refine ⟨_, off, fun i => ?_, polyNoteOff_g s note, polyNoteOff_p s note, polyNoteOff_s s note, polyNoteOff_cmd s note,
    polyNoteOff_cmdPos s note, polyNoteOff_modIn s note, polyNoteOff_modPos s note, polyNoteOff_out s note⟩
  rw [voice_polyNoteOff]
  simp only [mem_poolSlots]

/-- Settles O27: a new note is appended, behind the oldest of 16 dropped; a held one is erased first, which makes room. -/
theorem stackPushKeepsTheNewestNotes : Obligations.StackPushKeepsTheNewestNotes := by
  intro st n hnodup hlen
  refine ⟨stackPush_nodup hnodup n, stackPush_length hlen n, stackTop_push st n, fun hn hroom => ?room,
    fun hn hfull => ?full, fun a b hst => ?held⟩
  case room =>
    have herase := List.erase_of_not_mem hn
    rw [stackPush_of_room (by rw [herase]; omega), herase]
  case full =>
    have herase := List.erase_of_not_mem hn
    rw [stackPush_of_full (by rw [herase, hfull]), herase]
  case held =>
    subst hst
    have hn : n ∉ a := fun hmem => (List.nodup_append.mp hnodup).2.2 n hmem n List.mem_cons_self rfl
    have herase : (a ++ n :: b).erase n = a ++ b := by rw [List.erase_append_right _ hn, List.erase_cons_head]
    rw [List.length_append, List.length_cons] at hlen
    rw [stackPush_of_room (by rw [herase, List.length_append]; omega), herase]

/-- Settles O28: a MONO note changes the stack and voice 32, which is then held. -/
theorem monoNoteRetriggersTheMonoVoice : Obligations.MonoNoteRetriggersTheMonoVoice := by
  intro s note vel hc hm hv
  have on : exec (.noteOn note vel) s = .next (s.monoNoteOn note vel) := by
    rw [exec, execNoteOn_of_configured hc hv, State.noteOn, hm]
  refine ⟨_, on, monoNoteOn_eq s note vel, ?_⟩
  rw [monoNoteOn_eq, voice_setVoice_same, lifecycle_started]

/-- Settles O29: with a note held the new one is a SetPitch alone, which glides or jumps. -/
theorem legatoNoteOnlyMovesThePitch : Obligations.LegatoNoteOnlyMovesThePitch := by
  intro s note vel hc hm hv w pushed
  have on : exec (.noteOn note vel) s = .next (s.legatoNoteOn note vel) := by
    rw [exec, execNoteOn_of_configured hc hv, State.noteOn, hm]
  rw [legatoNoteOn_eq] at on
  refine ⟨fun hempty => ?_, fun hheld => ?_⟩
  · rw [on, if_pos hempty]
    rfl
  · rw [if_neg hheld] at on
    refine ⟨_, on, ?_⟩
    cases hg : F64.zero.lt s.p.glide with
    | true =>
      rw [setPitch_of_glide _ _ _ hg]
      exact ⟨rfl, fun _ => ⟨rfl, rfl, rfl⟩, fun h => (Bool.false_ne_true h.symm).elim⟩
    | false =>
      rw [setPitch_of_jump (mayGlide := true) _ _ _ hg]
      exact ⟨rfl, fun h => (Bool.false_ne_true h).elim, fun _ => ⟨rfl, rfl, rfl⟩⟩

/-- Settles O30: the shape of the stack tells which of the four the note is. -/
theorem monoNoteOffReturnsToThePreviousNote : Obligations.MonoNoteOffReturnsToThePreviousNote := by
  intro s note hm w popped
  have off : exec (.noteOff note) s = .next (s.monoNoteOff note) := by rw [exec, execNoteOff, noteOff_of_mono hm]
  rw [off]
  have pair (below : List Nat) (prev : Nat) : below ++ [prev, note] = (below ++ [prev]) ++ [note] := by simp
  refine ⟨fun hnot => by rw [monoNoteOff_of_not_held hnot], fun top below hst hin hne => ?below,
    fun prev below hst hnot => ?previous, fun hst => ?only⟩
  case below =>
    rw [monoNoteOff_of_below hin (by rw [hst, stackTop_append]; exact fun h => hne (Option.some.inj h).symm)]
    rfl
  case previous =>
    have htop : stackTop s.g.stack = some note := by rw [hst, pair, stackTop_append]
    have hprev : stackTop (s.g.stack.erase note) = some prev := by rw [hst, pair, erase_concat hnot, stackTop_append]
    rw [monoNoteOff_of_top htop hprev]
    rfl
  case only =>
    rw [monoNoteOff_of_only (by rw [hst]; rfl) (by rw [hst, List.erase_cons_head])]
    rfl

/-- Settles O31, by induction on the commands: a RENDER leaves the pool playing its notes, and a NOTE_ON adds one behind
them. -/
theorem heldNotesKeepTheirVoices : Obligations.HeldNotesKeepTheirVoices := by
  intro is s t hc hm hfree hplay hlen he i hi
  have start : Playing [] s := ⟨hc, hm, fun i hi => hfree i hi⟩
  have plays : SlotPlays (notesStarted is)[i.val]? (t.voice i) :=
    (start.execAll hplay (by rw [List.length_nil, Nat.zero_add]; exact hlen) he).pool i hi
  refine ⟨fun note hnote => ?_, fun hge => ?_⟩
  · rw [hnote] at plays
    obtain ⟨hheld, hnote'⟩ := plays
    exact ⟨(busy_iff _).mpr ⟨(sounding_iff _).mpr hheld.idle, hheld.recycle⟩, hnote'⟩
  · rw [List.getElem?_eq_none hge] at plays
    exact plays

end Sys2Proof.Machine
end

section
/-! PROOFS. The housekeeping of a block (49_voice_pool.md R500 to R503): which slots the hard cap fades, how many, and that
they are the quietest. -/

namespace Sys2Proof.Machine

variable {s : State} {v : Vector Voice 33} {a : Nat}

/-! ### The front of a list without repeats -/

section Take

variable {α : Type} {l : List α} {k : Nat}

theorem not_mem_take_of_mem_drop (h : l.Nodup) {x : α} (hx : x ∈ l.drop k) : x ∉ l.take k := fun htake =>
  List.disjoint_take_drop h le_rfl htake hx

/-- As many elements of a list without repeats stand in its front as the front is long. -/
theorem countP_mem_take [DecidableEq α] (h : l.Nodup) : l.countP (fun x => decide (x ∈ l.take k)) = min k l.length := by
  have front : (l.take k).countP (fun x => decide (x ∈ l.take k)) = (l.take k).length :=
    List.countP_eq_length.mpr fun x hx => decide_eq_true hx
  have back : (l.drop k).countP (fun x => decide (x ∈ l.take k)) = 0 :=
    List.countP_eq_zero.mpr fun x hx => by rw [decide_eq_false (not_mem_take_of_mem_drop h hx)]; decide
  calc l.countP (fun x => decide (x ∈ l.take k))
    _ = (l.take k ++ l.drop k).countP (fun x => decide (x ∈ l.take k)) := by rw [List.take_append_drop]
    _ = min k l.length := by rw [List.countP_append, front, back, Nat.add_zero, List.length_take]

end Take

/-! ### What the hard cap fades (R501) -/

/-- The pool voices that the hard cap may fade, by slot: releasing and not yet fading. -/
def fadeable (v : Vector Voice 33) : List Slot := poolSlots.filter (fun i => v[i].releasing && !v[i].fading)

theorem fadeable_sorted (v : Vector Voice 33) : (fadeable v).Pairwise (· < ·) := poolSlots_sorted.filter _

theorem not_fading_of_fadeable {i : Slot} (h : i ∈ fadeable v) : v[i].fading = false := by
  simpa using (Bool.and_eq_true_iff.mp (List.mem_filter.mp h).2).2

theorem capCandidates_perm (v : Vector Voice 33) : (capCandidates v).Perm (fadeable v) := sortByLevel_perm v _

theorem capCandidates_nodup (v : Vector Voice 33) : (capCandidates v).Nodup :=
  (capCandidates_perm v).nodup_iff.mpr ((fadeable_sorted v).imp ne_of_lt)

theorem countP_hardCapSlots (v : Vector Voice 33) (a : Nat) :
    (fadeable v).countP (fun i => decide (i ∈ hardCapSlots v a)) =
      min (a - fadingCount v - Config.hardCap) (fadeable v).length := by
  rw [← (capCandidates_perm v).countP_eq, ← (capCandidates_perm v).length_eq]
  exact countP_mem_take (capCandidates_nodup v)

/-- A slot that the hard cap fades comes before every one that it leaves, when the levels are numbers. -/
theorem hardCapSlots_comesBefore (hn : ∀ j ∈ poolSlots, v[j].effA.isNaN = false) {i j : Slot}
    (hi : i ∈ hardCapSlots v a) (hj : j ∈ fadeable v) (hj' : j ∉ hardCapSlots v a) : comesBefore v i j := by
  have hsorted : (capCandidates v).Pairwise (comesBefore v) :=
    sortByLevel_sorted v _ (fun j hj => hn j (List.mem_of_mem_filter hj)) (fadeable_sorted v)
  rw [← List.take_append_drop (a - fadingCount v - Config.hardCap) (capCandidates v), List.pairwise_append] at hsorted
  refine hsorted.2.2 i hi j ?_
  have hmem := (capCandidates_perm v).mem_iff.mpr hj
  rw [← List.take_append_drop (a - fadingCount v - Config.hardCap) (capCandidates v), List.mem_append] at hmem
  exact hmem.resolve_left hj'

/-! ### After the housekeeping (R500) -/

/-- A candidate fades after the housekeeping exactly when the hard cap took it. -/
theorem housekeeping_fading {i : Slot} (h : i ∈ fadeable s.v) :
    (s.housekeeping.voice i).fading = decide (i ∈ hardCapSlots s.v (activeCount s.v)) := by
  rw [housekeeping_voice]
  split
  · exact (decide_eq_true ‹_›).symm
  · exact (not_fading_of_fadeable h).trans (decide_eq_false ‹_›).symm

/-- The table of release multipliers read upwards. -/
theorem relMulFor_eq (a : Nat) :
    relMulFor a = if a ≤ 8 then 1 else if a ≤ 12 then 2 else if a ≤ 16 then 4 else if a ≤ 20 then 8 else 16 := by
  unfold relMulFor
  split_ifs <;> omega

/-- Settles O55: the hard cap fades the front of the candidates sorted by level. -/
theorem housekeepingFadesTheQuietest : Obligations.HousekeepingFadesTheQuietest := by
  intro s a k cands t
  refine ⟨by rw [← relMulFor_eq]; exact housekeeping_g s, housekeeping_p s, housekeeping_s s, housekeeping_cmd s,
    housekeeping_cmdPos s, housekeeping_modIn s, housekeeping_modPos s, housekeeping_out s, fun i => ?slots, ?count,
    fun hn i hi j hj hfi hfj => ?order⟩
  case slots =>
    by_cases hi : i ∈ hardCapSlots s.v a
    · refine .inr ⟨(capCandidates_perm s.v).mem_iff.mp (List.mem_of_mem_take hi), ?_⟩
      rw [housekeeping_voice, if_pos hi]
      rfl
    · exact .inl (by rw [housekeeping_voice, if_neg hi])
  case count =>
    rw [List.countP_congr fun i hi => by rw [housekeeping_fading hi]]
    exact countP_hardCapSlots s.v a
  case order =>
    rw [housekeeping_fading hi] at hfi
    rw [housekeeping_fading hj] at hfj
    have ni := hn i (List.mem_of_mem_filter hi)
    have nj := hn j (List.mem_of_mem_filter hj)
    rcases hardCapSlots_comesBefore hn (of_decide_eq_true hfi) hj (of_decide_eq_false hfj) with hlt | ⟨heq, hij⟩
    · exact .inl ((F64.lt_iff ni nj).mpr hlt)
    · exact .inr ⟨(F64.eq_iff ni nj).mpr heq, hij⟩

end Sys2Proof.Machine
end

section
/-! PROOFS. Command errors (60_exceptions.md R560 to R562), and the waits of the block (R575, 70_reset_and_hazards.md
R613). -/

namespace Sys2Proof.Machine

variable {s : State}

/-! ### Command errors -/

/-- The count goes up by one and stops at 255 (R562). -/
theorem errCount_record (x : Status) (e : CmdError) :
    (x.record e).errCount.toNat = min (x.errCount.toNat + 1) 255 := by
  have hx := x.errCount.isLt
  unfold Status.record
  dsimp only
  split
  · rw [BitVec.toNat_add, show (1 : BitVec 8).toNat = 1 from rfl]
    omega
  · rw [show (255 : BitVec 8).toNat = 255 from rfl]
    omega

/-- Settles O10: a recorded error is `Status.record` of the status fields and nothing else. -/
theorem errorIsRecorded : Obligations.ErrorIsRecorded :=
  fun s e => ⟨rfl, rfl, errCount_record s.s e⟩

/-- Settles O11: of the three things that a command can do to the status fields only the error is left. -/
theorem rejectedCommandHasNoOtherEffect : Obligations.RejectedCommandHasNoOtherEffect := by
  intro i s t h hs hclear
  rcases exec_status h with hkept | rfl | herror
  · exact absurd hkept hs
  · exact absurd rfl hclear
  · exact herror

end Sys2Proof.Machine

namespace Sys2Proof

/-! ### What the decoder waits for (30_encoding.md R133) -/

/-- With a header present the decoder misses the payload, or all words are there and it answers an error or a command. -/
theorem decode_cons_cases (w : Word) (rest : List Word) :
    (rest.length + 1 < lengthOf (opcode w) ∧ decode (w :: rest) = .noPayload) ∨
    (lengthOf (opcode w) ≤ rest.length + 1 ∧
      (decode (w :: rest) = .illegalOpcode ∨ (∃ len, decode (w :: rest) = .reservedBits len) ∨
        ∃ i len, decode (w :: rest) = .command i len)) := by
  cases hr : rowOf (opcode w) with
  | none => exact .inr ⟨by rw [Machine.lengthOf_of_no_row hr]; omega, .inl (decode_of_no_row hr)⟩
  | some r =>
    by_cases hlen : rest.length + 1 < lengthOf (opcode w)
    · exact .inl ⟨hlen, by simp only [decode, hr]; exact if_pos hlen⟩
    · have hlen' := Nat.not_lt.mp hlen
      refine .inr ⟨hlen', .inr ?_⟩
      cases ha : r.accepts w with
      | false => exact .inl ⟨_, decode_of_not_accepted hr hlen' ha⟩
      | true =>
        obtain ⟨i, hi⟩ := exists_operands hr (rest.getD 0 0) (rest.getD 1 0)
        exact .inr ⟨i, _, decode_of_accepted hr hlen' ha hi⟩

/-- Words of a three-word command are missing exactly when its opcode has a payload and fewer than two words follow. -/
theorem missing_payload_iff {w : Word} {rest : List Word} :
    rest.length + 1 < lengthOf (opcode w) ↔ (w.toNat / 2 ^ 24 = 0x01 ∨ w.toNat / 2 ^ 24 = 0x10) ∧ rest.length < 2 := by
  rw [← opcode_eq, lengthOf]
  split <;> omega

theorem encode_render_modin (nf : Nat) : encode (.render true nf) = [header 0x20 (2 ^ 16 + nf)] := by
  rw [encode, if_pos rfl]

/-- The words of a RENDER with modulation. -/
theorem decode_render_iff {ws : List Word} {nf : Nat} :
    decode ws = .command (.render true nf) 1 ↔ nf < 2 ^ 16 ∧ ∃ rest, ws = header 0x20 (2 ^ 16 + nf) :: rest := by
  constructor
  · intro h
    refine ⟨wf_render.mp (decode_wellFormed h).1, ws.drop 1, ?_⟩
    calc ws
      _ = ws.take 1 ++ ws.drop 1 := (List.take_append_drop 1 ws).symm
      _ = header 0x20 (2 ^ 16 + nf) :: ws.drop 1 := by rw [take_of_decode h, encode_render_modin]; rfl
  · rintro ⟨hnf, rest, rfl⟩
    have h := decode_encode (wf_render (m := true).mpr hnf) rest
    rw [encode_render_modin] at h
    exact h

theorem masked_render {w : Word} : w &&& 0xFFFF0000 = 0x20010000 ↔ w = header 0x20 (2 ^ 16 + w.toNat % 2 ^ 16) := by
  have hw := w.isLt
  have low : w.toNat % 2 ^ 16 < 2 ^ 16 := Nat.mod_lt _ (by decide)
  rw [masked_high w _ _ 16 16 rfl (by decide), show (0x20010000 : Word).toNat = 2 ^ 16 * 0x2001 by decide,
    ← BitVec.toNat_inj, toNat_header (by decide) (by omega)]
  omega

end Sys2Proof

namespace Sys2Proof.Machine

variable {s : State}

/-! ### What a command waits for (43_render.md R294) -/

/-- A RENDER of `nf` frames has to wait for its modulation frames. -/
structure AwaitsModulation (s : State) (nf : Nat) : Prop where
  configured : s.g.configured = true
  fits : nf ≤ s.g.blockSize
  missing : s.modIn.length < nf

/-- A RENDER past its checks waits or runs. -/
theorem execRender_outcome (modin : Bool) (nf : Nat) (s : State) :
    (∃ t, execRender modin nf s = .next t) ∨ (modin = true ∧ AwaitsModulation s nf) := by
  unfold execRender
  split
  · exact .inl ⟨_, rfl⟩
  · rename_i hc
    split
    · exact .inl ⟨_, rfl⟩
    · rename_i hb
      split
      · exact .inl ⟨_, rfl⟩
      · split
        · rename_i hwait
          obtain ⟨hm, hlt⟩ := Bool.and_eq_true_iff.mp hwait
          exact .inr ⟨hm, by simpa using hc, Nat.not_lt.mp hb, of_decide_eq_true hlt⟩
        · exact .inl ⟨_, rfl⟩

/-- Every command answers a next state, but for a RENDER that waits. -/
theorem exec_outcome (i : Instr) (s : State) :
    (∃ t, exec i s = .next t) ∨ ∃ nf, i = .render true nf ∧ AwaitsModulation s nf := by
  cases i with
  | render modin nf =>
    rcases execRender_outcome modin nf s with hnext | ⟨rfl, hwait⟩
    · exact .inl hnext
    · exact .inr ⟨nf, rfl, hwait⟩
  | noteOn note vel =>
    rw [exec, execNoteOn]
    split
    · exact .inl ⟨_, rfl⟩
    · split <;> exact .inl ⟨_, rfl⟩
  | reset bs sr =>
    rw [exec, execReset]
    split
    · exact .inl ⟨_, rfl⟩
    · split <;> exact .inl ⟨_, rfl⟩
  | setVoiceMode mode =>
    rw [exec, execSetVoiceMode]
    split <;> exact .inl ⟨_, rfl⟩
  | paramWrite idx x =>
    rw [exec, execParamWrite]
    split
    · exact .inl ⟨_, rfl⟩
    · split <;> exact .inl ⟨_, rfl⟩
  | nop | clearStatus | noteOff | cc | pitchBend | programChange | aftertouch => exact .inl ⟨_, rfl⟩

/-! ### The step (40_system_commands.md R200) -/

/-- The input that each wait of the block is for. -/
def WaitsFor (s : State) : Fault → Prop
  | .idle => s.cmd = []
  | .awaitPayload => ∃ w rest, s.cmd = w :: rest ∧ rest.length + 1 < lengthOf (opcode w)
  | .awaitModulation => ∃ nf, decode s.cmd = .command (.render true nf) 1 ∧ AwaitsModulation s nf

theorem step_of_command {i : Instr} {len : Nat} (h : decode s.cmd = .command i len) :
    step s = exec i (s.consume len) := by
  rw [step, runCommand, h]

theorem step_of_waitsFor : ∀ {r : Fault}, WaitsFor s r → step s = .fault r
  | .idle, h => by rw [step, runCommand, show s.cmd = [] from h]; rfl
  | .awaitPayload, ⟨w, rest, hc, hmissing⟩ => by
    rcases decode_cons_cases w rest with ⟨-, hd⟩ | ⟨hlen, -⟩
    · rw [step, runCommand, hc, hd]
    · exact absurd hmissing (Nat.not_lt.mpr hlen)
  | .awaitModulation, ⟨nf, hd, hw⟩ =>
    (step_of_command hd).trans (execRender_of_missing_modulation (s := s.consume 1) hw.configured hw.fits hw.missing)

/-- A step goes on, or the block waits. -/
theorem step_outcome (s : State) : (∃ t, step s = .next t) ∨ ∃ r, WaitsFor s r := by
  cases hc : s.cmd with
  | nil => exact .inr ⟨.idle, hc⟩
  | cons w rest =>
    rcases decode_cons_cases w rest with ⟨hlen, -⟩ | ⟨-, hd | ⟨len, hd⟩ | ⟨i, len, hd⟩⟩
    · exact .inr ⟨.awaitPayload, w, rest, hc, hlen⟩
    · exact .inl ⟨_, by rw [step, runCommand, hc, hd]; rfl⟩
    · exact .inl ⟨_, by rw [step, runCommand, hc, hd]; rfl⟩
    · rw [← hc] at hd
      rcases exec_outcome i (s.consume len) with ⟨t, ht⟩ | ⟨nf, rfl, hw⟩
      · exact .inl ⟨t, (step_of_command hd).trans ht⟩
      · obtain ⟨-, rfl, -⟩ := decode_wellFormed hd
        exact .inr ⟨.awaitModulation, nf, hd, hw.configured, hw.fits, hw.missing⟩

theorem step_fault_iff {r : Fault} : step s = .fault r ↔ WaitsFor s r := by
  refine ⟨fun h => ?_, step_of_waitsFor⟩
  rcases step_outcome s with ⟨t, ht⟩ | ⟨r', hr⟩
  · rw [ht] at h
    cases h
  · cases h.symm.trans (step_of_waitsFor hr)
    exact hr

theorem step_ne_refused (s : State) (r : Refusal) : step s ≠ .refused r := by
  intro h
  rcases step_outcome s with ⟨t, ht⟩ | ⟨r', hr⟩
  · cases h.symm.trans ht
  · cases h.symm.trans (step_of_waitsFor hr)

/-- Settles O7: each wait comes from its one missing input, which the words of the statement spell out. -/
theorem blockWaitsOnlyForInput : Obligations.BlockWaitsOnlyForInput := by
  intro s
  refine ⟨step_fault_iff, step_fault_iff.trans ?payload, step_fault_iff.trans ⟨?spelt, ?waits⟩, step_ne_refused s⟩
  case payload =>
    refine exists₂_congr fun w rest => and_congr_right fun _ => ?_
    exact missing_payload_iff
  case spelt =>
    rintro ⟨nf, hd, hw⟩
    obtain ⟨hnf, rest, hc⟩ := decode_render_iff.mp hd
    have low : (header 0x20 (2 ^ 16 + nf)).toNat % 2 ^ 16 = nf := by
      rw [toNat_header (by decide) (by omega)]
      omega
    refine ⟨_, rest, hc, masked_render.mpr (by rw [low]), ?_⟩
    rw [low]
    exact ⟨hw.configured, hw.fits, hw.missing⟩
  case waits =>
    rintro ⟨w, rest, hc, hmask, hconf, hfits, hmissing⟩
    refine ⟨_, decode_render_iff.mpr ⟨Nat.mod_lt _ (by decide), rest, ?_⟩, hconf, hfits, hmissing⟩
    rw [hc, ← masked_render.mp hmask]

end Sys2Proof.Machine
end
